-- ==== Sys2Proof/Word.lean ====
section
/-! DEFINITION. The word types of the SPN-32 cipher engine (spec 00_scope.md R9: unsigned values of a stated width). -/

namespace Sys2Proof

/-- A 32-bit register or command word (10_state.md R33, 30_encoding.md R110). -/
abbrev Word := BitVec 32

/-- One byte of data memory (20_memory.md R80). -/
abbrev Byte := BitVec 8

/-- A 64-bit value: KEY, IV, DIN, DOUT (10_state.md R37 to R43), and the container of one block of
either width; a 32-bit block stands in it with bits 63:32 zero (log 9). -/
abbrev Block := BitVec 64

end Sys2Proof
end

