-- ==== Sys2Proof/Config.lean ====
section
/-! DEFINITION. The implementation parameters of spec 00_scope.md R7, and the free values that stand for them where no
configuration is given. -/

namespace Sys2Proof

/-- The parameters that no source fixes (00_scope.md R7). A table is the list of its entries, index 0 first; the entry
types carry the ranges 0..15 and 0..31. The reverse tables are computed (40_primitives.md R143). -/
structure Config where
  /-- `SPN_SBOX`, the SPN-32 straight S-box. -/
  spnSbox : Vector (Fin 16) 16
  /-- `SPN_PBOX`, the SPN-32 straight permutation. -/
  spnPbox : Vector (Fin 32) 32
  /-- `FEI_SBOX`, the S-box inside F. -/
  feiSbox : Vector (Fin 16) 16
  /-- `FEI_PBOX`, the 16-bit P-table inside F. -/
  feiPbox : Vector (Fin 16) 16
  /-- `MEM_SIZE`, the number of addressable bytes. -/
  memSize : Nat
  /-- `REG_BASE`, the host address of register offset 0x00, any 32-bit address (00_scope.md R7; log 21 for a block that
  passes the top of the address space). -/
  regBase : Word
  deriving DecidableEq, Repr

/-- FREE VALUE (log 1): the platform's `SPN_SBOX`, some bijection of 0..15; the spec gives none (91 N1). -/
opaque Config.platformSpnSbox : Equiv.Perm (Fin 16)

/-- FREE VALUE (log 1): the platform's `SPN_PBOX`, some bijection of 0..31; the spec gives none (91 N2). -/
opaque Config.platformSpnPbox : Equiv.Perm (Fin 32)

/-- FREE VALUE (log 1): the platform's `FEI_SBOX`, some bijection of 0..15; the spec gives none (91 N3). -/
opaque Config.platformFeiSbox : Equiv.Perm (Fin 16)

/-- FREE VALUE (log 1): the platform's `FEI_PBOX`, some bijection of 0..15; the spec gives none (91 N3). -/
opaque Config.platformFeiPbox : Equiv.Perm (Fin 16)

/-- FREE VALUE (log 1): the platform's `MEM_SIZE` less one, so that `MEM_SIZE` is any of 1 .. 2^32 (00_scope.md R7). -/
opaque Config.platformLastAddress : Word

/-- FREE VALUE (log 1): the platform's `REG_BASE` (00_scope.md R7). -/
opaque Config.platformRegBase : Word

/-- The configuration of the platform that State.reset stands on: every parameter a free value of its range. -/
def Config.platform : Config where
  spnSbox := Vector.ofFn Config.platformSpnSbox
  spnPbox := Vector.ofFn Config.platformSpnPbox
  feiSbox := Vector.ofFn Config.platformFeiSbox
  feiPbox := Vector.ofFn Config.platformFeiPbox
  memSize := Config.platformLastAddress.toNat + 1
  regBase := Config.platformRegBase

end Sys2Proof
end

