-- ==== Sys2Proof/Syntax.lean ====
section
/-! DEFINITION. The 42 commands of spec 30_encoding.md R119, one constructor per row of spec/opcode_table.json. A command
word has no operand fields (R111): its operands come from fixed registers (R116). -/

namespace Sys2Proof

/-- A legal command, named by its mnemonic (30_encoding.md R119, R122). -/
inductive Instr where
  /-- BLK.ENC.SPN (R195), word 0x00000001. -/
  | blkEncSpn
  /-- BLK.DEC.SPN (R196), word 0x00000011. -/
  | blkDecSpn
  /-- BLK.ENC.FEI (R215), word 0x00000021. -/
  | blkEncFei
  /-- BLK.DEC.FEI (R216), word 0x00000031. -/
  | blkDecFei
  /-- BLK.ENC.DES (R240), word 0x00000041. -/
  | blkEncDes
  /-- BLK.DEC.DES (R241), word 0x00000051. -/
  | blkDecDes
  /-- ECB.ENC.SPN (R310), word 0x00000002. -/
  | ecbEncSpn
  /-- ECB.DEC.SPN (R311), word 0x00000012. -/
  | ecbDecSpn
  /-- ECB.ENC.FEI (R312), word 0x00000022. -/
  | ecbEncFei
  /-- ECB.DEC.FEI (R313), word 0x00000032. -/
  | ecbDecFei
  /-- ECB.ENC.DES (R314), word 0x00000042. -/
  | ecbEncDes
  /-- ECB.DEC.DES (R315), word 0x00000052. -/
  | ecbDecDes
  /-- CBC.ENC.SPN (R320), word 0x00000003. -/
  | cbcEncSpn
  /-- CBC.DEC.SPN (R321), word 0x00000013. -/
  | cbcDecSpn
  /-- CBC.ENC.FEI (R322), word 0x00000023. -/
  | cbcEncFei
  /-- CBC.DEC.FEI (R323), word 0x00000033. -/
  | cbcDecFei
  /-- CBC.ENC.DES (R324), word 0x00000043. -/
  | cbcEncDes
  /-- CBC.DEC.DES (R325), word 0x00000053. -/
  | cbcDecDes
  /-- CFB.ENC.SPN (R330), word 0x00000004. -/
  | cfbEncSpn
  /-- CFB.DEC.SPN (R331), word 0x00000014. -/
  | cfbDecSpn
  /-- CFB.ENC.FEI (R332), word 0x00000024. -/
  | cfbEncFei
  /-- CFB.DEC.FEI (R333), word 0x00000034. -/
  | cfbDecFei
  /-- CFB.ENC.DES (R334), word 0x00000044. -/
  | cfbEncDes
  /-- CFB.DEC.DES (R335), word 0x00000054. -/
  | cfbDecDes
  /-- PERM.SPN (R150), word 0x00000005. -/
  | permSpn
  /-- PERM.SPN.REV (R151), word 0x00000015. -/
  | permSpnRev
  /-- PERM.FEI (R152), word 0x00000025. -/
  | permFei
  /-- PERM.FEI.REV (R153), word 0x00000035. -/
  | permFeiRev
  /-- PERM.DES.IP (R154), word 0x00000045. -/
  | permDesIp
  /-- PERM.DES.FP (R155), word 0x00000145. -/
  | permDesFp
  /-- PERM.DES.E (R156), word 0x00000245. -/
  | permDesE
  /-- PERM.DES.P (R157), word 0x00000345. -/
  | permDesP
  /-- PERM.DES.PC1 (R158), word 0x00000445. -/
  | permDesPc1
  /-- PERM.DES.PC2 (R159), word 0x00000545. -/
  | permDesPc2
  /-- SUBST.SPN (R160), word 0x00000006. -/
  | substSpn
  /-- SUBST.SPN.REV (R161), word 0x00000016. -/
  | substSpnRev
  /-- SUBST.FEI (R162), word 0x00000026. -/
  | substFei
  /-- SUBST.FEI.REV (R163), word 0x00000036. -/
  | substFeiRev
  /-- SUBST.DES (R164), word 0x00000046. -/
  | substDes
  /-- KS.SPN (R180), word 0x00000007. -/
  | ksSpn
  /-- KS.FEI (R181), word 0x00000027. -/
  | ksFei
  /-- KS.DES (R182), word 0x00000047. -/
  | ksDes
  deriving DecidableEq, Repr

end Sys2Proof
end

