-- ==== Sys2Proof/WellFormed.lean ====
section
/-! DEFINITION. What is well-formed: a configuration (spec 00_scope.md R8), a command (30_encoding.md R117) and a host
register access (10_state.md R32). -/

namespace Sys2Proof

/-- 00_scope.md R8: each of the four tables is a bijection on its index range (as many entries as values, none twice),
and R7: `MEM_SIZE` is a natural number of 1 .. 2^32. -/
def Config.wf (c : Config) : Bool :=
  decide c.spnSbox.toList.Nodup && decide c.spnPbox.toList.Nodup &&
  decide c.feiSbox.toList.Nodup && decide c.feiPbox.toList.Nodup &&
  decide (1 ≤ c.memSize) && decide (c.memSize ≤ 2 ^ 32)

/-- A configuration together with the proof that it is well-formed: an ill-formed one cannot be built (00_scope.md R8,
"statically impossible"; log 1, log 2). -/
abbrev WfConfig := { c : Config // c.wf = true }

/-- The platform's free configuration is well-formed whatever its values are. -/
theorem Config.platform_wf : Config.platform.wf = true := by
  have h : Config.platformLastAddress.toNat < 4294967296 := Config.platformLastAddress.isLt
  simpa [Config.wf, Config.platform, Vector.toList_ofFn, List.nodup_ofFn, Equiv.injective] using h

/-- The configuration of State.reset (log 1). -/
def WfConfig.platform : WfConfig := ⟨Config.platform, Config.platform_wf⟩

/-- A command has no operand fields (30_encoding.md R111), so every command is well-formed; words that are no command
are refused by the decoder (R117). -/
def Instr.wf (_ : Instr) : Bool := true

/-- 10_state.md R32: the host reaches the register block only with aligned 32-bit accesses. `off` is the offset of the
access and `bytes` its width. -/
def registerAccessWf (off : BitVec 8) (bytes : Nat) : Bool :=
  off.toNat % 4 == 0 && bytes == 4

end Sys2Proof
end

