-- ==== Sys2Proof/Decode.lean ====
section
/-! DEFINITION. The decoder (spec 30_encoding.md R111 to R118), total on every 32-bit word, and after it the encoder
(R111, R119). -/

namespace Sys2Proof

/-- Why a word is not a command. The engine treats all of them alike (30_encoding.md R118, ERRCODE 1); the names only
say which clause of R117 the word breaks (log 20). -/
inductive DecodeError where
  /-- Bit 7 or one of bits 31:11 is not zero. -/
  | reservedBit
  /-- OP is 0 or 8..15. -/
  | op
  /-- CIPHER is 3. -/
  | cipher
  /-- DIR is 1 where it must be 0. -/
  | dir
  /-- TSEL is not one the command has. -/
  | tsel
  deriving DecidableEq, Repr

/-- OP, bits 3:0 (30_encoding.md R111). -/
def opField (w : Word) : BitVec 4 := w.extractLsb' 0 4
/-- DIR, bit 4 (30_encoding.md R111). -/
def dirField (w : Word) : BitVec 1 := w.extractLsb' 4 1
/-- CIPHER, bits 6:5 (30_encoding.md R111). -/
def cipherField (w : Word) : BitVec 2 := w.extractLsb' 5 2
/-- RSV0, bit 7 (30_encoding.md R111). -/
def rsv0Field (w : Word) : BitVec 1 := w.extractLsb' 7 1
/-- TSEL, bits 10:8 (30_encoding.md R111). -/
def tselField (w : Word) : BitVec 3 := w.extractLsb' 8 3
/-- RSV1, bits 31:11 (30_encoding.md R111). -/
def rsv1Field (w : Word) : BitVec 21 := w.extractLsb' 11 21

/-- The predicate `legal(w)` of 30_encoding.md R117. -/
def legal (w : Word) : Bool :=
  let op := (opField w).toNat
  let dir := (dirField w).toNat
  let ci := (cipherField w).toNat
  let ts := (tselField w).toNat
  if rsv0Field w != 0 || rsv1Field w != 0 then false
  else if op == 1 || op == 2 || op == 3 || op == 4 then (ci == 0 || ci == 1 || ci == 2) && ts == 0
  else if op == 5 then
    ((ci == 0 || ci == 1) && ts == 0) ||
      (ci == 2 && dir == 0 && (ts == 0 || ts == 1 || ts == 2 || ts == 3 || ts == 4 || ts == 5))
  else if op == 6 then ((ci == 0 || ci == 1) && ts == 0) || (ci == 2 && dir == 0 && ts == 0)
  else if op == 7 then (ci == 0 || ci == 1 || ci == 2) && dir == 0 && ts == 0
  else false

/-- Choice by CIPHER (30_encoding.md R113: 0 = SPN, 1 = FEI, 2 = DES, 3 = illegal). -/
def byCipher (ci : BitVec 2) (spn fei des : Except DecodeError Instr) : Except DecodeError Instr :=
  match ci.toNat with
  | 0 => spn
  | 1 => fei
  | 2 => des
  | _ => .error .cipher

/-- Choice by DIR (30_encoding.md R114): encrypt or straight (0), decrypt or reverse (1). -/
def byDir (dir : BitVec 1) (i0 i1 : Instr) : Except DecodeError Instr :=
  if dir == 0 then .ok i0 else .ok i1

/-- A form that needs DIR = 0 (30_encoding.md R114). -/
def straightOnly (dir : BitVec 1) (i : Instr) : Except DecodeError Instr :=
  if dir == 0 then .ok i else .error .dir

/-- A form that needs TSEL = 0 (30_encoding.md R111, R117). -/
def noTable (ts : BitVec 3) (r : Except DecodeError Instr) : Except DecodeError Instr :=
  if ts == 0 then r else .error .tsel

/-- Choice of the DES table by TSEL (30_encoding.md R115). -/
def byTable (ts : BitVec 3) : Except DecodeError Instr :=
  match ts.toNat with
  | 0 => .ok .permDesIp
  | 1 => .ok .permDesFp
  | 2 => .ok .permDesE
  | 3 => .ok .permDesP
  | 4 => .ok .permDesPc1
  | 5 => .ok .permDesPc2
  | _ => .error .tsel

/-- The command with the fields OP, DIR, CIPHER, TSEL (30_encoding.md R112 to R115, R117). -/
def decodeFields (op : BitVec 4) (dir : BitVec 1) (ci : BitVec 2) (ts : BitVec 3) : Except DecodeError Instr :=
  match op.toNat with
  | 1 => noTable ts (byCipher ci (byDir dir .blkEncSpn .blkDecSpn) (byDir dir .blkEncFei .blkDecFei)
      (byDir dir .blkEncDes .blkDecDes))
  | 2 => noTable ts (byCipher ci (byDir dir .ecbEncSpn .ecbDecSpn) (byDir dir .ecbEncFei .ecbDecFei)
      (byDir dir .ecbEncDes .ecbDecDes))
  | 3 => noTable ts (byCipher ci (byDir dir .cbcEncSpn .cbcDecSpn) (byDir dir .cbcEncFei .cbcDecFei)
      (byDir dir .cbcEncDes .cbcDecDes))
  | 4 => noTable ts (byCipher ci (byDir dir .cfbEncSpn .cfbDecSpn) (byDir dir .cfbEncFei .cfbDecFei)
      (byDir dir .cfbEncDes .cfbDecDes))
  | 5 => byCipher ci (noTable ts (byDir dir .permSpn .permSpnRev)) (noTable ts (byDir dir .permFei .permFeiRev))
      (if dir == 0 then byTable ts else .error .dir)
  | 6 => noTable ts (byCipher ci (byDir dir .substSpn .substSpnRev) (byDir dir .substFei .substFeiRev)
      (straightOnly dir .substDes))
  | 7 => noTable ts (byCipher ci (straightOnly dir .ksSpn) (straightOnly dir .ksFei) (straightOnly dir .ksDes))
  | _ => .error .op

/-- The decoder: every 32-bit word is one command or is refused, by the name of the clause it breaks
(30_encoding.md R117, R118). -/
def decode (w : Word) : Except DecodeError Instr :=
  if rsv0Field w != 0 || rsv1Field w != 0 then .error .reservedBit
  else decodeFields (opField w) (dirField w) (cipherField w) (tselField w)

/-- The decoder on an instruction numbered as spec/opcode_table.json numbers it. A command is one 32-bit word
(30_encoding.md R110), which is also the order of the table's bits, so `w` with every bit from `nbits` up cleared IS the
word. -/
def decodeTableWord (nbits w : Nat) : Option Instr :=
  (decode (BitVec.ofNat 32 (w % 2 ^ nbits))).toOption

/-- The fields of a command word (30_encoding.md R111). -/
structure Fields where
  /-- OP, bits 3:0. -/
  op : BitVec 4
  /-- DIR, bit 4. -/
  dir : BitVec 1
  /-- CIPHER, bits 6:5. -/
  cipher : BitVec 2
  /-- TSEL, bits 10:8. -/
  tsel : BitVec 3
  deriving DecidableEq, Repr

/-- The columns OP, DIR, CIPHER, TSEL of the opcode map (30_encoding.md R119). -/
def Instr.fields : Instr → Fields
  | .blkEncSpn => ⟨1, 0, 0, 0⟩
  | .blkDecSpn => ⟨1, 1, 0, 0⟩
  | .blkEncFei => ⟨1, 0, 1, 0⟩
  | .blkDecFei => ⟨1, 1, 1, 0⟩
  | .blkEncDes => ⟨1, 0, 2, 0⟩
  | .blkDecDes => ⟨1, 1, 2, 0⟩
  | .ecbEncSpn => ⟨2, 0, 0, 0⟩
  | .ecbDecSpn => ⟨2, 1, 0, 0⟩
  | .ecbEncFei => ⟨2, 0, 1, 0⟩
  | .ecbDecFei => ⟨2, 1, 1, 0⟩
  | .ecbEncDes => ⟨2, 0, 2, 0⟩
  | .ecbDecDes => ⟨2, 1, 2, 0⟩
  | .cbcEncSpn => ⟨3, 0, 0, 0⟩
  | .cbcDecSpn => ⟨3, 1, 0, 0⟩
  | .cbcEncFei => ⟨3, 0, 1, 0⟩
  | .cbcDecFei => ⟨3, 1, 1, 0⟩
  | .cbcEncDes => ⟨3, 0, 2, 0⟩
  | .cbcDecDes => ⟨3, 1, 2, 0⟩
  | .cfbEncSpn => ⟨4, 0, 0, 0⟩
  | .cfbDecSpn => ⟨4, 1, 0, 0⟩
  | .cfbEncFei => ⟨4, 0, 1, 0⟩
  | .cfbDecFei => ⟨4, 1, 1, 0⟩
  | .cfbEncDes => ⟨4, 0, 2, 0⟩
  | .cfbDecDes => ⟨4, 1, 2, 0⟩
  | .permSpn => ⟨5, 0, 0, 0⟩
  | .permSpnRev => ⟨5, 1, 0, 0⟩
  | .permFei => ⟨5, 0, 1, 0⟩
  | .permFeiRev => ⟨5, 1, 1, 0⟩
  | .permDesIp => ⟨5, 0, 2, 0⟩
  | .permDesFp => ⟨5, 0, 2, 1⟩
  | .permDesE => ⟨5, 0, 2, 2⟩
  | .permDesP => ⟨5, 0, 2, 3⟩
  | .permDesPc1 => ⟨5, 0, 2, 4⟩
  | .permDesPc2 => ⟨5, 0, 2, 5⟩
  | .substSpn => ⟨6, 0, 0, 0⟩
  | .substSpnRev => ⟨6, 1, 0, 0⟩
  | .substFei => ⟨6, 0, 1, 0⟩
  | .substFeiRev => ⟨6, 1, 1, 0⟩
  | .substDes => ⟨6, 0, 2, 0⟩
  | .ksSpn => ⟨7, 0, 0, 0⟩
  | .ksFei => ⟨7, 0, 1, 0⟩
  | .ksDes => ⟨7, 0, 2, 0⟩

/-- The command word of an instruction: its fields at the places of 30_encoding.md R111, reserved bits zero. -/
def encode (i : Instr) : Word :=
  0#21 ++ i.fields.tsel ++ 0#1 ++ i.fields.cipher ++ i.fields.dir ++ i.fields.op

end Sys2Proof
end

