-- ==== Sys2Proof/Machine/State.lean ====
section
/-! DEFINITION. The state of the engine and of the agents around it (spec 10_state.md, 60_exceptions.md R378), as plain
data; the reasons for which a step can stop; the state after reset. -/

namespace Sys2Proof.Machine

/-- The three ciphers (30_encoding.md R113). -/
inductive Cipher where
  | spn | fei | des
  deriving DecidableEq, Repr

/-- The two directions of a cipher or mode (30_encoding.md R114). -/
inductive Dir where
  | enc | dec
  deriving DecidableEq, Repr

/-- The three modes of operation (30_encoding.md R112). -/
inductive Mode where
  | ecb | cbc | cfb
  deriving DecidableEq, Repr

/-- The error codes of STATUS.ERRCODE (60_exceptions.md R361). The values 6 to 15 are never written, and a model's type
may be restricted to 0 .. 5 (93 U10; log 14). -/
inductive ErrCode where
  /-- 0, NONE. -/
  | none
  /-- 1, ILLEGAL_CMD. -/
  | illegalCmd
  /-- 2, DES_ROUNDS: fatal. -/
  | desRounds
  /-- 3, ALIGN. -/
  | align
  /-- 4, RANGE. -/
  | range
  /-- 5, BADARG. -/
  | badArg
  deriving DecidableEq, Repr

/-- The stored fields of STATUS (10_state.md R34). BUSY is not stored: it is 1 exactly when the phase is RUN (R47). -/
structure Status where
  /-- DONE, bit 1. -/
  done : Bool
  /-- ERR, bit 2. -/
  err : Bool
  /-- FAULT, bit 3, sticky. -/
  fault : Bool
  /-- WOVR, bit 4. -/
  wovr : Bool
  /-- ERRCODE, bits 11:8. -/
  errCode : ErrCode
  deriving DecidableEq, Repr

/-- The fields of IRQEN (10_state.md R35). -/
structure IrqEnable where
  /-- DONE_IE, bit 0. -/
  doneIe : Bool
  /-- ERR_IE, bit 1. -/
  errIe : Bool
  deriving DecidableEq, Repr

/-- The operand registers, those frozen while BUSY (10_state.md R33, "RW-F"). -/
structure Operands where
  keyLo : Word
  keyHi : Word
  ivLo : Word
  ivHi : Word
  rounds : Word
  src : Word
  dst : Word
  count : Word
  dinLo : Word
  dinHi : Word
  deriving DecidableEq, Repr

/-- `stage` and `inblk` of 10_state.md R48. The input block is held from the RD step that reads it to the WR step that
uses it: before that it is unspecified, after that nothing reads it (R48, R49, 93 U9; log 8). -/
inductive Stage where
  /-- RD: the next engine step reads block j, or completes. -/
  | rd
  /-- WR: the next engine step writes block j; `inblk` is what the RD step read. -/
  | wr (inblk : Block)
  deriving DecidableEq, Repr

/-- The mode controller's state (10_state.md R48), which exists only while a mode command runs (R49; log 8). -/
structure ModeState where
  /-- The block index, 0 .. COUNT. -/
  j : Nat
  /-- Which engine step is next. -/
  stage : Stage
  /-- The chaining value, of the cipher's block width. -/
  chain : Block
  deriving DecidableEq, Repr

/-- `phase` and the decoded command `op` held in RUN (10_state.md R47). -/
inductive Phase where
  /-- IDLE. -/
  | idle
  /-- RUN, a single-operation command: BLK, PERM, SUBST or KS (40_primitives.md R147). -/
  | single (op : Instr)
  /-- RUN, a mode command with its mode state: ECB, CBC or CFB (46_modes.md R301, R302). -/
  | mode (op : Instr) (ms : ModeState)
  deriving DecidableEq, Repr

/-- The data memory (20_memory.md R80): the bytes that differ from what an unlisted address reads as, by address. -/
abbrev Memory := List Host.Cell

/-- One event of the host (60_exceptions.md R378, 30_encoding.md R120, R121). -/
inductive HostOp where
  /-- A 32-bit write at a register offset: the transaction of `wr`. -/
  | regWrite (off : BitVec 8) (v : Word)
  /-- A 32-bit read at a register offset: the transaction of `rd`. -/
  | regRead (off : BitVec 8)
  /-- A write of `bytes` bytes at a host address, meant for the register block at REG_BASE (10_state.md R32). -/
  | busWrite (addr : Word) (bytes : Nat) (v : Word)
  /-- A read of `bytes` bytes at a host address, meant for the register block at REG_BASE (10_state.md R32). -/
  | busRead (addr : Word) (bytes : Nat)
  /-- An atomic write to the data memory, lowest address first (20_memory.md R83, R90). -/
  | memWrite (addr : Word) (bytes : List Byte)
  /-- An atomic read of `n` bytes of the data memory (20_memory.md R83, R90). -/
  | memRead (addr : Word) (n : Nat)
  /-- The loop of 30_encoding.md R121: read STATUS, and again while BUSY is 1. -/
  | wait
  deriving DecidableEq, Repr

/-- What one host read returned (30_encoding.md R120: "recorded in the program's trace"). -/
inductive Observation where
  /-- The register at an offset returned a word. -/
  | reg (off : BitVec 8) (v : Word)
  /-- The data memory from an address returned bytes, lowest address first. -/
  | mem (addr : Word) (bytes : List Byte)
  deriving DecidableEq, Repr

/-- Who makes the next event (60_exceptions.md R378). -/
inductive Agent where
  | host
  | engine
  /-- The platform, whose one event is reset. -/
  | platform
  deriving DecidableEq, Repr

/-- Why a step stops with a fault. No command ends in one from a state that a run reaches (60_exceptions.md R366). -/
inductive Fault where
  /-- A host memory access outside 0 .. MEM_SIZE-1, which the spec says do not exist (20_memory.md R80). Raised by the
  host's memory events; safe (log 11). -/
  | hostAddressOutsideMemory
  /-- An engine block access outside 0 .. MEM_SIZE-1. The accept's range check rules it out (20_memory.md R86), so only
  states that no run reaches raise it; raised by the RD and WR steps; safe (log 12). -/
  | engineAddressOutsideMemory
  deriving DecidableEq, Repr

/-- Why a step, or the construction of a machine, is refused. -/
inductive Refusal where
  /-- An instruction without a meaning; no instruction of this model is refused so. Raised by `exec` alone; safe. -/
  | notModelled (mnemonic : String)
  /-- A register access that is not an aligned 32-bit one: "A model refuses any other access width or alignment"
  (10_state.md R32, 93 U4). Raised by the host's register events; safe (log 13). -/
  | registerAccessForm
  /-- A bus access outside the 256 bytes from REG_BASE, which is no access to the engine (20_memory.md R81). Raised by
  the host's bus events; safe (log 13). -/
  | outsideRegisterBlock
  /-- A configuration that is not well-formed: "A model refuses a configuration that is not well-formed"
  (00_scope.md R8). Raised at construction, by `launch`; safe (log 2). -/
  | illFormedConfiguration
  deriving DecidableEq, Repr

/-- The whole machine: the engine, the data memory it shares with the host, and what the other agents still do. -/
structure State where
  /-- The parameters of 00_scope.md R7, which no event changes (10_state.md R51; log 1). -/
  cfg : WfConfig
  /-- STATUS (10_state.md R34). -/
  status : Status
  /-- IRQEN (10_state.md R35). -/
  irqen : IrqEnable
  /-- KEY, IV, ROUNDS, SRC, DST, COUNT, DIN (10_state.md R37 to R42). -/
  opr : Operands
  /-- DOUT_LO (10_state.md R43). -/
  doutLo : Word
  /-- DOUT_HI (10_state.md R43). -/
  doutHi : Word
  /-- The control state, with the running command and its mode state (10_state.md R47, R48). -/
  phase : Phase
  /-- The data memory (20_memory.md R80). -/
  mem : Memory
  /-- The host's events still to come, in the host's own order (20_memory.md R90; log 10). -/
  host : List HostOp
  /-- What the host has read, newest first (30_encoding.md R120; log 10). -/
  trace : List Observation
  /-- Which agents make the next events; when it is empty the engine moves if it can, else the host (log 4). -/
  schedule : List Agent
  deriving DecidableEq, Repr

/-- STATUS after reset (70_reset_and_hazards.md R390). -/
def Status.reset : Status := ⟨false, false, false, false, .none⟩

/-- IRQEN after reset (70_reset_and_hazards.md R390). -/
def IrqEnable.reset : IrqEnable := ⟨false, false⟩

/-- The operand registers after reset (70_reset_and_hazards.md R390). -/
def Operands.reset : Operands := ⟨0, 0, 0, 0, 0, 0, 0, 0, 0, 0⟩

/-- The machine of a given configuration right after reset, with a given data memory as its launch state
(70_reset_and_hazards.md R390, R391, 20_memory.md R89) and nothing yet for the host to do. -/
def State.initial (cfg : WfConfig) (mem : Memory) : State where
  cfg := cfg
  status := .reset
  irqen := .reset
  opr := .reset
  doutLo := 0
  doutHi := 0
  phase := .idle
  mem := mem
  host := []
  trace := []
  schedule := []

/-- The machine right after reset: every register at the value of 70_reset_and_hazards.md R390, the free configuration
of the platform (log 1), nothing listed in memory (log 3), no host program and no schedule (log 4, log 10). -/
def State.reset : State := .initial .platform []

end Sys2Proof.Machine
end

