-- ==== Sys2Proof/Machine/Ops.lean ====
section
/-! DEFINITION. The named operations over memory, registers and phase; raising an error, and acknowledging it beside it
(spec 20_memory.md R84, 60_exceptions.md R360 to R368, 40_primitives.md R147). -/

namespace Sys2Proof.Machine

/-! ### Memory -/

/-- What an address that is not listed reads as. The spec gives no content at power-on (20_memory.md R89):
DESIGN CHOICE, unsafe (log 3). -/
def Memory.unlisted : Byte := 0

/-- One byte of the data memory. -/
def Memory.readByte : Memory → Nat → Byte
  | [], _ => Memory.unlisted
  | (b, v) :: rest, a => if a = b then v else Memory.readByte rest a

/-- Write one byte, keeping the canonical form: addresses rise, and the value an unlisted address reads as is not
listed. -/
def Memory.writeByte : Memory → Nat → Byte → Memory
  | [], a, v => if v = Memory.unlisted then [] else [(a, v)]
  | (b, w) :: rest, a, v =>
    if a < b then (if v = Memory.unlisted then (b, w) :: rest else (a, v) :: (b, w) :: rest)
    else if a = b then (if v = Memory.unlisted then rest else (a, v) :: rest)
    else (b, w) :: Memory.writeByte rest a v

/-- `MemRead(a, n)` of 20_memory.md R84: n bytes as one little-endian value. -/
def Memory.readBytes (m : Memory) (a : Nat) : Nat → Nat
  | 0 => 0
  | n + 1 => (m.readByte a).toNat + 256 * m.readBytes (a + 1) n

/-- `MemWrite(a, n, v)` of 20_memory.md R84: the n low bytes of v, little-endian. -/
def Memory.writeBytes (m : Memory) (a : Nat) : Nat → Nat → Memory
  | 0, _ => m
  | n + 1, v => (m.writeByte a (BitVec.ofNat 8 v)).writeBytes (a + 1) n (v / 256)

/-- Write a list of bytes from an address up (a host memory write, 20_memory.md R90). -/
def Memory.writeList (m : Memory) (a : Nat) : List Byte → Memory
  | [] => m
  | v :: vs => (m.writeByte a v).writeList (a + 1) vs

/-- Read a list of bytes from an address up (a host memory read, 20_memory.md R90). -/
def Memory.readList (m : Memory) (a : Nat) : Nat → List Byte
  | 0 => []
  | n + 1 => m.readByte a :: m.readList (a + 1) n

/-- The canonical form: addresses strictly rising, no entry equal to what an unlisted address reads as. -/
def Memory.wf : Memory → Bool
  | [] => true
  | (a, v) :: rest => v != Memory.unlisted && rest.all (fun c => a < c.1) && Memory.wf rest

/-- Every listed address is below `n`: memory holds addresses 0 .. MEM_SIZE-1 only (20_memory.md R80). -/
def Memory.below (m : Memory) (n : Nat) : Bool := m.all (fun c => c.1 < n)

/-- MEM_SIZE (00_scope.md R7). -/
def memSize (s : State) : Nat := s.cfg.val.memSize

/-- The n bytes from address a exist (20_memory.md R80, R86; unbounded arithmetic). -/
def inMemory (s : State) (a n : Nat) : Bool := a + n ≤ memSize s

/-! ### Updates of one field -/

def State.withStatus (s : State) (x : Status) : State := { s with status := x }
def State.withIrqen (s : State) (x : IrqEnable) : State := { s with irqen := x }
def State.withOpr (s : State) (x : Operands) : State := { s with opr := x }
/-- `DOUT <- v`: DOUT_LO takes v[31:0] and DOUT_HI takes v[63:32] (40_primitives.md R147). -/
def State.withDout (s : State) (v : Block) : State :=
  { s with doutLo := v.extractLsb' 0 32, doutHi := v.extractLsb' 32 32 }
def State.withPhase (s : State) (x : Phase) : State := { s with phase := x }
def State.withMem (s : State) (x : Memory) : State := { s with mem := x }
def State.withHost (s : State) (x : List HostOp) : State := { s with host := x }
def State.withSchedule (s : State) (x : List Agent) : State := { s with schedule := x }
/-- Record what a host read returned (30_encoding.md R120; log 10). -/
def State.record (s : State) (o : Observation) : State := { s with trace := o :: s.trace }

/-! ### Phase and STATUS events -/

/-- STATUS.BUSY = 1 exactly when the phase is RUN (10_state.md R47). -/
def State.busy (s : State) : Bool :=
  match s.phase with
  | .idle => false
  | .single _ => true
  | .mode _ _ => true

/-- An ignored write of 10_state.md R44 sets WOVR. -/
def State.overrun (s : State) : State := s.withStatus { s.status with wovr := true }

/-- The first line of every accept (60_exceptions.md R360): DONE, ERR and ERRCODE are cleared, WOVR and FAULT stay. -/
def State.clearOutcome (s : State) : State :=
  s.withStatus { s.status with done := false, err := false, errCode := .none }

/-- RAISING AN ERROR, the one exception entry of the engine: `raise Error(code)` sets ERR and ERRCODE and changes nothing
else (60_exceptions.md R363); `raise Fatal(DES_ROUNDS)` sets FAULT as well (R364). There is no handler to enter (R367). -/
def State.raise (s : State) (code : ErrCode) : State :=
  s.withStatus { s.status with err := true, errCode := code, fault := s.status.fault || code == .desRounds }

/-- RETURNING FROM ONE: there is nothing to restore; the host acknowledges by W1C (60_exceptions.md R368). A write of `v` to
STATUS clears DONE for bit 1, ERR with ERRCODE for bit 2, WOVR for bit 4, and nothing else (10_state.md R34). -/
def State.writeStatus (s : State) (v : Word) : State :=
  s.withStatus
    { s.status with
      done := s.status.done && !v.getLsbD 1
      err := s.status.err && !v.getLsbD 2
      errCode := if v.getLsbD 2 then .none else s.status.errCode
      wovr := s.status.wovr && !v.getLsbD 4 }

/-- The accept of a command (60_exceptions.md R360): clear the outcome of the last one, then raise the first error the
checks found, or enter RUN as `start`. -/
def State.accept (s : State) (check : Option ErrCode) (start : Phase) : State :=
  match check with
  | some code => s.clearOutcome.raise code
  | none => s.clearOutcome.withPhase start

/-- A CMD write of a legal word while the engine is IDLE: ignored entirely while FAULT = 1 (60_exceptions.md R365), else
the accept. -/
def State.command (s : State) (check : Option ErrCode) (start : Phase) : State :=
  if s.status.fault then s else s.accept check start

/-- What both complete steps do: DONE <- 1 and phase <- IDLE (40_primitives.md R147, 46_modes.md R302). -/
def State.complete (s : State) : State :=
  (s.withStatus { s.status with done := true }).withPhase .idle

/-- The event reset (70_reset_and_hazards.md R390 to R393): every register and field of the engine takes its reset value
and the phase becomes IDLE, so a running command is abandoned; the data memory and the configuration stay (R391), and
so do the host, what it has read, and the schedule (log 15). -/
def State.resetEvent (s : State) : State :=
  { State.initial s.cfg s.mem with host := s.host, trace := s.trace, schedule := s.schedule }

/-- An instruction's outcome type. -/
abbrev Result := Host.Outcome State Fault Refusal

end Sys2Proof.Machine
end

