-- ==== Sys2Proof/Machine/Operands.lean ====
section
/-! DEFINITION. Operand assembly (spec 30_encoding.md R116, 10_state.md R37 to R43), block addresses (20_memory.md R82), the
checks of the accept (60_exceptions.md R360), and the register map without CMD (10_state.md R32 to R46). -/

namespace Sys2Proof.Machine

/-! ### Operands of the commands. `setWidth` is `trunc_N` and `zext_N` of 00_scope.md R9. -/

/-- `KEY = KEY_HI ++ KEY_LO` (10_state.md R37). -/
def key (s : State) : Block := s.opr.keyHi ++ s.opr.keyLo

/-- `IV = IV_HI ++ IV_LO` (10_state.md R39). -/
def iv (s : State) : Block := s.opr.ivHi ++ s.opr.ivLo

/-- `DIN = DIN_HI ++ DIN_LO` (10_state.md R42). -/
def din (s : State) : Block := s.opr.dinHi ++ s.opr.dinLo

/-- `DOUT = DOUT_HI ++ DOUT_LO` (10_state.md R43). -/
def dout (s : State) : Block := s.doutHi ++ s.doutLo

/-- `DIN[w-1:0]` (30_encoding.md R116). -/
def dinLow (w : Nat) (s : State) : BitVec w := (din s).setWidth w

/-- The SPN-32 key, `KEY[31:0]` (30_encoding.md R116). -/
def keySpn (s : State) : BitVec 32 := (key s).setWidth 32

/-- The Feistel-32 key, `KEY[15:0]` (30_encoding.md R116). -/
def keyFei (s : State) : BitVec 16 := (key s).setWidth 16

/-- The round count, `ROUNDS` (10_state.md R40). -/
def roundCount (s : State) : Nat := s.opr.rounds.toNat

/-- The round-key index of a KS command, `DIN[31:0]` (30_encoding.md R116). -/
def ksIndex (s : State) : Nat := (dinLow 32 s).toNat

/-- The number of blocks, `COUNT` (10_state.md R41). -/
def blockCount (s : State) : Nat := s.opr.count.toNat

/-- `bb`, the block width in bytes (20_memory.md R82, 30_encoding.md R113). -/
def Cipher.blockBytes : Cipher → Nat
  | .spn => 4
  | .fei => 4
  | .des => 8

/-- `bw`, the block width in bits (30_encoding.md R113). -/
def Cipher.blockBits : Cipher → Nat
  | .spn => 32
  | .fei => 32
  | .des => 64

/-- `trunc_bw(v)` in the 64-bit container (10_state.md R48; log 9). -/
def Cipher.trunc (c : Cipher) (v : Block) : Block := (v.setWidth c.blockBits).setWidth 64

/-- The address of input block j, `SRC + j*bb` (20_memory.md R82). -/
def srcAddr (c : Cipher) (s : State) (j : Nat) : Nat := s.opr.src.toNat + j * c.blockBytes

/-- The address of output block j, `DST + j*bb` (20_memory.md R82). -/
def dstAddr (c : Cipher) (s : State) (j : Nat) : Nat := s.opr.dst.toNat + j * c.blockBytes

/-! ### The checks of the accept, in the order of 60_exceptions.md R360, R362 -/

/-- DES_ROUNDS: a DES-64 cipher command with ROUNDS != 16 (44_des64.md R233). -/
def desRoundsCheck (c : Cipher) (s : State) : Option ErrCode :=
  match c with
  | .spn => none
  | .fei => none
  | .des => if s.opr.rounds = 16 then none else some .desRounds

/-- BADARG: KS.DES with an index above 15 (41_key_schedule.md R182). -/
def badArgCheck (s : State) : Option ErrCode :=
  if s.opr.dinLo.toNat > 15 then some .badArg else none

/-- SRC and DST are multiples of bb (20_memory.md R85). -/
def buffersAligned (c : Cipher) (s : State) : Bool :=
  s.opr.src.toNat % c.blockBytes == 0 && s.opr.dst.toNat % c.blockBytes == 0

/-- Both buffers lie in the data memory, in unbounded arithmetic (20_memory.md R86). -/
def buffersInRange (c : Cipher) (s : State) : Bool :=
  decide (s.opr.src.toNat + blockCount s * c.blockBytes ≤ memSize s) &&
    decide (s.opr.dst.toNat + blockCount s * c.blockBytes ≤ memSize s)

/-- ALIGN, then RANGE, and neither when COUNT = 0 (20_memory.md R85, R86, 46_modes.md R303). -/
def bufferCheck (c : Cipher) (s : State) : Option ErrCode :=
  if blockCount s = 0 then none
  else if !buffersAligned c s then some .align
  else if !buffersInRange c s then some .range
  else none

/-- The checks of a mode command: DES_ROUNDS, then the buffers (60_exceptions.md R362). -/
def modeCheck (c : Cipher) (s : State) : Option ErrCode :=
  match desRoundsCheck c s with
  | some e => some e
  | none => bufferCheck c s

/-! ### Block accesses of the engine: whole blocks only (20_memory.md R83) -/

/-- `MemRead(a, bb)` as one atomic block read; nothing outside the data memory. -/
def readBlock (c : Cipher) (s : State) (a : Nat) : Option Block :=
  if inMemory s a c.blockBytes then some (BitVec.ofNat 64 (s.mem.readBytes a c.blockBytes)) else none

/-- `MemWrite(a, bb, v)` as one atomic block write; nothing outside the data memory. -/
def writeBlock (c : Cipher) (s : State) (a : Nat) (v : Block) : Option Memory :=
  if inMemory s a c.blockBytes then some (s.mem.writeBytes a c.blockBytes v.toNat) else none

/-! ### The operand registers of the map (10_state.md R33, R44) -/

/-- The operand registers after a write of `v` at offset `off`, or nothing where no operand register stands there. -/
def Operands.write (o : Operands) (off : BitVec 8) (v : Word) : Option Operands :=
  match off.toNat with
  | 0x10 => some { o with keyLo := v }
  | 0x14 => some { o with keyHi := v }
  | 0x18 => some { o with ivLo := v }
  | 0x1C => some { o with ivHi := v }
  | 0x20 => some { o with rounds := v }
  | 0x24 => some { o with src := v }
  | 0x28 => some { o with dst := v }
  | 0x2C => some { o with count := v }
  | 0x30 => some { o with dinLo := v }
  | 0x34 => some { o with dinHi := v }
  | _ => none

/-- The operand register at offset `off`, or nothing where no operand register stands there. -/
def Operands.read (o : Operands) (off : BitVec 8) : Option Word :=
  match off.toNat with
  | 0x10 => some o.keyLo
  | 0x14 => some o.keyHi
  | 0x18 => some o.ivLo
  | 0x1C => some o.ivHi
  | 0x20 => some o.rounds
  | 0x24 => some o.src
  | 0x28 => some o.dst
  | 0x2C => some o.count
  | 0x30 => some o.dinLo
  | 0x34 => some o.dinHi
  | _ => none

end Sys2Proof.Machine
end

