-- ==== Sys2Proof/Machine/Flags.lean ====
section
/-! DEFINITION. The STATUS and IRQEN words, the `irq` output, and the register map as the host reads and writes it, but for
a CMD write (spec 10_state.md R32 to R46, 60_exceptions.md R361, R370). The engine has no arithmetic flags (R45). -/

namespace Sys2Proof.Machine

/-- The number of an error code (60_exceptions.md R361). -/
def ErrCode.code : ErrCode → BitVec 4
  | .none => 0
  | .illegalCmd => 1
  | .desRounds => 2
  | .align => 3
  | .range => 4
  | .badArg => 5

/-- STATUS as the host reads it (10_state.md R34): BUSY 0, DONE 1, ERR 2, FAULT 3, WOVR 4, zero 7:5, ERRCODE 11:8, zero
31:12. -/
def statusWord (s : State) : Word :=
  0#20 ++ s.status.errCode.code ++ 0#3 ++ BitVec.ofBool s.status.wovr ++ BitVec.ofBool s.status.fault ++
    BitVec.ofBool s.status.err ++ BitVec.ofBool s.status.done ++ BitVec.ofBool s.busy

/-- IRQEN as the host reads it (10_state.md R35): DONE_IE 0, ERR_IE 1, zero 31:2. -/
def irqenWord (s : State) : Word :=
  0#30 ++ BitVec.ofBool s.irqen.errIe ++ BitVec.ofBool s.irqen.doneIe

/-- The interrupt output, a Boolean of the state (60_exceptions.md R370). -/
def irq (s : State) : Bool :=
  (s.status.done && s.irqen.doneIe) || (s.status.err && s.irqen.errIe)

/-- A write to IRQEN: bits 31:2 are ignored, and nothing freezes it (10_state.md R35). -/
def State.writeIrqen (s : State) (v : Word) : State := s.withIrqen ⟨v.getLsbD 0, v.getLsbD 1⟩

/-- A write of `v` to an operand register (10_state.md R44): ignored and WOVR while BUSY, else the register takes the
value at once. -/
def State.writeOperand (s : State) (o : Operands) : State := if s.busy then s.overrun else s.withOpr o

/-- A host write at any offset but CMD's: STATUS (W1C), IRQEN, an operand register, or nothing for DOUT and the reserved
offsets, which do not set WOVR (10_state.md R32, R33). -/
def writeReg (off : BitVec 8) (v : Word) (s : State) : State :=
  match off.toNat with
  | 0x04 => s.writeStatus v
  | 0x08 => s.writeIrqen v
  | _ =>
    match s.opr.write off v with
    | some o => s.writeOperand o
    | none => s

/-- A host read at any offset: the current value, CMD and reserved offsets 0 (10_state.md R32, R36, R46). -/
def readReg (off : BitVec 8) (s : State) : Word :=
  match off.toNat with
  | 0x04 => statusWord s
  | 0x08 => irqenWord s
  | 0x38 => s.doutLo
  | 0x3C => s.doutHi
  | _ =>
    match s.opr.read off with
    | some v => v
    | none => 0

end Sys2Proof.Machine
end

