-- ==== Sys2Proof/Machine/Primitives.lean ====
section
/-! DEFINITION. The bit-permutation and bit-substitution functions (spec 40_primitives.md R140 to R146). The laws
of R146 hold of these definitions; `Obligations.TransformsUndoEachOther` states them. -/

namespace Sys2Proof.Machine

/-! ### Permutations -/

/-- The value whose bit i is bit `T[i]` of x: the sum of `x[T[i]] * 2^i` (40_primitives.md R140). -/
def gatherBits (x : Nat) : List Nat → Nat
  | [] => 0
  | p :: ps => (x.testBit p).toNat + 2 * gatherBits x ps

/-- `permute_w(x, T)`, the pull convention: output bit i is input bit `T[i]` (40_primitives.md R140, 90 C1).
`P_straight` and `P_reverse`, and `P_F` and `P_F_rev`, undo each other through it (R146). -/
def permute {w : Nat} (x : BitVec w) (T : List Nat) : BitVec w := BitVec.ofNat w (gatherBits x.toNat T)

/-- The value bit `m - s_j` that is DES bit `s_j = ((T[j] - 1) mod m) + 1` of an m-bit value (40_primitives.md R144,
00_scope.md R11). -/
def desPosition (m t : Nat) : Nat := m - ((t - 1) % m + 1)

/-- `permute_des(x, T, m)`, from m to n bits: output DES bit j is input DES bit `T[j]`. DES bit n is value bit 0, so the
table is read from its end (40_primitives.md R144). FP undoes IP through it (R146). -/
def permuteDes {m : Nat} (n : Nat) (x : BitVec m) (T : List Nat) : BitVec n :=
  BitVec.ofNat n (gatherBits x.toNat (T.reverse.map (desPosition m)))

/-! ### Substitutions -/

/-- Nibble by nibble from the low end: the sum of `S[x[4j+3:4j]] * 2^(4j)` over n nibbles (40_primitives.md R142). -/
def substNibbles (S : List Nat) : Nat → Nat → Nat
  | 0, _ => 0
  | n + 1, x => S.getD (x % 16) 0 + 16 * substNibbles S n (x / 16)

/-- `substitute_4n(x, S)` on a word of w = 4n bits (40_primitives.md R142). A reverse S-box undoes its
straight one through it (R146). -/
def substitute {w : Nat} (x : BitVec w) (S : List Nat) : BitVec w := BitVec.ofNat w (substNibbles S (w / 4) x.toNat)

/-- `S_k[row_k][col_k]` for a 6-bit chunk: the outer two bits are the row, the inner four the column
(40_primitives.md R145). -/
def desBox (S : List (List Nat)) (c : Nat) : Nat :=
  (S.getD ((c.testBit 5).toNat * 2 + (c.testBit 0).toNat) []).getD (c / 2 % 16) 0

/-- Chunk by chunk from the low end, the boxes given last one first (40_primitives.md R145). -/
def substChunks : List (List (List Nat)) → Nat → Nat
  | [], _ => 0
  | S :: rest, x => desBox S (x % 64) + 16 * substChunks rest (x / 64)

/-- `substitute_des(x)`: chunk c_8 = x[5:0] through S8 gives bits [3:0], chunk c_1 = x[47:42] through S1 gives bits
[31:28] (40_primitives.md R145). -/
def substituteDes (x : BitVec 48) : BitVec 32 := BitVec.ofNat 32 (substChunks desSboxes.reverse x.toNat)

/-! ### The tables of a configuration -/

/-- The inverse of a table: entry v is the index at which v stands (40_primitives.md R143), so that the two undo
each other (R146). -/
def inverseTable (T : List Nat) : List Nat := (List.range T.length).map (fun v => T.idxOf v)

/-- `P_straight = SPN_PBOX` (40_primitives.md R141). -/
def pStraight (c : Config) : List Nat := c.spnPbox.toList.map Fin.val
/-- `P_reverse` (40_primitives.md R143). -/
def pReverse (c : Config) : List Nat := inverseTable (pStraight c)
/-- `S_straight = SPN_SBOX` (40_primitives.md R142). -/
def sStraight (c : Config) : List Nat := c.spnSbox.toList.map Fin.val
/-- `S_reverse` (40_primitives.md R143). -/
def sReverse (c : Config) : List Nat := inverseTable (sStraight c)
/-- `P_F = FEI_PBOX` (40_primitives.md R141). -/
def pF (c : Config) : List Nat := c.feiPbox.toList.map Fin.val
/-- `P_F_rev` (40_primitives.md R143). -/
def pFRev (c : Config) : List Nat := inverseTable (pF c)
/-- `S_F = FEI_SBOX` (40_primitives.md R142). -/
def sF (c : Config) : List Nat := c.feiSbox.toList.map Fin.val
/-- `S_F_rev` (40_primitives.md R143). -/
def sFRev (c : Config) : List Nat := inverseTable (sF c)

end Sys2Proof.Machine
end

