-- ==== Sys2Proof/Machine/KeySchedule.lean ====
section
/-! DEFINITION. The round-key functions (spec 41_key_schedule.md R170 to R176). No round key is state (10_state.md R50). -/

namespace Sys2Proof.Machine

/-- `C_KS` (41_key_schedule.md R170). -/
def keyConstant : Nat := 0x9E3779B9

/-- `rk_spn(K, i) = ror_32(K, i mod 32) XOR ((i * C_KS) mod 2^32)` (41_key_schedule.md R170). -/
def rkSpn (K : BitVec 32) (i : Nat) : BitVec 32 := K.rotateRight (i % 32) ^^^ BitVec.ofNat 32 (i * keyConstant)

/-- `rk_fei(K, i) = ror_16(K[15:0], i mod 16) XOR ((i * C_KS) mod 2^16)` (41_key_schedule.md R171). -/
def rkFei (K : BitVec 16) (i : Nat) : BitVec 16 := K.rotateRight (i % 16) ^^^ BitVec.ofNat 16 (i * keyConstant)

/-- `C_n` (41_key_schedule.md R174, R175): DES bits 1..28 of PC-1, rotated left round by round. -/
def desC (K : Block) : Nat → BitVec 28
  | 0 => (permuteDes 56 K desPc1).extractLsb' 28 28
  | n + 1 => (desC K n).rotateLeft (desShift (n + 1))

/-- `D_n` (41_key_schedule.md R174, R175): DES bits 29..56 of PC-1, rotated left round by round. -/
def desD (K : Block) : Nat → BitVec 28
  | 0 => (permuteDes 56 K desPc1).extractLsb' 0 28
  | n + 1 => (desD K n).rotateLeft (desShift (n + 1))

/-- `rk_des(K, n) = permute_des(C_n ++ D_n, PC2, 56)` for round number n = 1 .. 16 (41_key_schedule.md R176). -/
def rkDes (K : Block) (n : Nat) : BitVec 48 := permuteDes 48 (desC K n ++ desD K n : BitVec 56) desPc2

end Sys2Proof.Machine
end

