-- ==== Sys2Proof/Machine/Ciphers.lean ====
section
/-! DEFINITION. The three block ciphers (spec 42_spn32.md R190, R191, 43_feistel32.md R210 to R212, 44_des64.md R230 to
R232). Each loop is a recursion on the round count; every function is total (60_exceptions.md R366). -/

namespace Sys2Proof.Machine

/-! ### SPN-32 -/

/-- `SPN_E(b, K, R)`: rounds 0 .. R-1 (42_spn32.md R190). -/
def spnE (c : Config) (b K : BitVec 32) : Nat → BitVec 32
  | 0 => b
  | r + 1 => permute (substitute (spnE c b K r ^^^ rkSpn K r) (sStraight c)) (pStraight c)

/-- `SPN_D(b, K, R)`: rounds R-1 downto 0 (42_spn32.md R191). -/
def spnD (c : Config) (b K : BitVec 32) : Nat → BitVec 32
  | 0 => b
  | r + 1 => spnD c (substitute (permute b (pReverse c)) (sReverse c) ^^^ rkSpn K r) K r

/-! ### Feistel networks -/

/-- Rounds 0 .. R-1 of `(L, H) <- (H, L XOR F(r, H))` (43_feistel32.md R211, 44_des64.md R231). -/
def feistelUp {h : Nat} (F : Nat → BitVec h → BitVec h) : Nat → BitVec h × BitVec h → BitVec h × BitVec h
  | 0, p => p
  | r + 1, p =>
    match feistelUp F r p with
    | (l, x) => (x, l ^^^ F r x)

/-- Rounds R-1 downto 0 of the same (43_feistel32.md R212, 44_des64.md R232). -/
def feistelDown {h : Nat} (F : Nat → BitVec h → BitVec h) : Nat → BitVec h × BitVec h → BitVec h × BitVec h
  | 0, p => p
  | r + 1, (l, x) => feistelDown F r (x, l ^^^ F r x)

/-! ### Feistel-32 -/

/-- `F_fei(x, k)` (43_feistel32.md R210). -/
def feiF (c : Config) (x k : BitVec 16) : BitVec 16 := permute (substitute (x ^^^ k) (sF c)) (pF c)

/-- The halves of a 32-bit block, left = high (43_feistel32.md R211). -/
def feiSplit (b : BitVec 32) : BitVec 16 × BitVec 16 := (b.extractLsb' 16 16, b.extractLsb' 0 16)

/-- The terminal swap: `return H ++ L` (43_feistel32.md R211, R214). -/
def feiJoin (p : BitVec 16 × BitVec 16) : BitVec 32 := p.2 ++ p.1

/-- `FEI_E(b, K, R)` (43_feistel32.md R211). -/
def feiE (c : Config) (b : BitVec 32) (K : BitVec 16) (R : Nat) : BitVec 32 :=
  feiJoin (feistelUp (fun r x => feiF c x (rkFei K r)) R (feiSplit b))

/-- `FEI_D(b, K, R)` (43_feistel32.md R212). -/
def feiD (c : Config) (b : BitVec 32) (K : BitVec 16) (R : Nat) : BitVec 32 :=
  feiJoin (feistelDown (fun r x => feiF c x (rkFei K r)) R (feiSplit b))

/-! ### DES-64 -/

/-- `f_des(x, k)` (44_des64.md R230). -/
def desF (x : BitVec 32) (k : BitVec 48) : BitVec 32 :=
  permuteDes 32 (substituteDes (permuteDes 48 x desE ^^^ k)) desP

/-- IP and the halves: L = DES bits 1..32, H = DES bits 33..64 (44_des64.md R231). -/
def desSplit (b : Block) : BitVec 32 × BitVec 32 :=
  match permuteDes 64 b desIp with
  | x => (x.extractLsb' 32 32, x.extractLsb' 0 32)

/-- tau, `pre <- H ++ L`, and FP (44_des64.md R231, R234). -/
def desJoin (p : BitVec 32 × BitVec 32) : Block := permuteDes 64 (p.2 ++ p.1 : Block) desFp

/-- `DES_E(b, K)`: round numbers 1 .. 16 (44_des64.md R231). -/
def desEncrypt (b K : Block) : Block := desJoin (feistelUp (fun r x => desF x (rkDes K (r + 1))) 16 (desSplit b))

/-- `DES_D(b, K)`: round numbers 16 downto 1 (44_des64.md R232). -/
def desDecrypt (b K : Block) : Block := desJoin (feistelDown (fun r x => desF x (rkDes K (r + 1))) 16 (desSplit b))

/-! ### The block-cipher capability (46_modes.md R299) -/

/-- `Enc_c(b)` with the key and round count of the registers (46_modes.md R299). -/
def encBlock (c : Cipher) (s : State) (b : Block) : Block :=
  match c with
  | .spn => (spnE s.cfg.val (b.setWidth 32) (keySpn s) (roundCount s)).setWidth 64
  | .fei => (feiE s.cfg.val (b.setWidth 32) (keyFei s) (roundCount s)).setWidth 64
  | .des => desEncrypt b (key s)

/-- `Dec_c(b)` with the key and round count of the registers (46_modes.md R299). -/
def decBlock (c : Cipher) (s : State) (b : Block) : Block :=
  match c with
  | .spn => (spnD s.cfg.val (b.setWidth 32) (keySpn s) (roundCount s)).setWidth 64
  | .fei => (feiD s.cfg.val (b.setWidth 32) (keyFei s) (roundCount s)).setWidth 64
  | .des => desDecrypt b (key s)

end Sys2Proof.Machine
end

