-- ==== Sys2Proof/Machine/Engine.lean ====
section
/-! DEFINITION. The two shapes of a command, shared by all meanings (spec 60_exceptions.md R360, 40_primitives.md R147,
46_modes.md R300 to R303). The meaning of a command at a state is the event the command makes there (log 6): IDLE, a CMD
write of its word (the accept, or nothing while FAULT = 1); RUNNING ITSELF, its next engine step; running another command, a
CMD write while BUSY (ignored, WOVR; 10_state.md R36). -/

namespace Sys2Proof.Machine

/-! ### Single-operation commands -/

/-- The complete step of a single-operation command: DOUT <- zext_64(result), DONE <- 1, phase <- IDLE
(40_primitives.md R147). -/
def completeSingle (result : Block) (s : State) : State := (s.withDout result).complete

/-- A BLK, PERM, SUBST or KS command `i` with the accept's check and the function `f_op` of its rule
(60_exceptions.md R360, 40_primitives.md R147). -/
def singleCommand (i : Instr) (check : State → Option ErrCode) (result : State → Block) (s : State) : Result :=
  match s.phase with
  | .idle => .next (s.command (check s) (.single i))
  | .single op => .next (if op = i then completeSingle (result s) s else s.overrun)
  | .mode _ _ => .next s.overrun

/-! ### Mode commands -/

/-- One block of a mode: the output block and the next chaining value, from the input block and the chaining value
(46_modes.md R300, R302). CFB uses the forward cipher in both directions (R306). -/
def modeBlock (m : Mode) (d : Dir) (enc dec : Block → Block) (inblk chain : Block) : Block × Block :=
  match m, d with
  | .ecb, .enc => (enc inblk, chain)
  | .ecb, .dec => (dec inblk, chain)
  | .cbc, .enc => (enc (inblk ^^^ chain), enc (inblk ^^^ chain))
  | .cbc, .dec => (dec inblk ^^^ chain, inblk)
  | .cfb, .enc => (inblk ^^^ enc chain, inblk ^^^ enc chain)
  | .cfb, .dec => (inblk ^^^ enc chain, inblk)

/-- The functional meaning of a mode command on a list of input blocks (46_modes.md R300). -/
def modeOutputs (m : Mode) (d : Dir) (enc dec : Block → Block) : Block → List Block → List Block
  | _, [] => []
  | chain, x :: xs =>
    match modeBlock m d enc dec x chain with
    | (out, next) => out :: modeOutputs m d enc dec next xs

/-- The mode state at the accept: j <- 0, stage <- RD, chain <- trunc_bw(IV) (10_state.md R48, 60_exceptions.md R360). -/
def startMode (c : Cipher) (s : State) : ModeState := ⟨0, .rd, c.trunc (iv s)⟩

/-- RD step: inblk <- MemRead(SRC + j*bb, bb), stage <- WR (46_modes.md R301). -/
def rdStep (i : Instr) (c : Cipher) (ms : ModeState) (s : State) : Result :=
  match readBlock c s (srcAddr c s ms.j) with
  | some b => .next (s.withPhase (.mode i { ms with stage := .wr b }))
  | none => .fault .engineAddressOutsideMemory

/-- WR step: compute, MemWrite(DST + j*bb, bb, out), j <- j + 1, stage <- RD (46_modes.md R302). -/
def wrStep (i : Instr) (m : Mode) (d : Dir) (c : Cipher) (ms : ModeState) (inblk : Block) (s : State) : Result :=
  match modeBlock m d (encBlock c s) (decBlock c s) inblk ms.chain with
  | (out, next) =>
    match writeBlock c s (dstAddr c s ms.j) out with
    | some mem => .next ((s.withMem mem).withPhase (.mode i ⟨ms.j + 1, .rd, next⟩))
    | none => .fault .engineAddressOutsideMemory

/-- The engine step of a running mode command: RD while j < COUNT, WR after each RD, and the complete step at
j = COUNT, which writes no register (46_modes.md R301 to R303). -/
def modeStep (i : Instr) (m : Mode) (d : Dir) (c : Cipher) (ms : ModeState) (s : State) : Result :=
  match ms.stage with
  | .rd => if ms.j < blockCount s then rdStep i c ms s else .next s.complete
  | .wr inblk => wrStep i m d c ms inblk s

/-- An ECB, CBC or CFB command `i` (60_exceptions.md R360, 46_modes.md R300 to R303). -/
def modeCommand (i : Instr) (m : Mode) (d : Dir) (c : Cipher) (s : State) : Result :=
  match s.phase with
  | .idle => .next (s.command (modeCheck c s) (.mode i (startMode c s)))
  | .single _ => .next s.overrun
  | .mode op ms => if op = i then modeStep i m d c ms s else .next s.overrun

end Sys2Proof.Machine
end

