-- ==== Sys2Proof/Machine/Blk.lean ====
section
/-! DEFINITION. The BLK commands (spec 42_spn32.md R195, R196, 43_feistel32.md R215, R216, 44_des64.md R240, R241). -/

namespace Sys2Proof.Machine

/-- BLK.ENC.SPN: `SPN_E(DIN[31:0], KEY[31:0], ROUNDS)` (42_spn32.md R195). -/
def execBlkEncSpn (s : State) : Result :=
  singleCommand .blkEncSpn (fun _ => none) (fun s => encBlock .spn s (din s)) s

/-- BLK.DEC.SPN: `SPN_D(DIN[31:0], KEY[31:0], ROUNDS)` (42_spn32.md R196). -/
def execBlkDecSpn (s : State) : Result :=
  singleCommand .blkDecSpn (fun _ => none) (fun s => decBlock .spn s (din s)) s

/-- BLK.ENC.FEI: `FEI_E(DIN[31:0], KEY[15:0], ROUNDS)` (43_feistel32.md R215). -/
def execBlkEncFei (s : State) : Result :=
  singleCommand .blkEncFei (fun _ => none) (fun s => encBlock .fei s (din s)) s

/-- BLK.DEC.FEI: `FEI_D(DIN[31:0], KEY[15:0], ROUNDS)` (43_feistel32.md R216). -/
def execBlkDecFei (s : State) : Result :=
  singleCommand .blkDecFei (fun _ => none) (fun s => decBlock .fei s (din s)) s

/-- BLK.ENC.DES: `DES_E(DIN, KEY)`; DES_ROUNDS at the accept unless ROUNDS = 16 (44_des64.md R240). -/
def execBlkEncDes (s : State) : Result :=
  singleCommand .blkEncDes (desRoundsCheck .des) (fun s => encBlock .des s (din s)) s

/-- BLK.DEC.DES: `DES_D(DIN, KEY)`; DES_ROUNDS at the accept unless ROUNDS = 16 (44_des64.md R241). -/
def execBlkDecDes (s : State) : Result :=
  singleCommand .blkDecDes (desRoundsCheck .des) (fun s => decBlock .des s (din s)) s

end Sys2Proof.Machine
end

