-- ==== Sys2Proof/Machine/KeySched.lean ====
section
/-! DEFINITION. The KS commands (spec 41_key_schedule.md R180 to R182). -/

namespace Sys2Proof.Machine

/-- KS.SPN: `rk_spn(KEY[31:0], DIN[31:0])`; every index is legal (41_key_schedule.md R180). -/
def execKsSpn (s : State) : Result :=
  singleCommand .ksSpn (fun _ => none) (fun s => (rkSpn (keySpn s) (ksIndex s)).setWidth 64) s

/-- KS.FEI: `rk_fei(KEY[15:0], DIN[31:0])`, 16 bits; every index is legal (41_key_schedule.md R181). -/
def execKsFei (s : State) : Result :=
  singleCommand .ksFei (fun _ => none) (fun s => (rkFei (keyFei s) (ksIndex s)).setWidth 64) s

/-- KS.DES: `rk_des(KEY, i + 1)`, 48 bits; BADARG at the accept when i > 15; ROUNDS is not read (41_key_schedule.md R182). -/
def execKsDes (s : State) : Result :=
  singleCommand .ksDes badArgCheck (fun s => (rkDes (key s) (ksIndex s + 1)).setWidth 64) s

end Sys2Proof.Machine
end

