-- ==== Sys2Proof/Machine/Modes.lean ====
section
/-! DEFINITION. The ECB, CBC and CFB commands (spec 46_modes.md R310 to R335). -/

namespace Sys2Proof.Machine

/-- ECB.ENC.SPN: COUNT 32-bit blocks from SRC to DST, ECB encryption with SPN-32 (46_modes.md R310). -/
def execEcbEncSpn (s : State) : Result :=
  modeCommand .ecbEncSpn .ecb .enc .spn s

/-- ECB.DEC.SPN: COUNT 32-bit blocks from SRC to DST, ECB decryption with SPN-32 (46_modes.md R311). -/
def execEcbDecSpn (s : State) : Result :=
  modeCommand .ecbDecSpn .ecb .dec .spn s

/-- ECB.ENC.FEI: COUNT 32-bit blocks from SRC to DST, ECB encryption with Feistel-32 (46_modes.md R312). -/
def execEcbEncFei (s : State) : Result :=
  modeCommand .ecbEncFei .ecb .enc .fei s

/-- ECB.DEC.FEI: COUNT 32-bit blocks from SRC to DST, ECB decryption with Feistel-32 (46_modes.md R313). -/
def execEcbDecFei (s : State) : Result :=
  modeCommand .ecbDecFei .ecb .dec .fei s

/-- ECB.ENC.DES: COUNT 64-bit blocks from SRC to DST, ECB encryption with DES-64 (46_modes.md R314). -/
def execEcbEncDes (s : State) : Result :=
  modeCommand .ecbEncDes .ecb .enc .des s

/-- ECB.DEC.DES: COUNT 64-bit blocks from SRC to DST, ECB decryption with DES-64 (46_modes.md R315). -/
def execEcbDecDes (s : State) : Result :=
  modeCommand .ecbDecDes .ecb .dec .des s

/-- CBC.ENC.SPN: COUNT 32-bit blocks from SRC to DST, CBC encryption with SPN-32 (46_modes.md R320). -/
def execCbcEncSpn (s : State) : Result :=
  modeCommand .cbcEncSpn .cbc .enc .spn s

/-- CBC.DEC.SPN: COUNT 32-bit blocks from SRC to DST, CBC decryption with SPN-32 (46_modes.md R321). -/
def execCbcDecSpn (s : State) : Result :=
  modeCommand .cbcDecSpn .cbc .dec .spn s

/-- CBC.ENC.FEI: COUNT 32-bit blocks from SRC to DST, CBC encryption with Feistel-32 (46_modes.md R322). -/
def execCbcEncFei (s : State) : Result :=
  modeCommand .cbcEncFei .cbc .enc .fei s

/-- CBC.DEC.FEI: COUNT 32-bit blocks from SRC to DST, CBC decryption with Feistel-32 (46_modes.md R323). -/
def execCbcDecFei (s : State) : Result :=
  modeCommand .cbcDecFei .cbc .dec .fei s

/-- CBC.ENC.DES: COUNT 64-bit blocks from SRC to DST, CBC encryption with DES-64 (46_modes.md R324). -/
def execCbcEncDes (s : State) : Result :=
  modeCommand .cbcEncDes .cbc .enc .des s

/-- CBC.DEC.DES: COUNT 64-bit blocks from SRC to DST, CBC decryption with DES-64 (46_modes.md R325). -/
def execCbcDecDes (s : State) : Result :=
  modeCommand .cbcDecDes .cbc .dec .des s

/-- CFB.ENC.SPN: COUNT 32-bit blocks from SRC to DST, CFB encryption with SPN-32 (46_modes.md R330). -/
def execCfbEncSpn (s : State) : Result :=
  modeCommand .cfbEncSpn .cfb .enc .spn s

/-- CFB.DEC.SPN: COUNT 32-bit blocks from SRC to DST, CFB decryption with SPN-32 (46_modes.md R331). -/
def execCfbDecSpn (s : State) : Result :=
  modeCommand .cfbDecSpn .cfb .dec .spn s

/-- CFB.ENC.FEI: COUNT 32-bit blocks from SRC to DST, CFB encryption with Feistel-32 (46_modes.md R332). -/
def execCfbEncFei (s : State) : Result :=
  modeCommand .cfbEncFei .cfb .enc .fei s

/-- CFB.DEC.FEI: COUNT 32-bit blocks from SRC to DST, CFB decryption with Feistel-32 (46_modes.md R333). -/
def execCfbDecFei (s : State) : Result :=
  modeCommand .cfbDecFei .cfb .dec .fei s

/-- CFB.ENC.DES: COUNT 64-bit blocks from SRC to DST, CFB encryption with DES-64 (46_modes.md R334). -/
def execCfbEncDes (s : State) : Result :=
  modeCommand .cfbEncDes .cfb .enc .des s

/-- CFB.DEC.DES: COUNT 64-bit blocks from SRC to DST, CFB decryption with DES-64 (46_modes.md R335). -/
def execCfbDecDes (s : State) : Result :=
  modeCommand .cfbDecDes .cfb .dec .des s

end Sys2Proof.Machine
end

