-- ==== Sys2Proof/Machine/Perm.lean ====
section
/-! DEFINITION. The PERM commands (spec 40_primitives.md R150 to R159): the accept raises no error. -/

namespace Sys2Proof.Machine

/-- PERM.SPN: `permute_32(DIN[31:0], P_straight)` (40_primitives.md R150). -/
def execPermSpn (s : State) : Result :=
  singleCommand .permSpn (fun _ => none) (fun s => (permute (dinLow 32 s) (pStraight s.cfg.val)).setWidth 64) s

/-- PERM.SPN.REV: `permute_32(DIN[31:0], P_reverse)` (40_primitives.md R151). -/
def execPermSpnRev (s : State) : Result :=
  singleCommand .permSpnRev (fun _ => none) (fun s => (permute (dinLow 32 s) (pReverse s.cfg.val)).setWidth 64) s

/-- PERM.FEI: `permute_16(DIN[15:0], P_F)` (40_primitives.md R152). -/
def execPermFei (s : State) : Result :=
  singleCommand .permFei (fun _ => none) (fun s => (permute (dinLow 16 s) (pF s.cfg.val)).setWidth 64) s

/-- PERM.FEI.REV: `permute_16(DIN[15:0], P_F_rev)` (40_primitives.md R153). -/
def execPermFeiRev (s : State) : Result :=
  singleCommand .permFeiRev (fun _ => none) (fun s => (permute (dinLow 16 s) (pFRev s.cfg.val)).setWidth 64) s

/-- PERM.DES.IP: `permute_des(DIN[63:0], IP, 64)` (40_primitives.md R154). -/
def execPermDesIp (s : State) : Result :=
  singleCommand .permDesIp (fun _ => none) (fun s => (permuteDes 64 (dinLow 64 s) desIp).setWidth 64) s

/-- PERM.DES.FP: `permute_des(DIN[63:0], FP, 64)` (40_primitives.md R155). -/
def execPermDesFp (s : State) : Result :=
  singleCommand .permDesFp (fun _ => none) (fun s => (permuteDes 64 (dinLow 64 s) desFp).setWidth 64) s

/-- PERM.DES.E: `permute_des(DIN[31:0], E, 32)`, 48 bits (40_primitives.md R156). -/
def execPermDesE (s : State) : Result :=
  singleCommand .permDesE (fun _ => none) (fun s => (permuteDes 48 (dinLow 32 s) desE).setWidth 64) s

/-- PERM.DES.P: `permute_des(DIN[31:0], P, 32)` (40_primitives.md R157). -/
def execPermDesP (s : State) : Result :=
  singleCommand .permDesP (fun _ => none) (fun s => (permuteDes 32 (dinLow 32 s) desP).setWidth 64) s

/-- PERM.DES.PC1: `permute_des(DIN[63:0], PC1, 64)`, 56 bits (40_primitives.md R158). -/
def execPermDesPc1 (s : State) : Result :=
  singleCommand .permDesPc1 (fun _ => none) (fun s => (permuteDes 56 (dinLow 64 s) desPc1).setWidth 64) s

/-- PERM.DES.PC2: `permute_des(DIN[55:0], PC2, 56)`, 48 bits (40_primitives.md R159). -/
def execPermDesPc2 (s : State) : Result :=
  singleCommand .permDesPc2 (fun _ => none) (fun s => (permuteDes 48 (dinLow 56 s) desPc2).setWidth 64) s

end Sys2Proof.Machine
end

