-- ==== Sys2Proof/Machine/Subst.lean ====
section
/-! DEFINITION. The SUBST commands (spec 40_primitives.md R160 to R164): the accept raises no error. -/

namespace Sys2Proof.Machine

/-- SUBST.SPN: `substitute_32(DIN[31:0], S_straight)` (40_primitives.md R160). -/
def execSubstSpn (s : State) : Result :=
  singleCommand .substSpn (fun _ => none) (fun s => (substitute (dinLow 32 s) (sStraight s.cfg.val)).setWidth 64) s

/-- SUBST.SPN.REV: `substitute_32(DIN[31:0], S_reverse)` (40_primitives.md R161). -/
def execSubstSpnRev (s : State) : Result :=
  singleCommand .substSpnRev (fun _ => none) (fun s => (substitute (dinLow 32 s) (sReverse s.cfg.val)).setWidth 64) s

/-- SUBST.FEI: `substitute_16(DIN[15:0], S_F)` (40_primitives.md R162). -/
def execSubstFei (s : State) : Result :=
  singleCommand .substFei (fun _ => none) (fun s => (substitute (dinLow 16 s) (sF s.cfg.val)).setWidth 64) s

/-- SUBST.FEI.REV: `substitute_16(DIN[15:0], S_F_rev)` (40_primitives.md R163). -/
def execSubstFeiRev (s : State) : Result :=
  singleCommand .substFeiRev (fun _ => none) (fun s => (substitute (dinLow 16 s) (sFRev s.cfg.val)).setWidth 64) s

/-- SUBST.DES: `substitute_des(DIN[47:0])`, 32 bits (40_primitives.md R164). -/
def execSubstDes (s : State) : Result :=
  singleCommand .substDes (fun _ => none) (fun s => (substituteDes (dinLow 48 s)).setWidth 64) s

end Sys2Proof.Machine
end

