-- ==== Sys2Proof/Machine/Dispatch.lean ====
section
/-! DEFINITION. One arm per command (spec 30_encoding.md R119). -/

namespace Sys2Proof.Machine

/-- The event that command `i` makes at `s` (log 6): its accept, its engine step while it runs, or an ignored write. -/
def exec (i : Instr) (s : State) : Host.Outcome State Fault Refusal :=
  match i with
  | .blkEncSpn => Sys2Proof.Machine.execBlkEncSpn s
  | .blkDecSpn => Sys2Proof.Machine.execBlkDecSpn s
  | .blkEncFei => Sys2Proof.Machine.execBlkEncFei s
  | .blkDecFei => Sys2Proof.Machine.execBlkDecFei s
  | .blkEncDes => Sys2Proof.Machine.execBlkEncDes s
  | .blkDecDes => Sys2Proof.Machine.execBlkDecDes s
  | .ecbEncSpn => Sys2Proof.Machine.execEcbEncSpn s
  | .ecbDecSpn => Sys2Proof.Machine.execEcbDecSpn s
  | .ecbEncFei => Sys2Proof.Machine.execEcbEncFei s
  | .ecbDecFei => Sys2Proof.Machine.execEcbDecFei s
  | .ecbEncDes => Sys2Proof.Machine.execEcbEncDes s
  | .ecbDecDes => Sys2Proof.Machine.execEcbDecDes s
  | .cbcEncSpn => Sys2Proof.Machine.execCbcEncSpn s
  | .cbcDecSpn => Sys2Proof.Machine.execCbcDecSpn s
  | .cbcEncFei => Sys2Proof.Machine.execCbcEncFei s
  | .cbcDecFei => Sys2Proof.Machine.execCbcDecFei s
  | .cbcEncDes => Sys2Proof.Machine.execCbcEncDes s
  | .cbcDecDes => Sys2Proof.Machine.execCbcDecDes s
  | .cfbEncSpn => Sys2Proof.Machine.execCfbEncSpn s
  | .cfbDecSpn => Sys2Proof.Machine.execCfbDecSpn s
  | .cfbEncFei => Sys2Proof.Machine.execCfbEncFei s
  | .cfbDecFei => Sys2Proof.Machine.execCfbDecFei s
  | .cfbEncDes => Sys2Proof.Machine.execCfbEncDes s
  | .cfbDecDes => Sys2Proof.Machine.execCfbDecDes s
  | .permSpn => Sys2Proof.Machine.execPermSpn s
  | .permSpnRev => Sys2Proof.Machine.execPermSpnRev s
  | .permFei => Sys2Proof.Machine.execPermFei s
  | .permFeiRev => Sys2Proof.Machine.execPermFeiRev s
  | .permDesIp => Sys2Proof.Machine.execPermDesIp s
  | .permDesFp => Sys2Proof.Machine.execPermDesFp s
  | .permDesE => Sys2Proof.Machine.execPermDesE s
  | .permDesP => Sys2Proof.Machine.execPermDesP s
  | .permDesPc1 => Sys2Proof.Machine.execPermDesPc1 s
  | .permDesPc2 => Sys2Proof.Machine.execPermDesPc2 s
  | .substSpn => Sys2Proof.Machine.execSubstSpn s
  | .substSpnRev => Sys2Proof.Machine.execSubstSpnRev s
  | .substFei => Sys2Proof.Machine.execSubstFei s
  | .substFeiRev => Sys2Proof.Machine.execSubstFeiRev s
  | .substDes => Sys2Proof.Machine.execSubstDes s
  | .ksSpn => Sys2Proof.Machine.execKsSpn s
  | .ksFei => Sys2Proof.Machine.execKsFei s
  | .ksDes => Sys2Proof.Machine.execKsDes s

end Sys2Proof.Machine
end

