-- ==== Sys2Proof/Machine/HostPort.lean ====
section
/-! DEFINITION. The events of the host and the engine's turn (spec 60_exceptions.md R378): register reads and writes with
the CMD write among them (10_state.md R36), memory reads and writes (20_memory.md R90), and the `wait` loop
(30_encoding.md R121). -/

namespace Sys2Proof.Machine

/-- The engine's turn: its one enabled step is the running command's; in IDLE none is enabled and nothing changes
(60_exceptions.md R378, R365; log 5). -/
def engineStep (s : State) : Result :=
  match s.phase with
  | .idle => .next s
  | .single op => exec op s
  | .mode op _ => exec op s

/-- A host write of `w` to CMD (10_state.md R36, 60_exceptions.md R360): ignored entirely while FAULT = 1, ignored with WOVR
while BUSY, else the accept; an illegal word raises ILLEGAL_CMD (30_encoding.md R117). -/
def cmdWrite (w : Word) (s : State) : Result :=
  if s.status.fault then .next s
  else if s.busy then .next s.overrun
  else
    match decode w with
    | .ok i => exec i s
    | .error _ => .next (s.clearOutcome.raise .illegalCmd)

/-- A 32-bit host write at a register offset; one that is not aligned is refused (10_state.md R32). -/
def regWrite (off : BitVec 8) (v : Word) (s : State) : Result :=
  if registerAccessWf off 4 then
    if off = 0x00 then cmdWrite v s else .next (writeReg off v s)
  else .refused .registerAccessForm

/-- A 32-bit host read at a register offset, recorded in the trace; nothing else changes (10_state.md R46). -/
def regRead (off : BitVec 8) (s : State) : Result :=
  if registerAccessWf off 4 then .next (s.record (.reg off (readReg off s))) else .refused .registerAccessForm

/-- The register offset that a host address names: the 256 bytes from REG_BASE are the register block
(10_state.md R32). DESIGN CHOICE (log 21): where REG_BASE is above 0xFFFFFF00 the block wraps modulo 2^32, so that host
addresses from 0 up name its upper offsets; the spec does not say where those offsets lie. -/
def registerOffset (s : State) (addr : Word) : Option (BitVec 8) :=
  if (addr - s.cfg.val.regBase).toNat < 256 then some ((addr - s.cfg.val.regBase).setWidth 8) else none

/-- A host bus write of some width at a host address (10_state.md R32; log 13). -/
def busWrite (addr : Word) (bytes : Nat) (v : Word) (s : State) : Result :=
  match registerOffset s addr with
  | some off => if registerAccessWf off bytes then regWrite off v s else .refused .registerAccessForm
  | none => .refused .outsideRegisterBlock

/-- A host bus read of some width at a host address (10_state.md R32; log 13). -/
def busRead (addr : Word) (bytes : Nat) (s : State) : Result :=
  match registerOffset s addr with
  | some off => if registerAccessWf off bytes then regRead off s else .refused .registerAccessForm
  | none => .refused .outsideRegisterBlock

/-- A host memory write, one atomic event (20_memory.md R83, R90; log 11). -/
def hostMemWrite (addr : Word) (bytes : List Byte) (s : State) : Result :=
  if inMemory s addr.toNat bytes.length then .next (s.withMem (s.mem.writeList addr.toNat bytes))
  else .fault .hostAddressOutsideMemory

/-- A host memory read, one atomic event without side effect (20_memory.md R88, R90; log 11). -/
def hostMemRead (addr : Word) (n : Nat) (s : State) : Result :=
  if inMemory s addr.toNat n then .next (s.record (.mem addr (s.mem.readList addr.toNat n)))
  else .fault .hostAddressOutsideMemory

/-- One turn of `wait`: read STATUS, and stay at the loop while the BUSY read is 1 (30_encoding.md R121). -/
def waitTurn (s : State) : Result :=
  if (statusWord s).getLsbD 0 then .next ((s.record (.reg 0x04 (statusWord s))).withHost (.wait :: s.host))
  else .next (s.record (.reg 0x04 (statusWord s)))

/-- One event of the host, already taken from its list. -/
def hostEvent (op : HostOp) (s : State) : Result :=
  match op with
  | .regWrite off v => regWrite off v s
  | .regRead off => regRead off s
  | .busWrite addr bytes v => busWrite addr bytes v s
  | .busRead addr bytes => busRead addr bytes s
  | .memWrite addr bytes => hostMemWrite addr bytes s
  | .memRead addr n => hostMemRead addr n s
  | .wait => waitTurn s

/-- The host's turn: its next event, in its own order (20_memory.md R90); a host with nothing left to do changes
nothing (log 5). -/
def hostStep (s : State) : Result :=
  match s.host with
  | [] => .next s
  | op :: rest => hostEvent op (s.withHost rest)

/-- The turn of one agent (60_exceptions.md R378). -/
def agentStep (a : Agent) (s : State) : Result :=
  match a with
  | .host => hostStep s
  | .engine => engineStep s
  | .platform => .next s.resetEvent

/-- Who moves when the schedule says nothing: the engine if a command runs, else the host (70_reset_and_hazards.md R404: "A
model may take the engine steps immediately after the accept"; log 4). -/
def defaultAgent (s : State) : Agent := if s.busy then .engine else .host

end Sys2Proof.Machine
end

