-- ==== Sys2Proof/Machine/Step.lean ====
section
/-! DEFINITION. One event of the total order of spec 20_memory.md R90, and the placing of a command word where the next step
takes it. -/

namespace Sys2Proof.Machine

/-- One step: the agent at the head of the schedule moves; when the schedule is empty, the default agent does
(20_memory.md R90, 60_exceptions.md R378; log 4). -/
def step (s : State) : Host.Outcome State Fault Refusal :=
  match s.schedule with
  | a :: rest => agentStep a (s.withSchedule rest)
  | [] => agentStep (defaultAgent s) s

/-- The state in which the very next step runs the command word `w` (log 7). The engine fetches nothing (10_state.md
R31): a command runs when the host writes its word to CMD, so the write is put at the head of the host's events, the
host is given the next turn, and the engine is made ready to accept (IDLE, FAULT = 0: 10_state.md R36). -/
def State.withFetchWord (s : State) (nbits w : Nat) : State :=
  { s with
    host := .regWrite 0x00 (BitVec.ofNat 32 (w % 2 ^ nbits)) :: s.host
    schedule := .host :: s.schedule
    phase := .idle
    status := { s.status with fault := false } }

end Sys2Proof.Machine
end

