-- ==== Sys2Proof/Machine/HostLang.lean ====
section
/-! DEFINITION. The host command language (spec 30_encoding.md R120 to R122): register names, statements,
pseudo-instructions and their expansions, mnemonics, and the launch of a program from reset. -/

namespace Sys2Proof.Machine

/-- The register names of 10_state.md R33 (log 18). -/
inductive Reg where
  | cmd | status | irqen | keyLo | keyHi | ivLo | ivHi | rounds | src | dst | count | dinLo | dinHi | doutLo | doutHi
  deriving DecidableEq, Repr

/-- The offset of a register (10_state.md R33). -/
def regOffset : Reg → BitVec 8
  | .cmd => 0x00
  | .status => 0x04
  | .irqen => 0x08
  | .keyLo => 0x10
  | .keyHi => 0x14
  | .ivLo => 0x18
  | .ivHi => 0x1C
  | .rounds => 0x20
  | .src => 0x24
  | .dst => 0x28
  | .count => 0x2C
  | .dinLo => 0x30
  | .dinHi => 0x34
  | .doutLo => 0x38
  | .doutHi => 0x3C

/-- The 64-bit operands that `wr64` writes (30_encoding.md R121). -/
inductive Wide where
  | key | iv | din
  deriving DecidableEq, Repr

/-- The LO and HI registers of a 64-bit operand (30_encoding.md R121). -/
def wideRegs : Wide → Reg × Reg
  | .key => (.keyLo, .keyHi)
  | .iv => (.ivLo, .ivHi)
  | .din => (.dinLo, .dinHi)

/-- A statement or pseudo-instruction of the language (30_encoding.md R120, R121). -/
inductive Stmt where
  /-- `wr REG, imm32`. -/
  | wr (r : Reg) (v : Word)
  /-- `wr` at an offset that may be reserved (95_test_vectors.md L2.9). -/
  | wrAt (off : BitVec 8) (v : Word)
  /-- `rd REG`. -/
  | rd (r : Reg)
  /-- `rd` at an offset that may be reserved (95_test_vectors.md L2.9). -/
  | rdAt (off : BitVec 8)
  /-- `cmd MNEMONIC`. -/
  | cmd (i : Instr)
  /-- `wait`. -/
  | wait
  /-- `run MNEMONIC`. -/
  | run (i : Instr)
  /-- `wr64 KEY, v`, `wr64 IV, v`, `wr64 DIN, v`. -/
  | wr64 (p : Wide) (v : Block)
  /-- `rd64 DOUT`. -/
  | rd64Dout
  /-- `clr`. -/
  | clr
  deriving DecidableEq, Repr

/-- The transactions of a statement (30_encoding.md R120, R121). -/
def expandStmt : Stmt → List HostOp
  | .wr r v => [.regWrite (regOffset r) v]
  | .wrAt off v => [.regWrite off v]
  | .rd r => [.regRead (regOffset r)]
  | .rdAt off => [.regRead off]
  | .cmd i => [.regWrite (regOffset .cmd) (encode i)]
  | .wait => [.wait]
  | .run i => [.regWrite (regOffset .cmd) (encode i), .wait]
  | .wr64 p v =>
    [.regWrite (regOffset (wideRegs p).1) (v.extractLsb' 0 32),
      .regWrite (regOffset (wideRegs p).2) (v.extractLsb' 32 32)]
  | .rd64Dout => [.regRead (regOffset .doutLo), .regRead (regOffset .doutHi)]
  | .clr => [.regWrite (regOffset .status) 0x00000016]

/-- A directive: what the data memory holds in the start state (30_encoding.md R120). -/
inductive Directive where
  /-- `mem ADDR: w0, w1, ...`, 32-bit little-endian words. -/
  | mem (addr : Word) (words : List Word)
  /-- `mem64 ADDR: d0, d1, ...`, 64-bit little-endian values. -/
  | mem64 (addr : Word) (values : List Block)
  deriving DecidableEq, Repr

/-- Consecutive n-byte little-endian values from an address up. -/
def storeValues (n : Nat) : Memory → Nat → List Nat → Memory
  | m, _, [] => m
  | m, a, v :: vs => storeValues n (m.writeBytes a n v) (a + n) vs

/-- The memory after a directive (log 19). -/
def applyDirective (m : Memory) : Directive → Memory
  | .mem a ws => storeValues 4 m a.toNat (ws.map BitVec.toNat)
  | .mem64 a ds => storeValues 8 m a.toNat (ds.map BitVec.toNat)

/-- The end of the bytes a directive names. -/
def directiveEnd : Directive → Nat
  | .mem a ws => a.toNat + 4 * ws.length
  | .mem64 a ds => a.toNat + 8 * ds.length

/-- A program: its directives and its statements (30_encoding.md R120). -/
structure Program where
  directives : List Directive
  stmts : List Stmt
  deriving DecidableEq, Repr

/-- The machine of a configuration, right after reset, with a program to run: the memory its directives name and its
transactions for the host (30_encoding.md R120, 70_reset_and_hazards.md R406). A configuration that is not well-formed
is refused (00_scope.md R8; log 2), and a directive outside the data memory names bytes that do not exist (log 19). -/
def launch (c : Config) (p : Program) : Result :=
  if h : c.wf = true then
    if p.directives.all (fun d => directiveEnd d ≤ c.memSize) then
      .next ((State.initial ⟨c, h⟩ (p.directives.foldl applyDirective [])).withHost (p.stmts.flatMap expandStmt))
    else .fault .hostAddressOutsideMemory
  else .refused .illFormedConfiguration

/-! ### Mnemonics (30_encoding.md R119, R122) -/

/-- The mnemonic of a command (30_encoding.md R119). -/
def mnemonic : Instr → String
  | .blkEncSpn => "BLK.ENC.SPN"
  | .blkDecSpn => "BLK.DEC.SPN"
  | .blkEncFei => "BLK.ENC.FEI"
  | .blkDecFei => "BLK.DEC.FEI"
  | .blkEncDes => "BLK.ENC.DES"
  | .blkDecDes => "BLK.DEC.DES"
  | .ecbEncSpn => "ECB.ENC.SPN"
  | .ecbDecSpn => "ECB.DEC.SPN"
  | .ecbEncFei => "ECB.ENC.FEI"
  | .ecbDecFei => "ECB.DEC.FEI"
  | .ecbEncDes => "ECB.ENC.DES"
  | .ecbDecDes => "ECB.DEC.DES"
  | .cbcEncSpn => "CBC.ENC.SPN"
  | .cbcDecSpn => "CBC.DEC.SPN"
  | .cbcEncFei => "CBC.ENC.FEI"
  | .cbcDecFei => "CBC.DEC.FEI"
  | .cbcEncDes => "CBC.ENC.DES"
  | .cbcDecDes => "CBC.DEC.DES"
  | .cfbEncSpn => "CFB.ENC.SPN"
  | .cfbDecSpn => "CFB.DEC.SPN"
  | .cfbEncFei => "CFB.ENC.FEI"
  | .cfbDecFei => "CFB.DEC.FEI"
  | .cfbEncDes => "CFB.ENC.DES"
  | .cfbDecDes => "CFB.DEC.DES"
  | .permSpn => "PERM.SPN"
  | .permSpnRev => "PERM.SPN.REV"
  | .permFei => "PERM.FEI"
  | .permFeiRev => "PERM.FEI.REV"
  | .permDesIp => "PERM.DES.IP"
  | .permDesFp => "PERM.DES.FP"
  | .permDesE => "PERM.DES.E"
  | .permDesP => "PERM.DES.P"
  | .permDesPc1 => "PERM.DES.PC1"
  | .permDesPc2 => "PERM.DES.PC2"
  | .substSpn => "SUBST.SPN"
  | .substSpnRev => "SUBST.SPN.REV"
  | .substFei => "SUBST.FEI"
  | .substFeiRev => "SUBST.FEI.REV"
  | .substDes => "SUBST.DES"
  | .ksSpn => "KS.SPN"
  | .ksFei => "KS.FEI"
  | .ksDes => "KS.DES"

/-- Every command, in the order of the opcode map (30_encoding.md R119). -/
def allCommands : List Instr :=
  [.blkEncSpn, .blkDecSpn, .blkEncFei, .blkDecFei, .blkEncDes, .blkDecDes,
   .ecbEncSpn, .ecbDecSpn, .ecbEncFei, .ecbDecFei, .ecbEncDes, .ecbDecDes,
   .cbcEncSpn, .cbcDecSpn, .cbcEncFei, .cbcDecFei, .cbcEncDes, .cbcDecDes,
   .cfbEncSpn, .cfbDecSpn, .cfbEncFei, .cfbDecFei, .cfbEncDes, .cfbDecDes,
   .permSpn, .permSpnRev, .permFei, .permFeiRev, .permDesIp, .permDesFp,
   .permDesE, .permDesP, .permDesPc1, .permDesPc2, .substSpn, .substSpnRev,
   .substFei, .substFeiRev, .substDes, .ksSpn, .ksFei, .ksDes]

/-- The command that a mnemonic spells, in any case of its letters; an assembler refuses a mnemonic that spells none
(30_encoding.md R120, R122). -/
def ofMnemonic (text : String) : Option Instr := allCommands.find? (fun i => mnemonic i == text.toUpper)

end Sys2Proof.Machine
end

