-- ==== Sys2Proof/Safety.lean ====
section
/-! DEFINITION. The terms in which claims about the machine are made: what a command is (spec 30_encoding.md R112, R113), the
accept as the spec writes it (60_exceptions.md R360), the invariant of a safe machine, and functional memory of a mode
command (46_modes.md R300, 20_memory.md R92). -/

namespace Sys2Proof.Machine

/-! ### What a command is, read off its fields -/

/-- The cipher class of a command, by its CIPHER field (30_encoding.md R113). -/
def cipherOf (i : Instr) : Cipher :=
  if i.fields.cipher = 0 then .spn else if i.fields.cipher = 1 then .fei else .des

/-- The direction of a command, by its DIR field (30_encoding.md R114). -/
def dirOf (i : Instr) : Dir := if i.fields.dir = 0 then .enc else .dec

/-- The mode of a mode command, by its OP field; nothing for a single-operation command (30_encoding.md R112). -/
def modeOf (i : Instr) : Option Mode :=
  if i.fields.op = 2 then some .ecb
  else if i.fields.op = 3 then some .cbc
  else if i.fields.op = 4 then some .cfb
  else none

/-- `isMode <- OP in {2, 3, 4}` (60_exceptions.md R360). -/
def isMode (i : Instr) : Bool := i.fields.op = 2 || i.fields.op = 3 || i.fields.op = 4

/-- `OP in {1, 2, 3, 4} and CI = 2`: a DES-64 cipher command (60_exceptions.md R360). -/
def isDesCipher (i : Instr) : Bool := (i.fields.op = 1 || isMode i) && i.fields.cipher = 2

/-- `OP = 7 and CI = 2`: KS.DES (60_exceptions.md R360). -/
def isKsDes (i : Instr) : Bool := i.fields.op = 7 && i.fields.cipher = 2

/-- The block width in bytes by the CIPHER field: `8 if CI = 2 else 4` (60_exceptions.md R360). -/
def fieldBytes (i : Instr) : Nat := if i.fields.cipher = 2 then 8 else 4

/-- The error that the accept of a legal command raises, if any: the tests of 60_exceptions.md R360 line by line, in the
order of R362. -/
def acceptError (i : Instr) (s : State) : Option ErrCode :=
  if isDesCipher i ∧ s.opr.rounds.toNat ≠ 16 then some .desRounds
  else if isKsDes i ∧ s.opr.dinLo.toNat > 15 then some .badArg
  else if isMode i ∧ s.opr.count.toNat > 0 then
    if s.opr.src.toNat % fieldBytes i ≠ 0 ∨ s.opr.dst.toNat % fieldBytes i ≠ 0 then some .align
    else if s.opr.src.toNat + s.opr.count.toNat * fieldBytes i > s.cfg.val.memSize ∨
        s.opr.dst.toNat + s.opr.count.toNat * fieldBytes i > s.cfg.val.memSize then some .range
    else none
  else none

/-- The phase after an accept without error: RUN, with j <- 0, stage <- RD and chain <- trunc_bw(IV) for a mode command
(60_exceptions.md R360, 10_state.md R48). -/
def runPhase (i : Instr) (s : State) : Phase :=
  if isMode i then
    .mode i ⟨0, .rd, if i.fields.cipher = 2 then s.opr.ivHi ++ s.opr.ivLo else (0 : Word) ++ s.opr.ivLo⟩
  else .single i

/-- STATUS after the first line of the accept (60_exceptions.md R360): DONE, ERR, ERRCODE 0; WOVR and FAULT unchanged. -/
def clearedStatus (s : State) : Status :=
  { done := false, err := false, fault := s.status.fault, wovr := s.status.wovr, errCode := .none }

/-- STATUS after `raise` (60_exceptions.md R363, R364). -/
def raisedStatus (code : ErrCode) (s : State) : Status :=
  { done := false, err := true, fault := s.status.fault || code == .desRounds, wovr := s.status.wovr, errCode := code }

/-! ### Results and operands, as the spec writes them -/

/-- The state after the complete step of a single operation with result `v`: DOUT_LO <- v[31:0], DOUT_HI <- v[63:32],
DONE <- 1, phase <- IDLE, and nothing else (40_primitives.md R147). -/
def singleDone (v : Block) (s : State) : State :=
  { s with
    doutLo := v.extractLsb' 0 32
    doutHi := v.extractLsb' 32 32
    status := { s.status with done := true }
    phase := .idle }

/-- The state after the complete step of a mode command: DONE <- 1, phase <- IDLE, and nothing else
(46_modes.md R302). -/
def modeDone (s : State) : State := { s with status := { s.status with done := true }, phase := .idle }

/-- DES bit j of an m-bit value, j = 1 .. m: value bit m - j (00_scope.md R11). -/
def desBit {m : Nat} (x : BitVec m) (j : Nat) : Bool := x.getLsbD (m - j)

/-- The state with another master key. -/
def withKey (hi lo : Word) (s : State) : State := { s with opr := { s.opr with keyHi := hi, keyLo := lo } }

/-- The state with another DIN. -/
def withDin (hi lo : Word) (s : State) : State := { s with opr := { s.opr with dinHi := hi, dinLo := lo } }

/-- The state with another ROUNDS. -/
def withRounds (r : Word) (s : State) : State := { s with opr := { s.opr with rounds := r } }

/-- The state with other IV, SRC, DST and COUNT. -/
def withBuffers (ivHi ivLo src dst count : Word) (s : State) : State :=
  { s with opr := { s.opr with ivHi := ivHi, ivLo := ivLo, src := src, dst := dst, count := count } }

/-- Two master keys agree on the bits that cipher class `c` consumes: `KEY[31:0]`, `KEY[15:0]`, or the bits of KEY that
are no parity bit, the least significant bit of each byte (10_state.md R37, 41_key_schedule.md R174). -/
def keysAgree (c : Cipher) (k k' : Block) : Prop :=
  match c with
  | .spn => ∀ b, b < 32 → k.getLsbD b = k'.getLsbD b
  | .fei => ∀ b, b < 16 → k.getLsbD b = k'.getLsbD b
  | .des => ∀ b, b < 64 → b % 8 ≠ 0 → k.getLsbD b = k'.getLsbD b

/-- The number of low bits of DIN that a command reads (30_encoding.md R116). -/
def dinWidth : Instr → Nat
  | .blkEncSpn | .blkDecSpn | .blkEncFei | .blkDecFei => 32
  | .blkEncDes | .blkDecDes => 64
  | .permSpn | .permSpnRev | .permDesE | .permDesP => 32
  | .permFei | .permFeiRev => 16
  | .permDesIp | .permDesFp | .permDesPc1 => 64
  | .permDesPc2 => 56
  | .substSpn | .substSpnRev => 32
  | .substFei | .substFeiRev => 16
  | .substDes => 48
  | .ksSpn | .ksFei | .ksDes => 32
  | .ecbEncSpn | .ecbDecSpn | .ecbEncFei | .ecbDecFei | .ecbEncDes | .ecbDecDes => 0
  | .cbcEncSpn | .cbcDecSpn | .cbcEncFei | .cbcDecFei | .cbcEncDes | .cbcDecDes => 0
  | .cfbEncSpn | .cfbDecSpn | .cfbEncFei | .cfbDecFei | .cfbEncDes | .cfbDecDes => 0

/-- PERM, SUBST and KS commands, which ignore ROUNDS (10_state.md R40). -/
def ignoresRounds (i : Instr) : Bool := i.fields.op = 5 || i.fields.op = 6 || i.fields.op = 7

/-- PERM and SUBST commands, which read no key (10_state.md R38). -/
def ignoresKey (i : Instr) : Bool := i.fields.op = 5 || i.fields.op = 6

/-- The value that a host read of a register returns (10_state.md R33, R46). -/
def regValue (r : Reg) (s : State) : Word :=
  match r with
  | .cmd => 0
  | .status => statusWord s
  | .irqen => irqenWord s
  | .keyLo => s.opr.keyLo
  | .keyHi => s.opr.keyHi
  | .ivLo => s.opr.ivLo
  | .ivHi => s.opr.ivHi
  | .rounds => s.opr.rounds
  | .src => s.opr.src
  | .dst => s.opr.dst
  | .count => s.opr.count
  | .dinLo => s.opr.dinLo
  | .dinHi => s.opr.dinHi
  | .doutLo => s.doutLo
  | .doutHi => s.doutHi

/-- The operand registers after a write of `v` to one of the "RW-F" registers but CMD (10_state.md R33, R44). -/
def Operands.set (o : Operands) (r : Reg) (v : Word) : Operands :=
  match r with
  | .keyLo => { o with keyLo := v }
  | .keyHi => { o with keyHi := v }
  | .ivLo => { o with ivLo := v }
  | .ivHi => { o with ivHi := v }
  | .rounds => { o with rounds := v }
  | .src => { o with src := v }
  | .dst => { o with dst := v }
  | .count => { o with count := v }
  | .dinLo => { o with dinLo := v }
  | .dinHi => { o with dinHi := v }
  | .cmd | .status | .irqen | .doutLo | .doutHi => o

/-- The operand registers, "RW-F" but CMD (10_state.md R33, R44). -/
def operandRegs : List Reg := [.keyLo, .keyHi, .ivLo, .ivHi, .rounds, .src, .dst, .count, .dinLo, .dinHi]

/-- The command that runs, if any (10_state.md R47). -/
def runningCommand (s : State) : Option Instr :=
  match s.phase with
  | .idle => none
  | .single i => some i
  | .mode i _ => some i

/-- Whose turn it is: the agent at the head of the schedule, and when the schedule is empty the default one (log 4). -/
def turnOf (s : State) : Agent :=
  match s.schedule with
  | a :: _ => a
  | [] => defaultAgent s

/-! ### The invariant -/

/-- A block fits the block width of a cipher (30_encoding.md R113; log 9). -/
def Cipher.fits (c : Cipher) (b : Block) : Prop := b.toNat < 2 ^ c.blockBits

/-- The mode state of a running mode command is one the mode controller can reach (10_state.md R48, 46_modes.md R301,
R302): j counts 0 .. COUNT, a block to be written is one of the buffer, and inblk and chain have the block width. -/
def ModeState.ok (i : Instr) (s : State) (ms : ModeState) : Prop :=
  ms.j ≤ blockCount s ∧ (cipherOf i).fits ms.chain ∧
    match ms.stage with
    | .rd => True
    | .wr inblk => ms.j < blockCount s ∧ (cipherOf i).fits inblk

/-- The phase is one that an accept without error led to: the running command is of the phase's kind, and its operands
still pass the accept's checks, since they are frozen (10_state.md R44, R47). -/
def Phase.ok (s : State) : Prop :=
  match s.phase with
  | .idle => True
  | .single i => isMode i = false ∧ acceptError i s = none
  | .mode i ms => isMode i = true ∧ acceptError i s = none ∧ ms.ok i s

/-- The invariant of a safe machine: every state that a run from reset reaches has it. -/
structure State.Inv (s : State) : Prop where
  /-- The memory is in canonical form (log 3). -/
  memWf : s.mem.wf = true
  /-- Only addresses 0 .. MEM_SIZE-1 hold anything (20_memory.md R80). -/
  memBelow : s.mem.below (memSize s) = true
  /-- A fatal error leaves the engine IDLE, and no command is accepted after it (60_exceptions.md R364, R365). -/
  faultIdle : s.status.fault = true → s.busy = false
  /-- DONE and ERR are never 1 together (60_exceptions.md R368). -/
  oneOutcome : ¬(s.status.done = true ∧ s.status.err = true)
  /-- ERRCODE is 0 exactly when ERR = 0 (10_state.md R34). -/
  codeIffErr : s.status.errCode = .none ↔ s.status.err = false
  /-- While a command runs, neither DONE nor ERR is set (60_exceptions.md R360, R363). -/
  busyQuiet : s.busy = true → s.status.done = false ∧ s.status.err = false
  /-- The running command is legal (10_state.md R47, R48). -/
  phaseOk : Phase.ok s

/-- A step that does not stop on an engine fault (60_exceptions.md R366). -/
def EngineSafe (s : State) : Prop := ∀ f, engineStep s ≠ .fault f

/-! ### Progress -/

/-- How many engine steps the running command still takes (70_reset_and_hazards.md R404): 1 for a single operation, two
for each block left and the complete step for a mode command. -/
def stepsLeft (s : State) : Nat :=
  match s.phase with
  | .idle => 0
  | .single _ => 1
  | .mode _ ms =>
    match ms.stage with
    | .rd => 2 * (blockCount s - ms.j) + 1
    | .wr _ => 2 * (blockCount s - ms.j)

/-- `n` engine steps in a row. -/
def engineSteps : Nat → State → Result
  | 0, s => .next s
  | n + 1, s =>
    match engineStep s with
    | .next t => engineSteps n t
    | .fault f => .fault f
    | .refused r => .refused r

/-! ### The functional meaning of a mode command in memory -/

/-- Input block j of a command as the memory `m` holds it (20_memory.md R82, R84). -/
def inputBlock (c : Cipher) (s : State) (m : Memory) (j : Nat) : Block :=
  BitVec.ofNat 64 (m.readBytes (srcAddr c s j) c.blockBytes)

/-- The memory and the chain after the first n blocks, in the access order RD_0, WR_0, RD_1, ... (20_memory.md R92,
46_modes.md R301, R302). -/
def afterBlocks (m : Mode) (d : Dir) (c : Cipher) (s : State) : Nat → Memory × Block
  | 0 => (s.mem, c.trunc (iv s))
  | n + 1 =>
    match afterBlocks m d c s n with
    | (mem, chain) =>
      match modeBlock m d (encBlock c s) (decBlock c s) (inputBlock c s mem n) chain with
      | (out, next) => (mem.writeBytes (dstAddr c s n) c.blockBytes out.toNat, next)

/-- The state of a running mode command, accepted in `s`, when its first n blocks are done and the host has stayed away
(46_modes.md R301, R302). -/
def afterState (i : Instr) (m : Mode) (s : State) (n : Nat) : State :=
  match afterBlocks m (dirOf i) (cipherOf i) s n with
  | (mem, chain) => { s with status := clearedStatus s, mem := mem, phase := .mode i ⟨n, .rd, chain⟩ }

/-- The input blocks of a command as they stand at the accept. -/
def inputBlocks (c : Cipher) (s : State) : List Block :=
  (List.range (blockCount s)).map (inputBlock c s s.mem)

/-- No output block overlaps an input block that is read later (46_modes.md R300). -/
def noForwardOverlap (c : Cipher) (s : State) : Prop :=
  ∀ i j, i < j → j < blockCount s →
    dstAddr c s i + c.blockBytes ≤ srcAddr c s j ∨ srcAddr c s j + c.blockBytes ≤ dstAddr c s i

end Sys2Proof.Machine
end

