-- ==== Sys2Proof/Certificates/Slice0/Obligations.lean ====
section
/-! DEFINITION. The statements about the SPN-32 cipher engine, from the numbered rules of spec/. -/

section Statements

open Sys2Proof Sys2Proof.Machine

/-! ### Encoding -/

/-- A few rows of the opcode map, at least one of each OP class, decode to their command, and a few words beside them are
refused (30_encoding.md R119, R117). The spec has one kind of illegal word (R118): the names of the refusals are the
model's DESIGN CHOICE (log 20). -/
def Obligations.SampleWordsDecode : Prop :=
  decode 0x00000001 = .ok .blkEncSpn ∧ decode 0x00000051 = .ok .blkDecDes ∧ decode 0x00000032 = .ok .ecbDecFei ∧
  decode 0x00000043 = .ok .cbcEncDes ∧ decode 0x00000014 = .ok .cfbDecSpn ∧ decode 0x00000015 = .ok .permSpnRev ∧
  decode 0x00000545 = .ok .permDesPc2 ∧ decode 0x00000046 = .ok .substDes ∧ decode 0x00000027 = .ok .ksFei ∧
  decode 0x00000000 = .error .op ∧ decode 0x000000C2 = .error .reservedBit ∧ decode 0x00000645 = .error .tsel ∧
  decode 0x00000057 = .error .dir ∧ decode 0x00000061 = .error .cipher

/-- 30_encoding.md R117: `legal(w)` holds of exactly the 42 command words, and the accept of an illegal word raises
ILLEGAL_CMD: nothing but STATUS changes. -/
def Obligations.LegalWordsAreTheCommandWords : Prop :=
  (∀ w : Word, legal w = true ↔ ∃ i, encode i = w) ∧
  ((∀ i, i ∈ allCommands) ∧ allCommands.length = 42 ∧ (allCommands.map encode).Nodup) ∧
  ∀ (w : Word) (s : State), legal w = false → s.phase = .idle → s.status.fault = false →
    regWrite 0x00 w s = .next { s with status := raisedStatus .illegalCmd s }

/-- 30_encoding.md R118: the decoder is total: a word is exactly one command, whose word it is, or illegal; and every
illegal word is illegal in the same way, whatever bit makes it so. -/
def Obligations.EachWordIsOneCommandOrIllegal : Prop :=
  (∀ i, decode (encode i) = .ok i) ∧
  (∀ (w : Word) (i : Instr), decode w = .ok i → encode i = w) ∧
  (∀ w : Word, (∃ e, decode w = .error e) ↔ legal w = false) ∧
  ∀ (w w' : Word) (s : State), legal w = false → legal w' = false → regWrite 0x00 w s = regWrite 0x00 w' s

/-! ### A step runs the decoded command -/

/-- The host's turn at a CMD write runs the decoded command, the engine's turn runs the running command, and a word placed
by `withFetchWord` is run by the very next step. The schedule is the model's choice (log 4, log 7). -/
def Obligations.StepRunsTheDecodedCommand : Prop :=
  (∀ (s : State) (w : Word) (i : Instr) (rest : List HostOp) (sched : List Agent),
    decode w = .ok i → s.host = .regWrite 0x00 w :: rest → s.phase = .idle → s.status.fault = false →
    (s.schedule = .host :: sched ∨ (s.schedule = [] ∧ sched = [])) →
    step s = exec i { s with host := rest, schedule := sched }) ∧
  (∀ (s : State) (i : Instr) (sched : List Agent),
    runningCommand s = some i → (s.schedule = .engine :: sched ∨ (s.schedule = [] ∧ sched = [])) →
    step s = exec i { s with schedule := sched }) ∧
  ∀ (s : State) (w : Word) (i : Instr),
    decode w = .ok i →
    step (s.withFetchWord 32 w.toNat) = exec i { s with phase := .idle, status := { s.status with fault := false } }

/-! ### The accept -/

/-- 60_exceptions.md R360: the accept, line by line: DONE, ERR and ERRCODE are cleared; an illegal word, and then the first
failing check, raises its error; else the phase becomes RUN with the command and, for a mode command, j = 0, stage = RD
and chain = trunc_bw(IV). The same holds of the command itself, `exec`. -/
def Obligations.AcceptFollowsItsAlgorithm : Prop :=
  ∀ (s : State) (w : Word), s.status.fault = false → s.phase = .idle →
    (legal w = false → regWrite 0x00 w s = .next { s with status := raisedStatus .illegalCmd s }) ∧
    ∀ i, encode i = w →
      regWrite 0x00 w s = exec i s ∧
      (∀ code, acceptError i s = some code → exec i s = .next { s with status := raisedStatus code s }) ∧
      (acceptError i s = none → exec i s = .next { s with status := clearedStatus s, phase := runPhase i s })

/-- 60_exceptions.md R364, 44_des64.md R233: each of the eight DES-64 cipher commands is accepted with ROUNDS = 16 (a mode
command when its buffers are empty or fit) and with any other ROUNDS raises the fatal error, COUNT = 0 or not: ERR,
ERRCODE = 2 and FAULT are set, nothing else changes, and no command is taken from then on; FAULT stays set until reset. -/
def Obligations.DesRoundCountErrorIsFatal : Prop :=
  (∀ u v : State, u.status.fault = true → u.schedule.head? ≠ some .platform → step u = .next v → v.status.fault = true) ∧
  ∀ i ∈ ([.blkEncDes, .blkDecDes, .ecbEncDes, .ecbDecDes, .cbcEncDes, .cbcDecDes, .cfbEncDes, .cfbDecDes] : List Instr),
    ∀ s : State, s.phase = .idle → s.status.fault = false →
      (s.opr.rounds.toNat ≠ 16 →
        ∃ t, exec i s = .next t ∧
          t = { s with status := ⟨false, true, true, s.status.wovr, .desRounds⟩ } ∧
          (ErrCode.desRounds.code = 2 ∧ t.busy = false ∧ (t.doutLo, t.doutHi, t.mem) = (s.doutLo, s.doutHi, s.mem)) ∧
          ∀ w, regWrite 0x00 w t = .next t) ∧
      (s.opr.rounds.toNat = 16 →
        (isMode i = true → s.opr.count.toNat = 0 ∨
          (s.opr.src.toNat % 8 = 0 ∧ s.opr.dst.toNat % 8 = 0 ∧
            s.opr.src.toNat + s.opr.count.toNat * 8 ≤ s.cfg.val.memSize ∧
            s.opr.dst.toNat + s.opr.count.toNat * 8 ≤ s.cfg.val.memSize)) →
        exec i s = .next { s with status := clearedStatus s, phase := runPhase i s })

/-- 60_exceptions.md R365: while FAULT = 1 (and so the engine is IDLE) a CMD write changes nothing; every other register
write and every read does what it does with FAULT = 0; the engine takes no step; and no event but reset leads out. -/
def Obligations.FaultedEngineIgnoresCommands : Prop :=
  ∀ s : State, s.status.fault = true → s.phase = .idle →
    (∀ w, regWrite 0x00 w s = .next s) ∧
    (∀ (off : BitVec 8) (v : Word), off ≠ 0x00 → off.toNat % 4 = 0 →
      ∃ t, regWrite off v { s with status := { s.status with fault := false } } = .next t ∧
        regWrite off v s = .next { t with status := { t.status with fault := true } }) ∧
    (∀ off : BitVec 8, off.toNat % 4 = 0 → off ≠ 0x04 →
      readReg off s = readReg off { s with status := { s.status with fault := false } }) ∧
    (statusWord s).getLsbD 3 = true ∧
    engineStep s = .next s ∧
    ∀ t, s.schedule.head? ≠ some .platform → step s = .next t → t.status.fault = true ∧ t.phase = .idle

/-- 20_memory.md R85, R86: when COUNT > 0 and ROUNDS is legal, a mode command with a misaligned buffer raises ALIGN, an
aligned one with a buffer past MEM_SIZE raises RANGE (in unbounded arithmetic), and else it is accepted and every block
address of it lies in the memory; when COUNT = 0 no address is checked. Each error leaves the memory as it is. -/
def Obligations.BuffersAreCheckedAtTheAccept : Prop :=
  ∀ (i : Instr) (s : State), isMode i = true → s.phase = .idle → s.status.fault = false →
    (cipherOf i = .des → s.opr.rounds.toNat = 16) →
    let bb := (cipherOf i).blockBytes
    let aligned := s.opr.src.toNat % bb = 0 ∧ s.opr.dst.toNat % bb = 0
    let inRange := s.opr.src.toNat + s.opr.count.toNat * bb ≤ s.cfg.val.memSize ∧
      s.opr.dst.toNat + s.opr.count.toNat * bb ≤ s.cfg.val.memSize
    (s.opr.count.toNat > 0 → ¬aligned → exec i s = .next { s with status := raisedStatus .align s }) ∧
    (s.opr.count.toNat > 0 → aligned → ¬inRange → exec i s = .next { s with status := raisedStatus .range s }) ∧
    (s.opr.count.toNat > 0 → aligned → inRange →
      exec i s = .next { s with status := clearedStatus s, phase := runPhase i s } ∧
        ∀ j, j < s.opr.count.toNat →
          srcAddr (cipherOf i) s j % bb = 0 ∧ srcAddr (cipherOf i) s j + bb ≤ s.cfg.val.memSize ∧
          dstAddr (cipherOf i) s j % bb = 0 ∧ dstAddr (cipherOf i) s j + bb ≤ s.cfg.val.memSize) ∧
    (s.opr.count.toNat = 0 → exec i s = .next { s with status := clearedStatus s, phase := runPhase i s })

/-! ### The permutation and substitution functions -/

/-- 40_primitives.md R140: bit i of `permute_w(x, T)` is bit `T[i]` of x, and the whole is their sum. -/
def Obligations.PermutePullsEachBit : Prop :=
  ∀ (w : Nat) (x : BitVec w) (T : List Nat), T.length = w → (∀ p ∈ T, p < w) →
    (∀ i, i < w → (permute x T).getLsbD i = x.getLsbD (T.getD i 0)) ∧
    (permute x T).toNat = ∑ i ∈ Finset.range w, (x.getLsbD (T.getD i 0)).toNat * 2 ^ i

/-- 40_primitives.md R144: DES bit j of `permute_des(x, T, m)` is DES bit `((T[j] - 1) mod m) + 1` of x, and for every
table of the spec the reduction changes no entry. -/
def Obligations.PermuteDesFollowsTheDesNumbering : Prop :=
  (∀ (m n : Nat) (x : BitVec m) (T : List Nat), 0 < m → T.length = n →
    (∀ j, 1 ≤ j → j ≤ n → desBit (permuteDes n x T) j = desBit x ((T.getD (j - 1) 0 - 1) % m + 1)) ∧
    (permuteDes n x T).toNat =
      ∑ j ∈ Finset.range n, (x.getLsbD (m - ((T.getD j 0 - 1) % m + 1))).toNat * 2 ^ (n - (j + 1))) ∧
  ∀ p ∈ ([(desIp, 64), (desFp, 64), (desE, 32), (desP, 32), (desPc1, 64), (desPc2, 56)] : List (List Nat × Nat)),
    ∀ t ∈ p.1, 1 ≤ t ∧ t ≤ p.2

/-- 40_primitives.md R142: `substitute_4n(x, S)` replaces each nibble by its table entry, in place; lane j of the output
depends on lane j of the input alone; and SPN-32 and the F function take their tables from the configuration. -/
def Obligations.SubstituteReplacesEachNibble : Prop :=
  (∀ (n : Nat) (x : BitVec (4 * n)) (S : List Nat), S.length = 16 → (∀ v ∈ S, v < 16) →
    (substitute x S).toNat = ∑ j ∈ Finset.range n, S.getD (x.extractLsb' (4 * j) 4).toNat 0 * 2 ^ (4 * j) ∧
    (∀ j, j < n → ((substitute x S).extractLsb' (4 * j) 4).toNat = S.getD (x.extractLsb' (4 * j) 4).toNat 0) ∧
    ∀ (y : BitVec (4 * n)) (j : Nat), j < n → x.extractLsb' (4 * j) 4 = y.extractLsb' (4 * j) 4 →
      (substitute x S).extractLsb' (4 * j) 4 = (substitute y S).extractLsb' (4 * j) 4) ∧
  ∀ (c : Config) (v : Fin 16),
    (sStraight c).getD v 0 = (c.spnSbox.get v).val ∧ (sF c).getD v 0 = (c.feiSbox.get v).val

/-- 40_primitives.md R143: the four reverse tables are the exact inverses of the straight tables. -/
def Obligations.ReverseTablesAreInverses : Prop :=
  ∀ c : WfConfig,
    (∀ i : Fin 32, (pReverse c.val).getD (c.val.spnPbox.get i).val 32 = i) ∧
    (∀ i : Fin 16, (pFRev c.val).getD (c.val.feiPbox.get i).val 16 = i) ∧
    (∀ v : Fin 16, (sReverse c.val).getD (c.val.spnSbox.get v).val 16 = v) ∧
    (∀ v : Fin 16, (sFRev c.val).getD (c.val.feiSbox.get v).val 16 = v)

/-- The laws of 40_primitives.md R146, which the spec marks as derived from R140, R142 and R143: each straight and reverse
transform undo each other in both orders, and so do IP and FP. -/
def Obligations.TransformsUndoEachOther : Prop :=
  ∀ (c : WfConfig) (x : BitVec 32) (y : BitVec 16) (z : Block),
    (permute (permute x (pStraight c.val)) (pReverse c.val) = x ∧
      permute (permute x (pReverse c.val)) (pStraight c.val) = x) ∧
    (permute (permute y (pF c.val)) (pFRev c.val) = y ∧ permute (permute y (pFRev c.val)) (pF c.val) = y) ∧
    (substitute (substitute x (sStraight c.val)) (sReverse c.val) = x ∧
      substitute (substitute x (sReverse c.val)) (sStraight c.val) = x) ∧
    (substitute (substitute y (sF c.val)) (sFRev c.val) = y ∧
      substitute (substitute y (sFRev c.val)) (sF c.val) = y) ∧
    (permuteDes 64 (permuteDes 64 z desIp) desFp = z ∧ permuteDes 64 (permuteDes 64 z desFp) desIp = z)

/-! ### Results of the single-operation commands (40_primitives.md R147: `singleDone`) -/

/-- PERM.SPN and PERM.FEI complete with output bit k equal to input bit `T[k]`; their reverses with output bit `T[k]` equal
to input bit k (40_primitives.md R150 to R153). The result is zero-extended, and nothing but DOUT, DONE and the phase
changes. -/
def Obligations.PermTableCommandResults : Prop :=
  ∀ s : State,
    (s.phase = .single .permSpn → ∃ v : BitVec 32, exec .permSpn s = .next (singleDone (v.setWidth 64) s) ∧
      ∀ k : Fin 32, v.getLsbD k = s.opr.dinLo.getLsbD (s.cfg.val.spnPbox.get k)) ∧
    (s.phase = .single .permSpnRev → ∃ v : BitVec 32, exec .permSpnRev s = .next (singleDone (v.setWidth 64) s) ∧
      ∀ k : Fin 32, v.getLsbD (s.cfg.val.spnPbox.get k) = s.opr.dinLo.getLsbD k) ∧
    (s.phase = .single .permFei → ∃ v : BitVec 16, exec .permFei s = .next (singleDone (v.setWidth 64) s) ∧
      ∀ k : Fin 16, v.getLsbD k = s.opr.dinLo.getLsbD (s.cfg.val.feiPbox.get k)) ∧
    (s.phase = .single .permFeiRev → ∃ v : BitVec 16, exec .permFeiRev s = .next (singleDone (v.setWidth 64) s) ∧
      ∀ k : Fin 16, v.getLsbD (s.cfg.val.feiPbox.get k) = s.opr.dinLo.getLsbD k)

/-- The six PERM.DES commands complete with DES bit j of the result equal to DES bit `T[j]` of the operand, for their table,
operand width and result width (40_primitives.md R154 to R159). -/
def Obligations.PermDesCommandResults : Prop :=
  ∀ s : State,
    (s.phase = .single .permDesIp → ∃ v : BitVec 64, exec .permDesIp s = .next (singleDone v s) ∧
      ∀ j, j < 64 → desBit v (j + 1) = desBit (s.opr.dinHi ++ s.opr.dinLo) (desIp.getD j 0)) ∧
    (s.phase = .single .permDesFp → ∃ v : BitVec 64, exec .permDesFp s = .next (singleDone v s) ∧
      ∀ j, j < 64 → desBit v (j + 1) = desBit (s.opr.dinHi ++ s.opr.dinLo) (desFp.getD j 0)) ∧
    (s.phase = .single .permDesE → ∃ v : BitVec 48, exec .permDesE s = .next (singleDone (v.setWidth 64) s) ∧
      ∀ j, j < 48 → desBit v (j + 1) = desBit s.opr.dinLo (desE.getD j 0)) ∧
    (s.phase = .single .permDesP → ∃ v : BitVec 32, exec .permDesP s = .next (singleDone (v.setWidth 64) s) ∧
      ∀ j, j < 32 → desBit v (j + 1) = desBit s.opr.dinLo (desP.getD j 0)) ∧
    (s.phase = .single .permDesPc1 → ∃ v : BitVec 56, exec .permDesPc1 s = .next (singleDone (v.setWidth 64) s) ∧
      ∀ j, j < 56 → desBit v (j + 1) = desBit (s.opr.dinHi ++ s.opr.dinLo) (desPc1.getD j 0)) ∧
    (s.phase = .single .permDesPc2 → ∃ v : BitVec 48, exec .permDesPc2 s = .next (singleDone (v.setWidth 64) s) ∧
      ∀ j, j < 48 → desBit v (j + 1) = desBit (s.opr.dinHi.setWidth 24 ++ s.opr.dinLo) (desPc2.getD j 0))

/-- SUBST.SPN and SUBST.FEI complete with each nibble replaced by its table entry; their reverses with each nibble replaced
by the one whose table entry it is (40_primitives.md R160 to R163). -/
def Obligations.SubstTableCommandResults : Prop :=
  ∀ s : State,
    (s.phase = .single .substSpn → ∃ v : BitVec 32, exec .substSpn s = .next (singleDone (v.setWidth 64) s) ∧
      ∀ j, j < 8 → (v.extractLsb' (4 * j) 4).toNat =
        (s.cfg.val.spnSbox.get (s.opr.dinLo.extractLsb' (4 * j) 4).toFin).val) ∧
    (s.phase = .single .substSpnRev → ∃ v : BitVec 32, exec .substSpnRev s = .next (singleDone (v.setWidth 64) s) ∧
      ∀ j, j < 8 → (s.cfg.val.spnSbox.get (v.extractLsb' (4 * j) 4).toFin).val =
        (s.opr.dinLo.extractLsb' (4 * j) 4).toNat) ∧
    (s.phase = .single .substFei → ∃ v : BitVec 16, exec .substFei s = .next (singleDone (v.setWidth 64) s) ∧
      ∀ j, j < 4 → (v.extractLsb' (4 * j) 4).toNat =
        (s.cfg.val.feiSbox.get (s.opr.dinLo.extractLsb' (4 * j) 4).toFin).val) ∧
    (s.phase = .single .substFeiRev → ∃ v : BitVec 16, exec .substFeiRev s = .next (singleDone (v.setWidth 64) s) ∧
      ∀ j, j < 4 → (s.cfg.val.feiSbox.get (v.extractLsb' (4 * j) 4).toFin).val =
        (s.opr.dinLo.extractLsb' (4 * j) 4).toNat)

/-- 40_primitives.md R145: `substitute_des(x)` sends chunk `c_k = x[53-6k : 48-6k]` through `S_k`, outer bits the row, inner
bits the column, to bits `[35-4k : 32-4k]`; SUBST.DES completes with it on DIN[47:0] (R164). -/
def Obligations.SubstDesLooksUpEachChunk : Prop :=
  (∀ x : BitVec 48, (substituteDes x).toNat =
    ∑ k ∈ Finset.Icc 1 8,
      ((desSboxes.getD (k - 1) []).getD
          ((x.getLsbD (53 - 6 * k)).toNat * 2 + (x.getLsbD (48 - 6 * k)).toNat) []).getD
        (x.extractLsb' (49 - 6 * k) 4).toNat 0 * 2 ^ (32 - 4 * k)) ∧
  ∀ s : State, s.phase = .single .substDes →
    exec .substDes s = .next (singleDone ((substituteDes (s.opr.dinHi.setWidth 16 ++ s.opr.dinLo)).setWidth 64) s)

/-- 41_key_schedule.md R170, R171: KS.SPN and KS.FEI complete with the round key of index DIN[31:0]: bit k is bit
`(k + i) mod w` of the key, the rotation, XOR bit k of `i * 0x9E3779B9`; index 0 gives the key. -/
def Obligations.WordRoundKeyCommandResults : Prop :=
  ∀ s : State,
    (s.phase = .single .ksSpn → ∃ v : BitVec 32, exec .ksSpn s = .next (singleDone (v.setWidth 64) s) ∧
      (∀ k, k < 32 → v.getLsbD k =
        (s.opr.keyLo.getLsbD ((k + s.opr.dinLo.toNat) % 32) ^^ (s.opr.dinLo.toNat * 0x9E3779B9).testBit k)) ∧
      (s.opr.dinLo = 0 → v = s.opr.keyLo)) ∧
    (s.phase = .single .ksFei → ∃ v : BitVec 16, exec .ksFei s = .next (singleDone (v.setWidth 64) s) ∧
      (∀ k, k < 16 → v.getLsbD k =
        (s.opr.keyLo.getLsbD ((k + s.opr.dinLo.toNat) % 16) ^^ (s.opr.dinLo.toNat * 0x9E3779B9).testBit k)) ∧
      (s.opr.dinLo = 0 → v = s.opr.keyLo.setWidth 16))

/-- KS.DES (41_key_schedule.md R174 to R176, R182): with index i <= 15 it completes with the round key of round i + 1, of
which DES bit j is the bit of PC-1(KEY) that PC-2 names, after both 28-bit halves were rotated left by the shifts of
rounds 1 .. i + 1; at the accept an index above 15 raises BADARG, and ROUNDS is not read. -/
def Obligations.DesRoundKeyCommandResult : Prop :=
  ∀ s : State,
    (s.phase = .single .ksDes → s.opr.dinLo.toNat ≤ 15 →
      ∃ v : BitVec 48, exec .ksDes s = .next (singleDone (v.setWidth 64) s) ∧
        ∀ j, j < 48 →
          let p := desPc2.getD j 0
          let sh := ((List.range (s.opr.dinLo.toNat + 1)).map
            (fun r => if r + 1 = 1 ∨ r + 1 = 2 ∨ r + 1 = 9 ∨ r + 1 = 16 then 1 else 2)).sum
          let q := if p ≤ 28 then (p - 1 + sh) % 28 else 28 + (p - 29 + sh) % 28
          desBit v (j + 1) = desBit (s.opr.keyHi ++ s.opr.keyLo) (desPc1.getD q 0)) ∧
    (s.phase = .idle → s.status.fault = false → s.opr.dinLo.toNat ≤ 15 →
      exec .ksDes s = .next { s with status := clearedStatus s, phase := .single .ksDes }) ∧
    (s.phase = .idle → s.status.fault = false → s.opr.dinLo.toNat > 15 →
      exec .ksDes s = .next { s with status := raisedStatus .badArg s })

/-- 42_spn32.md R190, R191: BLK.ENC.SPN and BLK.DEC.SPN complete with the rounds 0 .. R-1 of "XOR the round key, substitute,
permute", and the rounds R-1 downto 0 of its inverse, on DIN[31:0] under KEY[31:0] with R = ROUNDS. -/
def Obligations.BlkSpnResults : Prop :=
  ∀ s : State,
    (s.phase = .single .blkEncSpn →
      exec .blkEncSpn s = .next (singleDone
        (((List.range s.opr.rounds.toNat).foldl
          (fun b r => permute (substitute (b ^^^ rkSpn s.opr.keyLo r) (sStraight s.cfg.val)) (pStraight s.cfg.val))
          s.opr.dinLo).setWidth 64) s)) ∧
    (s.phase = .single .blkDecSpn →
      exec .blkDecSpn s = .next (singleDone
        (((List.range s.opr.rounds.toNat).reverse.foldl
          (fun b r => substitute (permute b (pReverse s.cfg.val)) (sReverse s.cfg.val) ^^^ rkSpn s.opr.keyLo r)
          s.opr.dinLo).setWidth 64) s))

/-- 43_feistel32.md R210, R211, R212, R214: BLK.ENC.FEI and BLK.DEC.FEI complete with the rounds 0 .. R-1, and R-1 downto 0,
of `(L, H) <- (H, L XOR F_fei(H, rk_fei(K, r)))` on the halves of DIN[31:0] under KEY[15:0], L the high half, and the
terminal swap H ++ L; with R = 0 the halves are exchanged. -/
def Obligations.BlkFeiResults : Prop :=
  ∀ s : State,
    let F := fun (x k : BitVec 16) => permute (substitute (x ^^^ k) (sF s.cfg.val)) (pF s.cfg.val)
    let round := fun (p : BitVec 16 × BitVec 16) (r : Nat) => (p.2, p.1 ^^^ F p.2 (rkFei (s.opr.keyLo.setWidth 16) r))
    let start := (s.opr.dinLo.extractLsb' 16 16, s.opr.dinLo.extractLsb' 0 16)
    let up := (List.range s.opr.rounds.toNat).foldl round start
    let down := (List.range s.opr.rounds.toNat).reverse.foldl round start
    (s.phase = .single .blkEncFei → exec .blkEncFei s = .next (singleDone ((up.2 ++ up.1 : Word).setWidth 64) s)) ∧
    (s.phase = .single .blkDecFei → exec .blkDecFei s = .next (singleDone ((down.2 ++ down.1 : Word).setWidth 64) s)) ∧
    (s.opr.rounds = 0 → up.2 ++ up.1 = start.2 ++ start.1 ∧ down.2 ++ down.1 = start.2 ++ start.1)

/-- 44_des64.md R230, R231, R232: BLK.ENC.DES and BLK.DEC.DES complete with IP, the rounds 1 .. 16, and 16 downto 1, of
`(L, H) <- (H, L XOR f_des(H, rk_des(K, n)))`, tau and FP, on DIN under KEY. -/
def Obligations.BlkDesResults : Prop :=
  ∀ s : State,
    let f := fun (x : BitVec 32) (k : BitVec 48) =>
      permuteDes 32 (substituteDes (permuteDes 48 x desE ^^^ k)) desP
    let K := s.opr.keyHi ++ s.opr.keyLo
    let round := fun (p : BitVec 32 × BitVec 32) (n : Nat) => (p.2, p.1 ^^^ f p.2 (rkDes K n))
    let x := permuteDes 64 (s.opr.dinHi ++ s.opr.dinLo) desIp
    let start := (x.extractLsb' 32 32, x.extractLsb' 0 32)
    let rounds := [1, 2, 3, 4, 5, 6, 7, 8, 9, 10, 11, 12, 13, 14, 15, 16]
    let up := rounds.foldl round start
    let down := rounds.reverse.foldl round start
    (s.phase = .single .blkEncDes →
      exec .blkEncDes s = .next (singleDone (permuteDes 64 (up.2 ++ up.1) desFp) s)) ∧
    (s.phase = .single .blkDecDes →
      exec .blkDecDes s = .next (singleDone (permuteDes 64 (down.2 ++ down.1) desFp) s))

/-! ### The ciphers undo each other -/

/-- 42_spn32.md R192, R193, which the spec marks as derived: SPN-32 decryption and encryption undo each other for every
key and round count, and with zero rounds both are the identity. -/
def Obligations.SpnEncryptAndDecryptUndoEachOther : Prop :=
  ∀ (c : WfConfig) (b K : BitVec 32) (R : Nat),
    spnD c.val (spnE c.val b K R) K R = b ∧ spnE c.val (spnD c.val b K R) K R = b ∧
    spnE c.val b K 0 = b ∧ spnD c.val b K 0 = b

/-- 43_feistel32.md R213, which the spec marks as derived: Feistel-32 decryption undoes encryption for every configuration,
well-formed or not, and every key and round count; the same holds of the network with any round functions. -/
def Obligations.FeistelDecryptUndoesEncrypt : Prop :=
  (∀ (c : Config) (b : BitVec 32) (K : BitVec 16) (R : Nat),
    feiD c (feiE c b K R) K R = b ∧ feiE c (feiD c b K R) K R = b) ∧
  ∀ (F : Nat → BitVec 16 → BitVec 16) (R : Nat) (b : BitVec 32),
    feiJoin (feistelDown F R (feiSplit (feiJoin (feistelUp F R (feiSplit b))))) = b

/-- 44_des64.md R235, which the spec marks as derived: DES-64 decryption and encryption undo each other for every block and
key. -/
def Obligations.DesDecryptUndoesEncrypt : Prop :=
  ∀ b K : Block, desDecrypt (desEncrypt b K) K = b ∧ desEncrypt (desDecrypt b K) K = b

/-! ### What a command does not read -/

/-- The key bits that a cipher does not consume have no effect (10_state.md R37): under a master key that agrees on the bits
the command's cipher consumes, each event of the command is the same, but for KEY itself. A PERM or SUBST command reads
no key at all (10_state.md R38, which the spec marks as derived). -/
def Obligations.UnusedKeyBitsHaveNoEffect : Prop :=
  ∀ (i : Instr) (s t : State) (hi lo : Word),
    keysAgree (cipherOf i) (s.opr.keyHi ++ s.opr.keyLo) (hi ++ lo) ∨ ignoresKey i = true →
    exec i s = .next t → exec i (withKey hi lo s) = .next (withKey hi lo t)

/-- The DIN bits above a command's operand width have no effect and raise no error (30_encoding.md R116); PERM, SUBST and KS
commands ignore ROUNDS (10_state.md R40), and single-operation commands IV, SRC, DST and COUNT (10_state.md R39, R41). -/
def Obligations.UnreadOperandsHaveNoEffect : Prop :=
  ∀ (i : Instr) (s t : State), exec i s = .next t →
    (∀ hi lo : Word, (∀ b, b < dinWidth i → (hi ++ lo).getLsbD b = (s.opr.dinHi ++ s.opr.dinLo).getLsbD b) →
      exec i (withDin hi lo s) = .next (withDin hi lo t)) ∧
    (∀ r : Word, ignoresRounds i = true → exec i (withRounds r s) = .next (withRounds r t)) ∧
    ∀ ivHi ivLo src dst count : Word, isMode i = false →
      exec i (withBuffers ivHi ivLo src dst count s) = .next (withBuffers ivHi ivLo src dst count t)

/-! ### Engine steps of the mode commands -/

/-- 46_modes.md R301: with stage = RD and j < COUNT, every mode command's engine step reads block j, little-endian, at
SRC + j*bb into inblk and goes to stage WR; no register and no memory changes. -/
def Obligations.ModeReadStep : Prop :=
  ∀ (i : Instr) (s : State) (j : Nat) (ch : Block), isMode i = true → s.phase = .mode i ⟨j, .rd, ch⟩ →
    j < s.opr.count.toNat →
    s.opr.src.toNat + (j + 1) * (cipherOf i).blockBytes ≤ s.cfg.val.memSize →
    ∃ b : Block, exec i s = .next { s with phase := .mode i ⟨j, .wr b, ch⟩ } ∧
      b.toNat = ∑ k ∈ Finset.range (cipherOf i).blockBytes,
        (s.mem.readByte (s.opr.src.toNat + j * (cipherOf i).blockBytes + k)).toNat * 2 ^ (8 * k)

/-- The WR step of the six ECB commands (46_modes.md R302, R310 to R315): out = Enc_c(inblk) or Dec_c(inblk) is stored
little-endian at DST + j*bb, j counts up, the stage is RD again; every other byte and every register stays. -/
def Obligations.EcbWriteStep : Prop :=
  ∀ (i : Instr) (s : State) (j : Nat) (b ch : Block),
    modeOf i = some .ecb → s.phase = .mode i ⟨j, .wr b, ch⟩ → s.mem.wf = true →
    dstAddr (cipherOf i) s j + (cipherOf i).blockBytes ≤ s.cfg.val.memSize →
    ∃ (out : Block) (m : Memory),
      exec i s = .next { s with mem := m, phase := .mode i ⟨j + 1, .rd, ch⟩ } ∧
      out = (if dirOf i = .enc then encBlock (cipherOf i) s b else decBlock (cipherOf i) s b) ∧
      (∀ k, k < (cipherOf i).blockBytes →
        m.readByte (dstAddr (cipherOf i) s j + k) = out.extractLsb' (8 * k) 8) ∧
      ∀ a, a < dstAddr (cipherOf i) s j ∨ dstAddr (cipherOf i) s j + (cipherOf i).blockBytes ≤ a →
        m.readByte a = s.mem.readByte a

/-- The WR step of the six CBC commands (46_modes.md R302, R320 to R325): out = Enc_c(inblk XOR chain) with chain <- out,
or out = Dec_c(inblk) XOR chain with chain <- inblk, stored as in ECB. -/
def Obligations.CbcWriteStep : Prop :=
  ∀ (i : Instr) (s : State) (j : Nat) (b ch : Block),
    modeOf i = some .cbc → s.phase = .mode i ⟨j, .wr b, ch⟩ → s.mem.wf = true →
    dstAddr (cipherOf i) s j + (cipherOf i).blockBytes ≤ s.cfg.val.memSize →
    ∃ (out ch' : Block) (m : Memory),
      exec i s = .next { s with mem := m, phase := .mode i ⟨j + 1, .rd, ch'⟩ } ∧
      (dirOf i = .enc → out = encBlock (cipherOf i) s (b ^^^ ch) ∧ ch' = out) ∧
      (dirOf i = .dec → out = decBlock (cipherOf i) s b ^^^ ch ∧ ch' = b) ∧
      (∀ k, k < (cipherOf i).blockBytes →
        m.readByte (dstAddr (cipherOf i) s j + k) = out.extractLsb' (8 * k) 8) ∧
      ∀ a, a < dstAddr (cipherOf i) s j ∨ dstAddr (cipherOf i) s j + (cipherOf i).blockBytes ≤ a →
        m.readByte a = s.mem.readByte a

/-- The WR step of the six CFB commands (46_modes.md R302, R330 to R335): out = inblk XOR Enc_c(chain) in both directions,
with chain <- out on encryption and chain <- inblk on decryption, stored as in ECB. -/
def Obligations.CfbWriteStep : Prop :=
  ∀ (i : Instr) (s : State) (j : Nat) (b ch : Block),
    modeOf i = some .cfb → s.phase = .mode i ⟨j, .wr b, ch⟩ → s.mem.wf = true →
    dstAddr (cipherOf i) s j + (cipherOf i).blockBytes ≤ s.cfg.val.memSize →
    ∃ (out ch' : Block) (m : Memory),
      exec i s = .next { s with mem := m, phase := .mode i ⟨j + 1, .rd, ch'⟩ } ∧
      out = b ^^^ encBlock (cipherOf i) s ch ∧
      (dirOf i = .enc → ch' = out) ∧ (dirOf i = .dec → ch' = b) ∧
      (∀ k, k < (cipherOf i).blockBytes →
        m.readByte (dstAddr (cipherOf i) s j + k) = out.extractLsb' (8 * k) 8) ∧
      ∀ a, a < dstAddr (cipherOf i) s j ∨ dstAddr (cipherOf i) s j + (cipherOf i).blockBytes ≤ a →
        m.readByte a = s.mem.readByte a

/-- The complete step of a mode command (46_modes.md R302): with stage = RD and j = COUNT the engine step sets DONE and goes
to IDLE; DOUT, IV, SRC, DST, COUNT, the memory and everything else stay. -/
def Obligations.ModeCompleteStep : Prop :=
  ∀ (i : Instr) (s : State) (j : Nat) (ch : Block), isMode i = true → s.phase = .mode i ⟨j, .rd, ch⟩ →
    j = s.opr.count.toNat →
    exec i s = .next (modeDone s) ∧ (statusWord (modeDone s)).getLsbD 0 = false ∧
      (statusWord (modeDone s)).getLsbD 1 = true

/-- 46_modes.md R303: a mode command with COUNT = 0 is accepted whatever SRC and DST hold, its first engine step is the
complete step, the memory is untouched and DONE is set; the DES round-count check still applies. -/
def Obligations.EmptyBufferCompletesAtOnce : Prop :=
  ∀ (i : Instr) (s : State), isMode i = true → s.opr.count.toNat = 0 → s.phase = .idle → s.status.fault = false →
    (cipherOf i ≠ .des ∨ s.opr.rounds.toNat = 16 →
      ∃ t, exec i s = .next t ∧ t.busy = true ∧
        engineStep t = .next { s with status := { clearedStatus s with done := true } }) ∧
    (cipherOf i = .des → s.opr.rounds.toNat ≠ 16 → exec i s = .next { s with status := raisedStatus .desRounds s })

/-! ### Whole mode commands -/

/-- A mode command accepted without error in a safe state stays BUSY for 2*COUNT engine steps and completes with the next
one (20_memory.md R92, 70_reset_and_hazards.md R404): DONE is set, every register and every byte outside the output
buffer is as it was. -/
def Obligations.ModeCommandRunsToCompletion : Prop :=
  ∀ (i : Instr) (s : State), s.Inv → isMode i = true → s.phase = .idle → s.status.fault = false →
    acceptError i s = none →
    ∃ t u, exec i s = .next t ∧
      (∀ n, n ≤ 2 * s.opr.count.toNat → ∃ v, engineSteps n t = .next v ∧ v.busy = true) ∧
      engineSteps (2 * s.opr.count.toNat + 1) t = .next u ∧
      u = { s with mem := u.mem, status := { clearedStatus s with done := true } } ∧
      ∀ a, (∀ j, j < s.opr.count.toNat →
          a < dstAddr (cipherOf i) s j ∨ dstAddr (cipherOf i) s j + (cipherOf i).blockBytes ≤ a) →
        u.mem.readByte a = s.mem.readByte a

/-- The functional meaning of a mode command (46_modes.md R300): when no output block overlaps an input block that is read
later, and the host stays away, memory holds out_j at DST + j*bb for every j after the command, for the inputs as they
stood at the accept. -/
def Obligations.ModeResultIsTheFunctionalDefinition : Prop :=
  ∀ (i : Instr) (m : Mode) (s : State), s.Inv → modeOf i = some m → s.phase = .idle → s.status.fault = false →
    acceptError i s = none → noForwardOverlap (cipherOf i) s →
    ∃ t u, exec i s = .next t ∧ engineSteps (2 * s.opr.count.toNat + 1) t = .next u ∧ u.busy = false ∧
      ∀ j, j < s.opr.count.toNat →
        some (BitVec.ofNat 64 (u.mem.readBytes (dstAddr (cipherOf i) s j) (cipherOf i).blockBytes)) =
          (modeOutputs m (dirOf i) (encBlock (cipherOf i) s) (decBlock (cipherOf i) s)
            ((cipherOf i).trunc (iv s)) (inputBlocks (cipherOf i) s))[j]?

/-- Mode round trip on lists of blocks (46_modes.md R305, which the spec marks as derived): for every mode, cipher, key,
round count and IV of the block width, decryption of the encrypted blocks gives the blocks back. -/
def Obligations.ModeDecryptUndoesEncrypt : Prop :=
  ∀ (m : Mode) (c : Cipher) (s : State) (chain : Block) (xs : List Block),
    c.fits chain → (∀ x ∈ xs, c.fits x) →
    modeOutputs m .dec (encBlock c s) (decBlock c s) chain
      (modeOutputs m .enc (encBlock c s) (decBlock c s) chain xs) = xs

/-- The machine's round trip in place (46_modes.md R305, which the spec marks as derived, 20_memory.md R87): with SRC = DST, an encryption command run to its
end, and then the decryption command of the same mode and cipher run to its end, give the very state back, but for
STATUS, which says DONE. -/
def Obligations.InPlaceDecryptRestoresTheBuffer : Prop :=
  ∀ (e d : Instr) (s : State), s.Inv → isMode e = true → modeOf d = modeOf e → cipherOf d = cipherOf e →
    dirOf e = .enc → dirOf d = .dec → s.phase = .idle → s.status.fault = false → acceptError e s = none →
    s.opr.src = s.opr.dst →
    ∃ t u t' u', exec e s = .next t ∧ engineSteps (2 * s.opr.count.toNat + 1) t = .next u ∧
      exec d u = .next t' ∧ engineSteps (2 * s.opr.count.toNat + 1) t' = .next u' ∧
      u' = { s with status := { clearedStatus s with done := true } }

/-- 46_modes.md R306: CFB never uses the decryption function, so its round trip holds for any forward function at all,
whatever stands for the other one. -/
def Obligations.CfbRoundTripNeedsNoInverse : Prop :=
  ∀ (enc dec dec' : Block → Block) (chain : Block) (xs : List Block),
    modeOutputs .cfb .dec enc dec chain (modeOutputs .cfb .enc enc dec' chain xs) = xs ∧
    modeOutputs .cfb .dec enc dec chain xs = modeOutputs .cfb .dec enc dec' chain xs ∧
    modeOutputs .cfb .enc enc dec chain xs = modeOutputs .cfb .enc enc dec' chain xs

/-- Error propagation and ECB determinism (46_modes.md R304, R308, which the spec marks as derived): in ECB equal input
blocks give equal output blocks; when two inputs of one length differ in block j alone, the ECB outputs differ in block j
alone, the CBC and CFB decryptions in block j, in block j + 1 where there is one, and in no other, and the CBC and CFB
encryptions in no block before j and in every block from j on. -/
def Obligations.ErrorPropagation : Prop :=
  ∀ (c : Cipher) (s : State) (chain : Block) (xs ys : List Block) (j : Nat),
    (∀ x ∈ xs, c.fits x) → (∀ y ∈ ys, c.fits y) → c.fits chain → xs.length = ys.length → j < xs.length →
    xs[j]? ≠ ys[j]? → (∀ k, k ≠ j → xs[k]? = ys[k]?) →
    let run := fun (m : Mode) (d : Dir) (l : List Block) => modeOutputs m d (encBlock c s) (decBlock c s) chain l
    (∀ (d : Dir) (k k' : Nat), xs[k]? = xs[k']? → (run .ecb d xs)[k]? = (run .ecb d xs)[k']?) ∧
    (∀ (d : Dir) (k : Nat), (run .ecb d xs)[k]? = (run .ecb d ys)[k]? ↔ k ≠ j) ∧
    (∀ m ∈ ([.cbc, .cfb] : List Mode),
      (∀ k, k ≠ j → k ≠ j + 1 → (run m .dec xs)[k]? = (run m .dec ys)[k]?) ∧
      (run m .dec xs)[j]? ≠ (run m .dec ys)[j]? ∧
      (j + 1 < xs.length → (run m .dec xs)[j + 1]? ≠ (run m .dec ys)[j + 1]?) ∧
      ∀ k, k < xs.length → ((run m .enc xs)[k]? = (run m .enc ys)[k]? ↔ k < j))

/-! ### Frames of the commands -/

/-- The frame of the 24 single-operation commands, at every event they make: memory, operand registers, IRQEN and
everything that is not the engine's stay; while the command runs itself only DOUT, DONE and the phase change; at the
accept DOUT stays, WOVR stays, and FAULT changes only as the fatal error sets it. -/
def Obligations.SingleCommandFrame : Prop :=
  ∀ (i : Instr) (s t : State), isMode i = false → exec i s = .next t →
    t.mem = s.mem ∧ t.opr = s.opr ∧ t.irqen = s.irqen ∧ t.cfg = s.cfg ∧
    (t.host = s.host ∧ t.trace = s.trace ∧ t.schedule = s.schedule) ∧
    (s.phase = .single i → t.status = { s.status with done := true } ∧ t.phase = .idle) ∧
    (s.phase ≠ .single i → t.doutLo = s.doutLo ∧ t.doutHi = s.doutHi) ∧
    (s.phase = .idle → t.status.wovr = s.status.wovr ∧
      (t.status.fault ≠ s.status.fault → isDesCipher i = true ∧ s.opr.rounds.toNat ≠ 16) ∧
      (t.phase = .idle ∨ t.phase = .single i)) ∧
    (s.phase ≠ .idle → s.phase ≠ .single i → t = { s with status := { s.status with wovr := true } })

/-- The frame of the 18 mode commands, at every event they make: DOUT, operand registers (IV, SRC, DST and COUNT among them),
IRQEN and everything that is not the engine's stay; while the command runs itself STATUS changes in DONE alone; every byte
of memory stays but the block that a WR step stores at DST + j*bb. -/
def Obligations.ModeCommandFrame : Prop :=
  ∀ (i : Instr) (s t : State), isMode i = true → s.mem.wf = true → exec i s = .next t →
    t.doutLo = s.doutLo ∧ t.doutHi = s.doutHi ∧ t.opr = s.opr ∧ t.irqen = s.irqen ∧ t.cfg = s.cfg ∧
    (t.host = s.host ∧ t.trace = s.trace ∧ t.schedule = s.schedule) ∧
    (∀ ms, s.phase = .mode i ms →
      t.status = s.status ∨ t.status = { s.status with done := true } ∧ t.phase = .idle) ∧
    (∀ a, (∀ j b ch, s.phase = .mode i ⟨j, .wr b, ch⟩ →
        a < dstAddr (cipherOf i) s j ∨ dstAddr (cipherOf i) s j + (cipherOf i).blockBytes ≤ a) →
      t.mem.readByte a = s.mem.readByte a) ∧
    (s.phase = .idle → t.mem = s.mem ∧ t.status.wovr = s.status.wovr ∧
      (t.status.fault ≠ s.status.fault → isDesCipher i = true ∧ s.opr.rounds.toNat ≠ 16)) ∧
    (s.phase ≠ .idle → (∀ ms, s.phase ≠ .mode i ms) → t = { s with status := { s.status with wovr := true } })

/-! ### Registers -/

/-- STATUS as the host reads it, bit by bit, and a write to it, never ignored: it clears DONE, ERR with ERRCODE, and WOVR
where bits 1, 2 and 4 are written as 1, and changes nothing else (10_state.md R34). The codes have the numbers of
60_exceptions.md R361. -/
def Obligations.StatusReadsAndClears : Prop :=
  (ErrCode.none.code = 0 ∧ ErrCode.illegalCmd.code = 1 ∧ ErrCode.desRounds.code = 2 ∧ ErrCode.align.code = 3 ∧
    ErrCode.range.code = 4 ∧ ErrCode.badArg.code = 5) ∧
  ∀ (s : State) (v : Word),
    (∀ k, k < 32 → (readReg 0x04 s).getLsbD k =
      if k = 0 then s.busy else if k = 1 then s.status.done else if k = 2 then s.status.err
      else if k = 3 then s.status.fault else if k = 4 then s.status.wovr
      else if 8 ≤ k ∧ k ≤ 11 then s.status.errCode.code.getLsbD (k - 8) else false) ∧
    (s.busy = true ↔ s.phase ≠ .idle) ∧
    ∃ st : Status, regWrite 0x04 v s = .next { s with status := st } ∧
      st.done = (if v.getLsbD 1 then false else s.status.done) ∧
      st.err = (if v.getLsbD 2 then false else s.status.err) ∧
      st.errCode = (if v.getLsbD 2 then .none else s.status.errCode) ∧
      st.wovr = (if v.getLsbD 4 then false else s.status.wovr) ∧
      st.fault = s.status.fault

/-- 10_state.md R35, 60_exceptions.md R370: IRQEN holds DONE_IE and ERR_IE, reads zero above them, ignores writes above them,
is writable in every state and resets to 0; `irq` is the Boolean of the state that the rules give. -/
def Obligations.IrqEnableAndOutput : Prop :=
  (∀ (s : State) (v : Word),
    (∀ k, k < 32 → (readReg 0x08 s).getLsbD k =
      if k = 0 then s.irqen.doneIe else if k = 1 then s.irqen.errIe else false) ∧
    regWrite 0x08 v s = .next { s with irqen := ⟨v.getLsbD 0, v.getLsbD 1⟩ } ∧
    (irq s = true ↔ (s.status.done = true ∧ s.irqen.doneIe = true) ∨ (s.status.err = true ∧ s.irqen.errIe = true))) ∧
  State.reset.irqen = ⟨false, false⟩

/-- 10_state.md R44: while BUSY a write to CMD or to an operand register is ignored and sets WOVR; writes to STATUS and IRQEN
are not frozen; while not BUSY an operand register takes the value at once. Every operand thus holds, at each step of a
running command, the value it had at the accept: no step but reset changes an operand register while BUSY. -/
def Obligations.OperandsAreFrozenWhileBusy : Prop :=
  (∀ (s : State) (r : Reg) (v : Word), s.busy = true → s.status.fault = false → r = .cmd ∨ r ∈ operandRegs →
    regWrite (regOffset r) v s = .next { s with status := { s.status with wovr := true } }) ∧
  (∀ (s : State) (v : Word), s.busy = true →
    regWrite (regOffset .status) v s = .next (s.writeStatus v) ∧
    regWrite (regOffset .irqen) v s = .next { s with irqen := ⟨v.getLsbD 0, v.getLsbD 1⟩ }) ∧
  (∀ (s : State) (r : Reg) (v : Word), s.busy = false → r ∈ operandRegs →
    ∃ t, regWrite (regOffset r) v s = .next t ∧ t = { s with opr := s.opr.set r v } ∧ regValue r t = v) ∧
  ∀ s t : State, s.busy = true → step s = .next t → s.schedule.head? ≠ some .platform → t.opr = s.opr

/-- Every offset that names no register reads 0 and ignores writes without WOVR, and so does a write to DOUT; an access that
is not an aligned 32-bit one is refused, and a bus access is the access at its offset from REG_BASE (10_state.md R32,
R33; log 13, log 18; the address is taken modulo 2^32, log 21). -/
def Obligations.ReservedOffsetsAndAccessForms : Prop :=
  (∀ (s : State) (off : BitVec 8) (v : Word), off.toNat % 4 = 0 → (∀ r, off ≠ regOffset r) →
    regWrite off v s = .next s ∧ regRead off s = .next { s with trace := .reg off 0 :: s.trace }) ∧
  (∀ (s : State) (v : Word), regWrite 0x38 v s = .next s ∧ regWrite 0x3C v s = .next s) ∧
  (∀ (s : State) (off : BitVec 8) (v : Word), off.toNat % 4 ≠ 0 →
    regWrite off v s = .refused .registerAccessForm ∧ regRead off s = .refused .registerAccessForm) ∧
  ∀ (s : State) (off : BitVec 8) (n : Nat) (v : Word),
    let addr := s.cfg.val.regBase + off.setWidth 32
    busWrite addr 4 v s = regWrite off v s ∧ busRead addr 4 s = regRead off s ∧
    (n ≠ 4 → busWrite addr n v s = .refused .registerAccessForm ∧ busRead addr n s = .refused .registerAccessForm)

/-- 10_state.md R46: a host read of a defined register returns its current value, reserved bits 0, CMD 0, and has no side
effect: nothing but the host's own record of what it read changes. -/
def Obligations.ReadsReturnTheValueWithoutSideEffect : Prop :=
  ∀ (s : State) (r : Reg),
    regRead (regOffset r) s = .next { s with trace := .reg (regOffset r) (regValue r s) :: s.trace } ∧
    regValue .cmd s = 0 ∧
    (∀ k, 5 ≤ k → k < 8 ∨ 12 ≤ k → (regValue .status s).getLsbD k = false) ∧
    (∀ k, 2 ≤ k → (regValue .irqen s).getLsbD k = false)

/-! ### Rules of the whole machine -/

/-- 70_reset_and_hazards.md R393: reset is the only event that clears FAULT, and after it the engine accepts commands. -/
def Obligations.FaultIsClearedByResetAlone : Prop :=
  (∀ s t : State, step s = .next t → s.status.fault = true → t.status.fault = false →
    s.schedule.head? = some .platform) ∧
  ∀ (s : State) (sched : List Agent), s.schedule = .platform :: sched →
    ∃ t, step s = .next t ∧ t.status.fault = false ∧ t.phase = .idle ∧
      ∀ i, acceptError i t = none →
        regWrite 0x00 (encode i) t = .next { t with status := clearedStatus t, phase := runPhase i t }

/-- 10_state.md R51: the configuration tables are constants: no step changes them, whatever event it is, and neither does
reset. -/
def Obligations.ConfigurationNeverChanges : Prop :=
  (∀ s t : State, step s = .next t → t.cfg = s.cfg) ∧ ∀ s : State, s.resetEvent.cfg = s.cfg

/-- 10_state.md R43: DOUT changes only at the complete step of a single-operation command, which sets DONE, and at reset. -/
def Obligations.DoutIsWrittenByCompletionAlone : Prop :=
  ∀ s t : State, step s = .next t → (t.doutLo, t.doutHi) ≠ (s.doutLo, s.doutHi) →
    s.schedule.head? = some .platform ∨
      ∃ (i : Instr) (v : Block), s.phase = .single i ∧ isMode i = false ∧ t.phase = .idle ∧ t.status.done = true ∧
        t = singleDone v { s with schedule := t.schedule }

/-- Memory changes only at the WR step of a running mode command and at a host memory write (20_memory.md R80, R90,
60_exceptions.md R378): no other event of any agent changes it, reset among them. The WR step is the engine's turn of that
command, and every byte outside the block that it stores at DST + j*bb reads as before; the host's write is the host's
turn, inside MEM_SIZE, and every byte outside the ones that it names reads as before. Whose turn it is, is the schedule's
(log 4). -/
def Obligations.MemoryIsWrittenByTwoEventsAlone : Prop :=
  ∀ s t : State, s.mem.wf = true → step s = .next t → t.mem ≠ s.mem →
    (∃ (i : Instr) (ms : ModeState) (b : Block), turnOf s = .engine ∧
      s.phase = .mode i ms ∧ ms.stage = .wr b ∧ isMode i = true ∧
      exec i { s with schedule := t.schedule } = .next t ∧
      ∀ a, a < dstAddr (cipherOf i) s ms.j ∨ dstAddr (cipherOf i) s ms.j + (cipherOf i).blockBytes ≤ a →
        t.mem.readByte a = s.mem.readByte a) ∨
      ∃ (a : Word) (bytes : List Byte) (rest : List HostOp), turnOf s = .host ∧
        s.host = .memWrite a bytes :: rest ∧ a.toNat + bytes.length ≤ s.cfg.val.memSize ∧
        t = { s with mem := t.mem, host := rest, schedule := t.schedule } ∧
        (∀ k, k < bytes.length → bytes[k]? = some (t.mem.readByte (a.toNat + k))) ∧
        ∀ x, x < a.toNat ∨ a.toNat + bytes.length ≤ x → t.mem.readByte x = s.mem.readByte x

/-- The life of a command (10_state.md R47): STATUS.BUSY reads 1 exactly in RUN; RUN is entered only by an accept without
error, at the host's turn, where the host's next event is the write of the command's word to CMD (by its offset, or at the
host address REG_BASE), and the accept holds the command and its mode state; the running command stays the same until the
engine goes to IDLE, by its complete step, which sets DONE, or by reset. In IDLE the engine starts nothing by itself: its
turn changes nothing but the schedule (60_exceptions.md R378; log 4, log 5). -/
def Obligations.CommandLifeCycle : Prop :=
  (∀ s : State, (statusWord s).getLsbD 0 = true ↔ s.phase ≠ .idle) ∧
  (∀ s : State, s.phase = .idle →
    engineStep s = .next s ∧
      ∀ sched, s.schedule = .engine :: sched → step s = .next { s with schedule := sched }) ∧
  ∀ s t : State, step s = .next t →
    (s.phase = .idle → t.phase ≠ .idle →
      ∃ (i : Instr) (op : HostOp) (rest : List HostOp), turnOf s = .host ∧ s.host = op :: rest ∧
        (op = .regWrite 0x00 (encode i) ∨ op = .busWrite s.cfg.val.regBase 4 (encode i)) ∧
        acceptError i s = none ∧ s.status.fault = false ∧
        t = { s with status := clearedStatus s, phase := runPhase i s, host := rest, schedule := t.schedule }) ∧
    (∀ i, runningCommand s = some i →
      runningCommand t = some i ∨
        (t.phase = .idle ∧ (t.status = { s.status with done := true } ∨ s.schedule.head? = some .platform)))

/-- The invariant of a safe machine holds of the state after reset, and of the machine of every configuration with a
canonical launch memory inside MEM_SIZE. -/
def Obligations.ResetStateIsSafe : Prop :=
  State.reset.Inv ∧
  ∀ (c : WfConfig) (m : Memory), m.wf = true → m.below c.val.memSize = true → (State.initial c m).Inv

/-- From every state that meets the invariant, every step that answers a next state leads to one that meets it. -/
def Obligations.StepKeepsTheInvariant : Prop :=
  ∀ s t : State, s.Inv → step s = .next t → t.Inv

/-- 60_exceptions.md R366: no run-time exception exists: in a safe state the engine's step never faults and never refuses,
and each command answers a next state at every event it makes. -/
def Obligations.NoRunTimeException : Prop :=
  ∀ s : State, s.Inv → (∃ t, engineStep s = .next t) ∧ ∀ i, ∃ t, exec i s = .next t

/-- Progress (70_reset_and_hazards.md R404): an accept without error leaves 1 engine step for a single-operation command
and 2*COUNT + 1 for a mode command; each engine step of a running command uses up exactly one, and the last one, and no
other, ends the command with DONE. -/
def Obligations.EngineStepsCountDown : Prop :=
  (∀ (i : Instr) (s t : State), s.phase = .idle → s.status.fault = false → acceptError i s = none →
    exec i s = .next t → stepsLeft t = if isMode i = true then 2 * s.opr.count.toNat + 1 else 1) ∧
  ∀ s t : State, s.Inv → s.busy = true → engineStep s = .next t →
    stepsLeft s = stepsLeft t + 1 ∧ (t.busy = false ↔ stepsLeft s = 1) ∧ (t.busy = false → t.status.done = true)

/-- No command reads a flag (10_state.md R45): what an engine step does is the same under any STATUS flags and any IRQEN; it
sets DONE when it completes and leaves every other flag as it finds it. -/
def Obligations.EngineStepsReadNoFlag : Prop :=
  ∀ (s t : State) (st : Status) (ie : IrqEnable), s.Inv → s.busy = true → engineStep s = .next t →
    engineStep { s with status := st, irqen := ie } =
      .next { t with
        status := if t.busy = true then st else { st with done := true }
        irqen := ie }

/-- 70_reset_and_hazards.md R390, R391: reset gives every register and field its reset value and IDLE, with no engine step of
the running command left, and leaves the data memory and the configuration as they are. -/
def Obligations.ResetClearsTheEngine : Prop :=
  (∀ (s : State) (sched : List Agent), s.schedule = .platform :: sched →
    ∃ t, step s = .next t ∧
      (∀ r, regValue r t = 0) ∧ t.status = ⟨false, false, false, false, .none⟩ ∧ t.irqen = ⟨false, false⟩ ∧
      irq t = false ∧ t.phase = .idle ∧ stepsLeft t = 0 ∧ t.mem = s.mem ∧ t.cfg = s.cfg) ∧
  (∀ r, regValue r State.reset = 0) ∧ State.reset.phase = .idle

/-! ### Memory and the host -/

/-- 20_memory.md R84: `MemRead(a, n)` is the sum of `mem[a + k] * 2^(8k)`, `MemWrite(a, n, v)` stores byte `v[8k+7 : 8k]` at
a + k and nothing elsewhere, and a read after a write gives the value, cut to n bytes. The host's accesses (R88, R90): a
write of a list of bytes stores byte k of it at a + k and nothing elsewhere, a read returns the bytes at a + k, changes
no memory and is recorded, and both complete where their bytes exist. That a host access is a list of any number of bytes
in one event is the model's choice (log 11). -/
def Obligations.MemoryIsLittleEndian : Prop :=
  (∀ (m : Memory) (a n v : Nat), m.wf = true →
    m.readBytes a n = ∑ k ∈ Finset.range n, (m.readByte (a + k)).toNat * 2 ^ (8 * k) ∧
    (∀ k, k < n → ((m.writeBytes a n v).readByte (a + k)).toNat = v / 2 ^ (8 * k) % 256) ∧
    (∀ x, x < a ∨ a + n ≤ x → (m.writeBytes a n v).readByte x = m.readByte x) ∧
    (m.writeBytes a n v).readBytes a n = v % 2 ^ (8 * n) ∧ (m.writeBytes a n v).wf = true) ∧
  (∀ (s : State) (a : Word) (bytes : List Byte), s.mem.wf = true → a.toNat + bytes.length ≤ s.cfg.val.memSize →
    ∃ m : Memory, hostMemWrite a bytes s = .next { s with mem := m } ∧ m.wf = true ∧
      (∀ k, k < bytes.length → bytes[k]? = some (m.readByte (a.toNat + k))) ∧
      ∀ x, x < a.toNat ∨ a.toNat + bytes.length ≤ x → m.readByte x = s.mem.readByte x) ∧
  ∀ (s : State) (a : Word) (n : Nat), a.toNat + n ≤ s.cfg.val.memSize →
    ∃ bytes : List Byte, hostMemRead a n s = .next { s with trace := .mem a bytes :: s.trace } ∧ bytes.length = n ∧
      ∀ k, k < n → bytes[k]? = some (s.mem.readByte (a.toNat + k))

/-- Every command that a host runs ends (30_encoding.md R121, 70_reset_and_hazards.md R404, R406): from a safe IDLE state
whose host comes to `run MNEMONIC`, the machine, the engine moving first (log 4), reaches after finitely many steps the
rest of the host's program, IDLE again, with exactly one of DONE and ERR set unless FAULT was set before. -/
def Obligations.RunStatementEnds : Prop :=
  ∀ (s : State) (i : Instr) (rest : List HostOp), s.Inv → s.phase = .idle → s.schedule = [] →
    s.host = expandStmt (.run i) ++ rest →
    ∃ (n : Nat) (t : State), Host.Core.run Sys2Proof.core n s = .next t ∧ t.host = rest ∧ t.phase = .idle ∧
      (s.status.fault = false → (t.status.done = true ↔ t.status.err = false)) ∧
      (s.status.fault = true → t.status = s.status ∧ t.mem = s.mem)

/-- 00_scope.md R8: a configuration is refused at construction when one of its four tables is no bijection on its index
range; one whose tables are bijections and whose MEM_SIZE is a natural number of 1 .. 2^32 is not refused. -/
def Obligations.IllFormedConfigurationIsRefused : Prop :=
  ∀ (c : Config) (p : Program),
    let bijections := Function.Bijective c.spnSbox.get ∧ Function.Bijective c.spnPbox.get ∧
      Function.Bijective c.feiSbox.get ∧ Function.Bijective c.feiPbox.get
    (¬bijections → launch c p = .refused .illFormedConfiguration) ∧
    (bijections → 1 ≤ c.memSize → c.memSize ≤ 2 ^ 32 → ∀ r, launch c p ≠ .refused r)

end Statements
end

