-- ==== Sys2Proof/Laws/State.lean ====
section
/-! SUPPORT. What each update of the state leaves in each field, by definition. -/

namespace Sys2Proof.Machine

@[simp] theorem State.withStatus_cfg (s : State) (x : Status) : (s.withStatus x).cfg = s.cfg := rfl
@[simp] theorem State.withStatus_status (s : State) (x : Status) : (s.withStatus x).status = x := rfl
@[simp] theorem State.withStatus_irqen (s : State) (x : Status) : (s.withStatus x).irqen = s.irqen := rfl
@[simp] theorem State.withStatus_opr (s : State) (x : Status) : (s.withStatus x).opr = s.opr := rfl
@[simp] theorem State.withStatus_doutLo (s : State) (x : Status) : (s.withStatus x).doutLo = s.doutLo := rfl
@[simp] theorem State.withStatus_doutHi (s : State) (x : Status) : (s.withStatus x).doutHi = s.doutHi := rfl
@[simp] theorem State.withStatus_phase (s : State) (x : Status) : (s.withStatus x).phase = s.phase := rfl
@[simp] theorem State.withStatus_mem (s : State) (x : Status) : (s.withStatus x).mem = s.mem := rfl
@[simp] theorem State.withStatus_host (s : State) (x : Status) : (s.withStatus x).host = s.host := rfl
@[simp] theorem State.withStatus_trace (s : State) (x : Status) : (s.withStatus x).trace = s.trace := rfl
@[simp] theorem State.withStatus_schedule (s : State) (x : Status) : (s.withStatus x).schedule = s.schedule := rfl

@[simp] theorem State.withIrqen_cfg (s : State) (x : IrqEnable) : (s.withIrqen x).cfg = s.cfg := rfl
@[simp] theorem State.withIrqen_status (s : State) (x : IrqEnable) : (s.withIrqen x).status = s.status := rfl
@[simp] theorem State.withIrqen_irqen (s : State) (x : IrqEnable) : (s.withIrqen x).irqen = x := rfl
@[simp] theorem State.withIrqen_opr (s : State) (x : IrqEnable) : (s.withIrqen x).opr = s.opr := rfl
@[simp] theorem State.withIrqen_doutLo (s : State) (x : IrqEnable) : (s.withIrqen x).doutLo = s.doutLo := rfl
@[simp] theorem State.withIrqen_doutHi (s : State) (x : IrqEnable) : (s.withIrqen x).doutHi = s.doutHi := rfl
@[simp] theorem State.withIrqen_phase (s : State) (x : IrqEnable) : (s.withIrqen x).phase = s.phase := rfl
@[simp] theorem State.withIrqen_mem (s : State) (x : IrqEnable) : (s.withIrqen x).mem = s.mem := rfl
@[simp] theorem State.withIrqen_host (s : State) (x : IrqEnable) : (s.withIrqen x).host = s.host := rfl
@[simp] theorem State.withIrqen_trace (s : State) (x : IrqEnable) : (s.withIrqen x).trace = s.trace := rfl
@[simp] theorem State.withIrqen_schedule (s : State) (x : IrqEnable) : (s.withIrqen x).schedule = s.schedule := rfl

@[simp] theorem State.withOpr_cfg (s : State) (x : Operands) : (s.withOpr x).cfg = s.cfg := rfl
@[simp] theorem State.withOpr_status (s : State) (x : Operands) : (s.withOpr x).status = s.status := rfl
@[simp] theorem State.withOpr_irqen (s : State) (x : Operands) : (s.withOpr x).irqen = s.irqen := rfl
@[simp] theorem State.withOpr_opr (s : State) (x : Operands) : (s.withOpr x).opr = x := rfl
@[simp] theorem State.withOpr_doutLo (s : State) (x : Operands) : (s.withOpr x).doutLo = s.doutLo := rfl
@[simp] theorem State.withOpr_doutHi (s : State) (x : Operands) : (s.withOpr x).doutHi = s.doutHi := rfl
@[simp] theorem State.withOpr_phase (s : State) (x : Operands) : (s.withOpr x).phase = s.phase := rfl
@[simp] theorem State.withOpr_mem (s : State) (x : Operands) : (s.withOpr x).mem = s.mem := rfl
@[simp] theorem State.withOpr_host (s : State) (x : Operands) : (s.withOpr x).host = s.host := rfl
@[simp] theorem State.withOpr_trace (s : State) (x : Operands) : (s.withOpr x).trace = s.trace := rfl
@[simp] theorem State.withOpr_schedule (s : State) (x : Operands) : (s.withOpr x).schedule = s.schedule := rfl

@[simp] theorem State.withDout_cfg (s : State) (v : Block) : (s.withDout v).cfg = s.cfg := rfl
@[simp] theorem State.withDout_status (s : State) (v : Block) : (s.withDout v).status = s.status := rfl
@[simp] theorem State.withDout_irqen (s : State) (v : Block) : (s.withDout v).irqen = s.irqen := rfl
@[simp] theorem State.withDout_opr (s : State) (v : Block) : (s.withDout v).opr = s.opr := rfl
@[simp] theorem State.withDout_doutLo (s : State) (v : Block) : (s.withDout v).doutLo = v.extractLsb' 0 32 := rfl
@[simp] theorem State.withDout_doutHi (s : State) (v : Block) : (s.withDout v).doutHi = v.extractLsb' 32 32 := rfl
@[simp] theorem State.withDout_phase (s : State) (v : Block) : (s.withDout v).phase = s.phase := rfl
@[simp] theorem State.withDout_mem (s : State) (v : Block) : (s.withDout v).mem = s.mem := rfl
@[simp] theorem State.withDout_host (s : State) (v : Block) : (s.withDout v).host = s.host := rfl
@[simp] theorem State.withDout_trace (s : State) (v : Block) : (s.withDout v).trace = s.trace := rfl
@[simp] theorem State.withDout_schedule (s : State) (v : Block) : (s.withDout v).schedule = s.schedule := rfl

@[simp] theorem State.withPhase_cfg (s : State) (x : Phase) : (s.withPhase x).cfg = s.cfg := rfl
@[simp] theorem State.withPhase_status (s : State) (x : Phase) : (s.withPhase x).status = s.status := rfl
@[simp] theorem State.withPhase_irqen (s : State) (x : Phase) : (s.withPhase x).irqen = s.irqen := rfl
@[simp] theorem State.withPhase_opr (s : State) (x : Phase) : (s.withPhase x).opr = s.opr := rfl
@[simp] theorem State.withPhase_doutLo (s : State) (x : Phase) : (s.withPhase x).doutLo = s.doutLo := rfl
@[simp] theorem State.withPhase_doutHi (s : State) (x : Phase) : (s.withPhase x).doutHi = s.doutHi := rfl
@[simp] theorem State.withPhase_phase (s : State) (x : Phase) : (s.withPhase x).phase = x := rfl
@[simp] theorem State.withPhase_mem (s : State) (x : Phase) : (s.withPhase x).mem = s.mem := rfl
@[simp] theorem State.withPhase_host (s : State) (x : Phase) : (s.withPhase x).host = s.host := rfl
@[simp] theorem State.withPhase_trace (s : State) (x : Phase) : (s.withPhase x).trace = s.trace := rfl
@[simp] theorem State.withPhase_schedule (s : State) (x : Phase) : (s.withPhase x).schedule = s.schedule := rfl

@[simp] theorem State.withMem_cfg (s : State) (x : Memory) : (s.withMem x).cfg = s.cfg := rfl
@[simp] theorem State.withMem_status (s : State) (x : Memory) : (s.withMem x).status = s.status := rfl
@[simp] theorem State.withMem_irqen (s : State) (x : Memory) : (s.withMem x).irqen = s.irqen := rfl
@[simp] theorem State.withMem_opr (s : State) (x : Memory) : (s.withMem x).opr = s.opr := rfl
@[simp] theorem State.withMem_doutLo (s : State) (x : Memory) : (s.withMem x).doutLo = s.doutLo := rfl
@[simp] theorem State.withMem_doutHi (s : State) (x : Memory) : (s.withMem x).doutHi = s.doutHi := rfl
@[simp] theorem State.withMem_phase (s : State) (x : Memory) : (s.withMem x).phase = s.phase := rfl
@[simp] theorem State.withMem_mem (s : State) (x : Memory) : (s.withMem x).mem = x := rfl
@[simp] theorem State.withMem_host (s : State) (x : Memory) : (s.withMem x).host = s.host := rfl
@[simp] theorem State.withMem_trace (s : State) (x : Memory) : (s.withMem x).trace = s.trace := rfl
@[simp] theorem State.withMem_schedule (s : State) (x : Memory) : (s.withMem x).schedule = s.schedule := rfl

@[simp] theorem State.withHost_cfg (s : State) (x : List HostOp) : (s.withHost x).cfg = s.cfg := rfl
@[simp] theorem State.withHost_status (s : State) (x : List HostOp) : (s.withHost x).status = s.status := rfl
@[simp] theorem State.withHost_irqen (s : State) (x : List HostOp) : (s.withHost x).irqen = s.irqen := rfl
@[simp] theorem State.withHost_opr (s : State) (x : List HostOp) : (s.withHost x).opr = s.opr := rfl
@[simp] theorem State.withHost_doutLo (s : State) (x : List HostOp) : (s.withHost x).doutLo = s.doutLo := rfl
@[simp] theorem State.withHost_doutHi (s : State) (x : List HostOp) : (s.withHost x).doutHi = s.doutHi := rfl
@[simp] theorem State.withHost_phase (s : State) (x : List HostOp) : (s.withHost x).phase = s.phase := rfl
@[simp] theorem State.withHost_mem (s : State) (x : List HostOp) : (s.withHost x).mem = s.mem := rfl
@[simp] theorem State.withHost_host (s : State) (x : List HostOp) : (s.withHost x).host = x := rfl
@[simp] theorem State.withHost_trace (s : State) (x : List HostOp) : (s.withHost x).trace = s.trace := rfl
@[simp] theorem State.withHost_schedule (s : State) (x : List HostOp) : (s.withHost x).schedule = s.schedule := rfl

@[simp] theorem State.withSchedule_cfg (s : State) (x : List Agent) : (s.withSchedule x).cfg = s.cfg := rfl
@[simp] theorem State.withSchedule_status (s : State) (x : List Agent) : (s.withSchedule x).status = s.status := rfl
@[simp] theorem State.withSchedule_irqen (s : State) (x : List Agent) : (s.withSchedule x).irqen = s.irqen := rfl
@[simp] theorem State.withSchedule_opr (s : State) (x : List Agent) : (s.withSchedule x).opr = s.opr := rfl
@[simp] theorem State.withSchedule_doutLo (s : State) (x : List Agent) : (s.withSchedule x).doutLo = s.doutLo := rfl
@[simp] theorem State.withSchedule_doutHi (s : State) (x : List Agent) : (s.withSchedule x).doutHi = s.doutHi := rfl
@[simp] theorem State.withSchedule_phase (s : State) (x : List Agent) : (s.withSchedule x).phase = s.phase := rfl
@[simp] theorem State.withSchedule_mem (s : State) (x : List Agent) : (s.withSchedule x).mem = s.mem := rfl
@[simp] theorem State.withSchedule_host (s : State) (x : List Agent) : (s.withSchedule x).host = s.host := rfl
@[simp] theorem State.withSchedule_trace (s : State) (x : List Agent) : (s.withSchedule x).trace = s.trace := rfl
@[simp] theorem State.withSchedule_schedule (s : State) (x : List Agent) : (s.withSchedule x).schedule = x := rfl

@[simp] theorem State.record_cfg (s : State) (o : Observation) : (s.record o).cfg = s.cfg := rfl
@[simp] theorem State.record_status (s : State) (o : Observation) : (s.record o).status = s.status := rfl
@[simp] theorem State.record_irqen (s : State) (o : Observation) : (s.record o).irqen = s.irqen := rfl
@[simp] theorem State.record_opr (s : State) (o : Observation) : (s.record o).opr = s.opr := rfl
@[simp] theorem State.record_doutLo (s : State) (o : Observation) : (s.record o).doutLo = s.doutLo := rfl
@[simp] theorem State.record_doutHi (s : State) (o : Observation) : (s.record o).doutHi = s.doutHi := rfl
@[simp] theorem State.record_phase (s : State) (o : Observation) : (s.record o).phase = s.phase := rfl
@[simp] theorem State.record_mem (s : State) (o : Observation) : (s.record o).mem = s.mem := rfl
@[simp] theorem State.record_host (s : State) (o : Observation) : (s.record o).host = s.host := rfl
@[simp] theorem State.record_trace (s : State) (o : Observation) : (s.record o).trace = o :: s.trace := rfl
@[simp] theorem State.record_schedule (s : State) (o : Observation) : (s.record o).schedule = s.schedule := rfl

@[simp] theorem State.overrun_cfg (s : State) : s.overrun.cfg = s.cfg := rfl
@[simp] theorem State.overrun_status (s : State) : s.overrun.status = { s.status with wovr := true } := rfl
@[simp] theorem State.overrun_irqen (s : State) : s.overrun.irqen = s.irqen := rfl
@[simp] theorem State.overrun_opr (s : State) : s.overrun.opr = s.opr := rfl
@[simp] theorem State.overrun_doutLo (s : State) : s.overrun.doutLo = s.doutLo := rfl
@[simp] theorem State.overrun_doutHi (s : State) : s.overrun.doutHi = s.doutHi := rfl
@[simp] theorem State.overrun_phase (s : State) : s.overrun.phase = s.phase := rfl
@[simp] theorem State.overrun_mem (s : State) : s.overrun.mem = s.mem := rfl
@[simp] theorem State.overrun_host (s : State) : s.overrun.host = s.host := rfl
@[simp] theorem State.overrun_trace (s : State) : s.overrun.trace = s.trace := rfl
@[simp] theorem State.overrun_schedule (s : State) : s.overrun.schedule = s.schedule := rfl

@[simp] theorem State.clearOutcome_cfg (s : State) : s.clearOutcome.cfg = s.cfg := rfl
@[simp] theorem State.clearOutcome_status (s : State) : s.clearOutcome.status = { s.status with done := false, err := false, errCode := .none } := rfl
@[simp] theorem State.clearOutcome_irqen (s : State) : s.clearOutcome.irqen = s.irqen := rfl
@[simp] theorem State.clearOutcome_opr (s : State) : s.clearOutcome.opr = s.opr := rfl
@[simp] theorem State.clearOutcome_doutLo (s : State) : s.clearOutcome.doutLo = s.doutLo := rfl
@[simp] theorem State.clearOutcome_doutHi (s : State) : s.clearOutcome.doutHi = s.doutHi := rfl
@[simp] theorem State.clearOutcome_phase (s : State) : s.clearOutcome.phase = s.phase := rfl
@[simp] theorem State.clearOutcome_mem (s : State) : s.clearOutcome.mem = s.mem := rfl
@[simp] theorem State.clearOutcome_host (s : State) : s.clearOutcome.host = s.host := rfl
@[simp] theorem State.clearOutcome_trace (s : State) : s.clearOutcome.trace = s.trace := rfl
@[simp] theorem State.clearOutcome_schedule (s : State) : s.clearOutcome.schedule = s.schedule := rfl

@[simp] theorem State.raise_cfg (s : State) (c : ErrCode) : (s.raise c).cfg = s.cfg := rfl
@[simp] theorem State.raise_status (s : State) (c : ErrCode) : (s.raise c).status = { s.status with err := true, errCode := c, fault := s.status.fault || c == .desRounds } := rfl
@[simp] theorem State.raise_irqen (s : State) (c : ErrCode) : (s.raise c).irqen = s.irqen := rfl
@[simp] theorem State.raise_opr (s : State) (c : ErrCode) : (s.raise c).opr = s.opr := rfl
@[simp] theorem State.raise_doutLo (s : State) (c : ErrCode) : (s.raise c).doutLo = s.doutLo := rfl
@[simp] theorem State.raise_doutHi (s : State) (c : ErrCode) : (s.raise c).doutHi = s.doutHi := rfl
@[simp] theorem State.raise_phase (s : State) (c : ErrCode) : (s.raise c).phase = s.phase := rfl
@[simp] theorem State.raise_mem (s : State) (c : ErrCode) : (s.raise c).mem = s.mem := rfl
@[simp] theorem State.raise_host (s : State) (c : ErrCode) : (s.raise c).host = s.host := rfl
@[simp] theorem State.raise_trace (s : State) (c : ErrCode) : (s.raise c).trace = s.trace := rfl
@[simp] theorem State.raise_schedule (s : State) (c : ErrCode) : (s.raise c).schedule = s.schedule := rfl

@[simp] theorem State.writeIrqen_cfg (s : State) (v : Word) : (s.writeIrqen v).cfg = s.cfg := rfl
@[simp] theorem State.writeIrqen_status (s : State) (v : Word) : (s.writeIrqen v).status = s.status := rfl
@[simp] theorem State.writeIrqen_irqen (s : State) (v : Word) : (s.writeIrqen v).irqen = ⟨v.getLsbD 0, v.getLsbD 1⟩ := rfl
@[simp] theorem State.writeIrqen_opr (s : State) (v : Word) : (s.writeIrqen v).opr = s.opr := rfl
@[simp] theorem State.writeIrqen_doutLo (s : State) (v : Word) : (s.writeIrqen v).doutLo = s.doutLo := rfl
@[simp] theorem State.writeIrqen_doutHi (s : State) (v : Word) : (s.writeIrqen v).doutHi = s.doutHi := rfl
@[simp] theorem State.writeIrqen_phase (s : State) (v : Word) : (s.writeIrqen v).phase = s.phase := rfl
@[simp] theorem State.writeIrqen_mem (s : State) (v : Word) : (s.writeIrqen v).mem = s.mem := rfl
@[simp] theorem State.writeIrqen_host (s : State) (v : Word) : (s.writeIrqen v).host = s.host := rfl
@[simp] theorem State.writeIrqen_trace (s : State) (v : Word) : (s.writeIrqen v).trace = s.trace := rfl
@[simp] theorem State.writeIrqen_schedule (s : State) (v : Word) : (s.writeIrqen v).schedule = s.schedule := rfl

@[simp] theorem State.complete_cfg (s : State) : s.complete.cfg = s.cfg := rfl
@[simp] theorem State.complete_status (s : State) : s.complete.status = { s.status with done := true } := rfl
@[simp] theorem State.complete_irqen (s : State) : s.complete.irqen = s.irqen := rfl
@[simp] theorem State.complete_opr (s : State) : s.complete.opr = s.opr := rfl
@[simp] theorem State.complete_doutLo (s : State) : s.complete.doutLo = s.doutLo := rfl
@[simp] theorem State.complete_doutHi (s : State) : s.complete.doutHi = s.doutHi := rfl
@[simp] theorem State.complete_phase (s : State) : s.complete.phase = .idle := rfl
@[simp] theorem State.complete_mem (s : State) : s.complete.mem = s.mem := rfl
@[simp] theorem State.complete_host (s : State) : s.complete.host = s.host := rfl
@[simp] theorem State.complete_trace (s : State) : s.complete.trace = s.trace := rfl
@[simp] theorem State.complete_schedule (s : State) : s.complete.schedule = s.schedule := rfl

@[simp] theorem State.resetEvent_cfg (s : State) : s.resetEvent.cfg = s.cfg := rfl
@[simp] theorem State.resetEvent_status (s : State) : s.resetEvent.status = .reset := rfl
@[simp] theorem State.resetEvent_irqen (s : State) : s.resetEvent.irqen = .reset := rfl
@[simp] theorem State.resetEvent_opr (s : State) : s.resetEvent.opr = .reset := rfl
@[simp] theorem State.resetEvent_doutLo (s : State) : s.resetEvent.doutLo = 0 := rfl
@[simp] theorem State.resetEvent_doutHi (s : State) : s.resetEvent.doutHi = 0 := rfl
@[simp] theorem State.resetEvent_phase (s : State) : s.resetEvent.phase = .idle := rfl
@[simp] theorem State.resetEvent_mem (s : State) : s.resetEvent.mem = s.mem := rfl
@[simp] theorem State.resetEvent_host (s : State) : s.resetEvent.host = s.host := rfl
@[simp] theorem State.resetEvent_trace (s : State) : s.resetEvent.trace = s.trace := rfl
@[simp] theorem State.resetEvent_schedule (s : State) : s.resetEvent.schedule = s.schedule := rfl

@[simp] theorem State.writeStatus_cfg (s : State) (v : Word) : (s.writeStatus v).cfg = s.cfg := rfl
@[simp] theorem State.writeStatus_irqen (s : State) (v : Word) : (s.writeStatus v).irqen = s.irqen := rfl
@[simp] theorem State.writeStatus_opr (s : State) (v : Word) : (s.writeStatus v).opr = s.opr := rfl
@[simp] theorem State.writeStatus_doutLo (s : State) (v : Word) : (s.writeStatus v).doutLo = s.doutLo := rfl
@[simp] theorem State.writeStatus_doutHi (s : State) (v : Word) : (s.writeStatus v).doutHi = s.doutHi := rfl
@[simp] theorem State.writeStatus_phase (s : State) (v : Word) : (s.writeStatus v).phase = s.phase := rfl
@[simp] theorem State.writeStatus_mem (s : State) (v : Word) : (s.writeStatus v).mem = s.mem := rfl
@[simp] theorem State.writeStatus_host (s : State) (v : Word) : (s.writeStatus v).host = s.host := rfl
@[simp] theorem State.writeStatus_trace (s : State) (v : Word) : (s.writeStatus v).trace = s.trace := rfl
@[simp] theorem State.writeStatus_schedule (s : State) (v : Word) : (s.writeStatus v).schedule = s.schedule := rfl

/-- DOUT after `withDout` is the value written (40_primitives.md R147). -/
@[simp] theorem dout_withDout (s : State) (v : Block) : dout (s.withDout v) = v := by
  refine BitVec.eq_of_getLsbD_eq fun i hi => ?_
  simp only [dout, State.withDout_doutHi, State.withDout_doutLo, BitVec.getLsbD_append, BitVec.getLsbD_extractLsb']
  by_cases h : i < 32
  · simp [h]
  · rw [if_neg h, show 32 + (i - 32) = i by omega]
    simp [show i - 32 < 32 by omega]

@[simp] theorem busy_withPhase_idle (s : State) : (s.withPhase .idle).busy = false := rfl
@[simp] theorem busy_withPhase_single (s : State) (i : Instr) : (s.withPhase (.single i)).busy = true := rfl
@[simp] theorem busy_withPhase_mode (s : State) (i : Instr) (ms : ModeState) :
    (s.withPhase (.mode i ms)).busy = true := rfl

/-- BUSY reads 0 exactly in IDLE (10_state.md R47). -/
theorem busy_eq_false_iff (s : State) : s.busy = false ↔ s.phase = .idle := by
  unfold State.busy; split <;> simp_all

/-- The phase decides BUSY alone. -/
theorem busy_congr {s t : State} (h : s.phase = t.phase) : s.busy = t.busy := by
  unfold State.busy; rw [h]

end Sys2Proof.Machine
end

