-- ==== Sys2Proof/Laws/Memory.lean ====
section
/-! SUPPORT. The laws of the data memory: read after write, the canonical form and the address bound kept by every
operation (spec 20_memory.md R84, R88). -/

namespace Sys2Proof.Machine.Memory

theorem wf_cons {a : Nat} {v : Byte} {m : Memory} :
    Memory.wf ((a, v) :: m) = true ↔ v ≠ Memory.unlisted ∧ (∀ c ∈ m, a < c.1) ∧ Memory.wf m = true := by
  simp [Memory.wf, and_assoc]

/-- An address below every listed one reads as unlisted. -/
theorem readByte_of_lt {m : Memory} {a : Nat} (h : ∀ c ∈ m, a < c.1) : m.readByte a = Memory.unlisted := by
  induction m with
  | nil => rfl
  | cons c m ih =>
    obtain ⟨b, w⟩ := c
    have hb : a < b := h (b, w) (by simp)
    simp only [Memory.readByte]
    rw [if_neg (by omega)]
    exact ih fun c hc => h c (by simp [hc])

theorem readByte_writeByte_same {m : Memory} (h : m.wf = true) (a : Nat) (v : Byte) :
    (m.writeByte a v).readByte a = v := by
  induction m with
  | nil => by_cases hv : v = Memory.unlisted <;> simp [Memory.writeByte, Memory.readByte, hv]
  | cons c m ih =>
    obtain ⟨b, w⟩ := c
    obtain ⟨-, hlt, hwf⟩ := wf_cons.1 h
    simp only [Memory.writeByte]
    split
    · split
      · rename_i hab hv
        rw [readByte_of_lt, hv]
        intro c hc
        rcases List.mem_cons.1 hc with rfl | hc
        · exact hab
        · exact Nat.lt_trans hab (hlt c hc)
      · simp [Memory.readByte]
    · split
      · rename_i hab
        subst hab
        split
        · rename_i hv
          rw [readByte_of_lt hlt, hv]
        · simp [Memory.readByte]
      · rename_i hab
        simp [Memory.readByte, hab, ih hwf]

theorem readByte_writeByte_other {m : Memory} (h : m.wf = true) {a x : Nat} (v : Byte) (hx : x ≠ a) :
    (m.writeByte a v).readByte x = m.readByte x := by
  induction m with
  | nil => by_cases hv : v = Memory.unlisted <;> simp [Memory.writeByte, Memory.readByte, hv, hx]
  | cons c m ih =>
    obtain ⟨b, w⟩ := c
    obtain ⟨-, hlt, hwf⟩ := wf_cons.1 h
    simp only [Memory.writeByte]
    split
    · split
      · rfl
      · simp [Memory.readByte, hx]
    · split
      · rename_i hab
        subst hab
        split <;> simp [Memory.readByte, hx]
      · simp [Memory.readByte, ih hwf]

/-- Where the write of one byte may list an address. -/
theorem mem_writeByte {m : Memory} {a : Nat} {v : Byte} {c : Host.Cell} (h : c ∈ m.writeByte a v) :
    c ∈ m ∨ c = (a, v) := by
  induction m with
  | nil =>
    by_cases hv : v = Memory.unlisted <;> simp_all [Memory.writeByte]
  | cons d m ih =>
    obtain ⟨b, w⟩ := d
    simp only [Memory.writeByte] at h
    split at h
    · split at h
      · exact .inl h
      · rcases List.mem_cons.1 h with h | h
        · exact .inr h
        · exact .inl h
    · split at h
      · split at h
        · exact .inl (List.mem_cons_of_mem _ h)
        · rcases List.mem_cons.1 h with h | h
          · exact .inr h
          · exact .inl (List.mem_cons_of_mem _ h)
      · rcases List.mem_cons.1 h with h | h
        · exact .inl (by simp [h])
        · rcases ih h with h | h
          · exact .inl (List.mem_cons_of_mem _ h)
          · exact .inr h

/-- Writing a byte keeps the canonical form. -/
theorem wf_writeByte {m : Memory} (h : m.wf = true) (a : Nat) (v : Byte) : (m.writeByte a v).wf = true := by
  induction m with
  | nil =>
    by_cases hv : v = Memory.unlisted
    · simp [Memory.writeByte, hv, Memory.wf]
    · simp [Memory.writeByte, hv, Memory.wf]
  | cons c m ih =>
    obtain ⟨b, w⟩ := c
    obtain ⟨hw, hlt, hwf⟩ := wf_cons.1 h
    simp only [Memory.writeByte]
    split
    · rename_i hab
      split
      · exact h
      · rename_i hv
        refine wf_cons.2 ⟨hv, fun c hc => ?_, h⟩
        rcases List.mem_cons.1 hc with rfl | hc
        · exact hab
        · exact Nat.lt_trans hab (hlt c hc)
    · split
      · rename_i hab
        subst hab
        split
        · exact hwf
        · rename_i hv
          exact wf_cons.2 ⟨hv, hlt, hwf⟩
      · rename_i hnl hne
        refine wf_cons.2 ⟨hw, fun c hc => ?_, ih hwf⟩
        rcases mem_writeByte hc with hc | rfl
        · exact hlt c hc
        · show b < a
          omega

/-- Writing a byte below the bound keeps the bound. -/
theorem below_writeByte {m : Memory} {n a : Nat} (h : m.below n = true) (ha : a < n) (v : Byte) :
    (m.writeByte a v).below n = true := by
  simp only [Memory.below, List.all_eq_true, decide_eq_true_eq] at h ⊢
  intro c hc
  rcases mem_writeByte hc with hc | rfl
  · exact h c hc
  · exact ha

theorem wf_writeBytes {m : Memory} (h : m.wf = true) (a n v : Nat) : (m.writeBytes a n v).wf = true := by
  induction n generalizing m a v with
  | zero => exact h
  | succ n ih => exact ih (wf_writeByte h _ _) _ _

theorem wf_writeList {m : Memory} (h : m.wf = true) (a : Nat) (vs : List Byte) : (m.writeList a vs).wf = true := by
  induction vs generalizing m a with
  | nil => exact h
  | cons v vs ih => exact ih (wf_writeByte h _ _) _

theorem below_writeBytes {m : Memory} {k a n : Nat} (h : m.below k = true) (ha : a + n ≤ k) (v : Nat) :
    (m.writeBytes a n v).below k = true := by
  induction n generalizing m a v with
  | zero => exact h
  | succ n ih => exact ih (below_writeByte h (by omega) _) (by omega) _

theorem below_writeList {m : Memory} {k a : Nat} {vs : List Byte} (h : m.below k = true) (ha : a + vs.length ≤ k) :
    (m.writeList a vs).below k = true := by
  induction vs generalizing m a with
  | nil => exact h
  | cons v vs ih =>
    simp only [List.length_cons] at ha
    exact ih (below_writeByte h (by omega) _) (by omega)

/-- A byte outside the written ones reads as before. -/
theorem readByte_writeBytes_outside {m : Memory} (h : m.wf = true) {a n x : Nat} (v : Nat)
    (hx : x < a ∨ a + n ≤ x) : (m.writeBytes a n v).readByte x = m.readByte x := by
  induction n generalizing m a v with
  | zero => rfl
  | succ n ih =>
    rw [Memory.writeBytes, ih (wf_writeByte h _ _) _ (by omega), readByte_writeByte_other h _ (by omega)]

/-- Byte k of the written value stands at address a + k (20_memory.md R84). -/
theorem readByte_writeBytes_inside {m : Memory} (h : m.wf = true) {a n k : Nat} (v : Nat) (hk : k < n) :
    (m.writeBytes a n v).readByte (a + k) = BitVec.ofNat 8 (v / 256 ^ k) := by
  induction n generalizing m a v k with
  | zero => omega
  | succ n ih =>
    rw [Memory.writeBytes]
    cases k with
    | zero =>
      rw [readByte_writeBytes_outside (wf_writeByte h _ _) _ (by omega), Nat.add_zero,
        readByte_writeByte_same h, Nat.pow_zero, Nat.div_one]
    | succ k =>
      have := ih (m := m.writeByte a (BitVec.ofNat 8 v)) (wf_writeByte h _ _) (a := a + 1) (v / 256)
        (k := k) (by omega)
      rw [show a + (k + 1) = a + 1 + k by omega, this, Nat.div_div_eq_div_mul, Nat.pow_succ, Nat.mul_comm]

/-- Memories that agree on n bytes read alike there. -/
theorem readBytes_congr {m m' : Memory} {a n : Nat} (h : ∀ x, a ≤ x → x < a + n → m.readByte x = m'.readByte x) :
    m.readBytes a n = m'.readBytes a n := by
  induction n generalizing a with
  | zero => rfl
  | succ n ih =>
    rw [Memory.readBytes, Memory.readBytes, h a (by omega) (by omega), ih fun x h1 h2 => h x (by omega) (by omega)]

/-- A block outside the written bytes reads as before. -/
theorem readBytes_writeBytes_outside {m : Memory} (h : m.wf = true) {a n b k : Nat} (v : Nat)
    (hd : b + k ≤ a ∨ a + n ≤ b) : (m.writeBytes a n v).readBytes b k = m.readBytes b k :=
  readBytes_congr fun x h1 h2 => readByte_writeBytes_outside h v (by omega)

/-- MemRead after MemWrite of the same bytes gives the value, cut to its width (20_memory.md R84, R88). -/
theorem readBytes_writeBytes_same {m : Memory} (h : m.wf = true) (a n v : Nat) :
    (m.writeBytes a n v).readBytes a n = v % 256 ^ n := by
  induction n generalizing m a v with
  | zero => simp [Memory.readBytes, Nat.mod_one]
  | succ n ih =>
    rw [Memory.readBytes, Memory.writeBytes, ih (wf_writeByte h _ _),
      readByte_writeBytes_outside (wf_writeByte h _ _) _ (by omega), readByte_writeByte_same h,
      BitVec.toNat_ofNat, Nat.pow_succ 256 n, Nat.mul_comm (256 ^ n) 256, Nat.mod_mul]

theorem readBytes_lt (m : Memory) (a n : Nat) : m.readBytes a n < 256 ^ n := by
  induction n generalizing a with
  | zero => simp [Memory.readBytes]
  | succ n ih =>
    have h1 := (m.readByte a).isLt
    have h2 := ih (a + 1)
    rw [Memory.readBytes, Nat.pow_succ]
    omega

/-- A byte outside a host's write reads as before. -/
theorem readByte_writeList_outside {m : Memory} (h : m.wf = true) {a x : Nat} {vs : List Byte}
    (hx : x < a ∨ a + vs.length ≤ x) : (m.writeList a vs).readByte x = m.readByte x := by
  induction vs generalizing m a with
  | nil => rfl
  | cons v vs ih =>
    simp only [List.length_cons] at hx
    rw [Memory.writeList, ih (wf_writeByte h _ _) (by omega), readByte_writeByte_other h _ (by omega)]

/-- Byte k of a host's write stands at address a + k (20_memory.md R90). -/
theorem readByte_writeList_inside {m : Memory} (h : m.wf = true) {a k : Nat} {vs : List Byte} (hk : k < vs.length) :
    (m.writeList a vs).readByte (a + k) = vs[k] := by
  induction vs generalizing m a k with
  | nil => simp at hk
  | cons v vs ih =>
    rw [Memory.writeList]
    cases k with
    | zero =>
      rw [readByte_writeList_outside (wf_writeByte h _ _) (by omega), Nat.add_zero, readByte_writeByte_same h]; rfl
    | succ k =>
      rw [show a + (k + 1) = a + 1 + k by omega, ih (wf_writeByte h _ _) (by simpa using hk)]; rfl

theorem readList_length (m : Memory) (a n : Nat) : (m.readList a n).length = n := by
  induction n generalizing a with
  | zero => rfl
  | succ n ih => rw [Memory.readList, List.length_cons, ih]

/-- Byte k of a host's read is the byte at address a + k (20_memory.md R90). -/
theorem readList_getElem? (m : Memory) {a n k : Nat} (hk : k < n) :
    (m.readList a n)[k]? = some (m.readByte (a + k)) := by
  induction n generalizing a k with
  | zero => omega
  | succ n ih =>
    cases k with
    | zero => rfl
    | succ k => rw [Memory.readList, List.getElem?_cons_succ, ih (by omega), show a + 1 + k = a + (k + 1) by omega]

/-- A host's read after a host's write of the same bytes gives them back. -/
theorem readList_writeList_same {m : Memory} (h : m.wf = true) (a : Nat) (vs : List Byte) :
    (m.writeList a vs).readList a vs.length = vs := by
  induction vs generalizing m a with
  | nil => rfl
  | cons v vs ih =>
    rw [Memory.writeList, List.length_cons, Memory.readList, ih (wf_writeByte h _ _),
      readByte_writeList_outside (wf_writeByte h _ _) (by omega), readByte_writeByte_same h]

end Sys2Proof.Machine.Memory
end

