-- ==== Sys2Proof/Laws/Primitives.lean ====
section
/-! SUPPORT. What the bit-permutation and substitution functions do, bit by bit and nibble by nibble, and the inverse
tables (spec 40_primitives.md R140 to R146). -/

namespace Sys2Proof.Machine

/-! ### Permutations -/

/-- Bit i of a gathered value is the bit of x at position `T[i]` (40_primitives.md R140). -/
theorem testBit_gatherBits (x : Nat) {T : List Nat} {i : Nat} (h : i < T.length) :
    (gatherBits x T).testBit i = x.testBit T[i] := by
  induction T generalizing i with
  | nil => simp at h
  | cons p T ih =>
    cases i with
    | zero =>
      have hb : (x.testBit p).toNat % 2 = (x.testBit p).toNat := by cases x.testBit p <;> rfl
      simp [gatherBits, Nat.testBit_zero, Nat.add_mod, hb]
    | succ i =>
      have : ((x.testBit p).toNat + 2 * gatherBits x T) / 2 = gatherBits x T := by
        cases x.testBit p <;> simp <;> omega
      simp only [gatherBits, Nat.testBit_add_one, this, List.getElem_cons_succ]
      exact ih (by simpa using h)

/-- A gathered value has no bit beyond its table. -/
theorem gatherBits_lt (x : Nat) (T : List Nat) : gatherBits x T < 2 ^ T.length := by
  induction T with
  | nil => simp [gatherBits]
  | cons p T ih =>
    have : (x.testBit p).toNat ≤ 1 := by cases x.testBit p <;> simp
    simp only [gatherBits, List.length_cons, Nat.pow_succ]
    omega

/-- Output bit i of `permute` is input bit `T[i]` (40_primitives.md R140). -/
theorem getLsbD_permute {w : Nat} (x : BitVec w) {T : List Nat} {i : Nat} (hi : i < w) (h : i < T.length) :
    (permute x T).getLsbD i = x.getLsbD T[i] := by
  rw [permute, BitVec.getLsbD_ofNat, testBit_gatherBits _ h]
  simp [hi, BitVec.getLsbD]

/-- Output DES bit j of `permuteDes` is input DES bit `T[j]`, j counted from 0 here (40_primitives.md R144). -/
theorem getLsbD_permuteDes {m : Nat} (n : Nat) (x : BitVec m) {T : List Nat} (hT : T.length = n) {j : Nat} (hj : j < n) :
    (permuteDes n x T).getLsbD (n - 1 - j) = x.getLsbD (desPosition m (T[j]'(by omega))) := by
  have hl : n - 1 - j < (T.reverse.map (desPosition m)).length := by simp; omega
  rw [permuteDes, BitVec.getLsbD_ofNat, testBit_gatherBits _ hl]
  simp only [List.getElem_map, List.getElem_reverse]
  have : T.length - 1 - (n - 1 - j) = j := by omega
  simp [this, BitVec.getLsbD, show n - 1 - j < n by omega]

/-! ### Substitutions -/

/-- Nibble j of a substituted value is the table entry of nibble j (40_primitives.md R142). -/
theorem substNibbles_nibble {S : List Nat} (hS : ∀ v, S.getD v 0 < 16) {n j : Nat} (hj : j < n) (x : Nat) :
    substNibbles S n x / 16 ^ j % 16 = S.getD (x / 16 ^ j % 16) 0 := by
  induction n generalizing j x with
  | zero => omega
  | succ n ih =>
    have h0 := hS (x % 16)
    cases j with
    | zero => simp only [substNibbles, Nat.pow_zero, Nat.div_one]; omega
    | succ j =>
      have h1 : (S.getD (x % 16) 0 + 16 * substNibbles S n (x / 16)) / 16 = substNibbles S n (x / 16) := by omega
      have h2 := ih (j := j) (by omega) (x / 16)
      have hp : 16 ^ (j + 1) = 16 * 16 ^ j := by rw [Nat.pow_succ, Nat.mul_comm]
      rw [substNibbles, hp, ← Nat.div_div_eq_div_mul, h1, h2, Nat.div_div_eq_div_mul]

theorem substNibbles_lt {S : List Nat} (hS : ∀ v, S.getD v 0 < 16) (n x : Nat) : substNibbles S n x < 16 ^ n := by
  induction n generalizing x with
  | zero => simp [substNibbles]
  | succ n ih =>
    have h0 := hS (x % 16)
    have h1 := ih (x / 16)
    rw [substNibbles, Nat.pow_succ]
    omega

/-- Nibble j of `substitute x S` (40_primitives.md R142). -/
theorem substitute_nibble {n : Nat} (x : BitVec (4 * n)) {S : List Nat} (hS : ∀ v, S.getD v 0 < 16) {j : Nat}
    (hj : j < n) : (substitute x S).toNat / 16 ^ j % 16 = S.getD (x.toNat / 16 ^ j % 16) 0 := by
  have h := substNibbles_lt hS n x.toNat
  have hp : 2 ^ (4 * n) = 16 ^ n := by rw [Nat.pow_mul]
  rw [substitute, Nat.mul_div_cancel_left n (by omega), BitVec.toNat_ofNat, hp, Nat.mod_eq_of_lt h,
    substNibbles_nibble hS hj]

/-! ### Tables -/

/-- A table of n entries that is a bijection of 0 .. n-1 (00_scope.md R8). -/
structure IsTable (n : Nat) (T : List Nat) : Prop where
  length : T.length = n
  nodup : T.Nodup
  lt : ∀ p ∈ T, p < n

theorem IsTable.getElem_lt {n : Nat} {T : List Nat} (h : IsTable n T) {i : Nat} (hi : i < n) :
    T[i]'(by rw [h.length]; exact hi) < n := h.lt _ (List.getElem_mem _)

/-- Every value stands in a table. -/
theorem IsTable.mem {n : Nat} {T : List Nat} (h : IsTable n T) {v : Nat} (hv : v < n) : v ∈ T := by
  have hsub : T.toFinset ⊆ Finset.range n := fun p hp => by
    simpa using h.lt p (by simpa using hp)
  have hcard : T.toFinset.card = (Finset.range n).card := by
    rw [List.toFinset_card_of_nodup h.nodup, h.length, Finset.card_range]
  have := Finset.eq_of_subset_of_card_le hsub (le_of_eq hcard.symm)
  have hv' : v ∈ T.toFinset := by rw [this]; simpa using hv
  simpa using hv'

theorem inverseTable_length (T : List Nat) : (inverseTable T).length = T.length := by simp [inverseTable]

theorem getElem_inverseTable {T : List Nat} {v : Nat} (h : v < (inverseTable T).length) :
    (inverseTable T)[v] = T.idxOf v := by simp [inverseTable]

/-- `P_reverse[P_straight[i]] = i` (40_primitives.md R143). -/
theorem IsTable.inverse_getElem {n : Nat} {T : List Nat} (h : IsTable n T) {i : Nat} (hi : i < n) :
    (inverseTable T)[T[i]'(by rw [h.length]; exact hi)]'(by
      rw [inverseTable_length]; exact Nat.lt_of_lt_of_eq (h.getElem_lt hi) h.length.symm) = i := by
  rw [getElem_inverseTable]
  exact h.nodup.idxOf_getElem _ _

/-- The table undoes its inverse. -/
theorem IsTable.getElem_inverse {n : Nat} {T : List Nat} (h : IsTable n T) {v : Nat} (hv : v < n) :
    T[(inverseTable T)[v]'(by rw [inverseTable_length, h.length]; exact hv)]'(by
      rw [getElem_inverseTable]; exact List.idxOf_lt_length_of_mem (h.mem hv)) = v := by
  have hv' : v < (inverseTable T).length := by rw [inverseTable_length, h.length]; exact hv
  simp only [getElem_inverseTable hv']
  exact List.getElem_idxOf _

/-- The inverse of a table is a table. -/
theorem IsTable.inverse {n : Nat} {T : List Nat} (h : IsTable n T) : IsTable n (inverseTable T) where
  length := by rw [inverseTable_length, h.length]
  nodup := by
    rw [inverseTable, h.length]
    refine (List.nodup_range).map_on fun v hv w hw e => ?_
    exact (List.idxOf_inj (h.mem (by simpa using hv))).1 e
  lt p hp := by
    simp only [inverseTable, List.mem_map, List.mem_range] at hp
    obtain ⟨v, hv, rfl⟩ := hp
    have := List.idxOf_lt_length_of_mem (h.mem (by rw [h.length] at hv; exact hv))
    rwa [h.length] at this

theorem isTable_of_vector {n : Nat} {v : Vector (Fin n) n} (h : v.toList.Nodup) :
    IsTable n (v.toList.map Fin.val) where
  length := by simp
  nodup := h.map Fin.val_injective
  lt p hp := by
    obtain ⟨q, -, rfl⟩ := List.mem_map.1 hp
    exact q.isLt

theorem isTable_pStraight (c : WfConfig) : IsTable 32 (pStraight c.val) := by
  have h := c.property
  simp only [Config.wf, Bool.and_eq_true, decide_eq_true_eq] at h
  exact isTable_of_vector h.1.1.1.1.2

theorem isTable_sStraight (c : WfConfig) : IsTable 16 (sStraight c.val) := by
  have h := c.property
  simp only [Config.wf, Bool.and_eq_true, decide_eq_true_eq] at h
  exact isTable_of_vector h.1.1.1.1.1

theorem isTable_sF (c : WfConfig) : IsTable 16 (sF c.val) := by
  have h := c.property
  simp only [Config.wf, Bool.and_eq_true, decide_eq_true_eq] at h
  exact isTable_of_vector h.1.1.1.2

theorem isTable_pF (c : WfConfig) : IsTable 16 (pF c.val) := by
  have h := c.property
  simp only [Config.wf, Bool.and_eq_true, decide_eq_true_eq] at h
  exact isTable_of_vector h.1.1.2

/-- MEM_SIZE is one of 1 .. 2^32 (00_scope.md R7). -/
theorem memSize_bounds (s : State) : 1 ≤ memSize s ∧ memSize s ≤ 2 ^ 32 := by
  have h := s.cfg.property
  simp only [Config.wf, Bool.and_eq_true, decide_eq_true_eq] at h
  exact ⟨h.1.2, h.2⟩

/-- An entry of a 16-entry table, or the default beyond it, is below 16. -/
theorem IsTable.getD_lt {T : List Nat} (h : IsTable 16 T) (v : Nat) : T.getD v 0 < 16 := by
  by_cases hv : v < T.length
  · rw [List.getD_eq_getElem _ _ hv]
    exact h.lt _ (List.getElem_mem _)
  · rw [List.getD_eq_default _ _ (by omega)]
    omega

end Sys2Proof.Machine
end

