-- ==== Sys2Proof/Laws/Engine.lean ====
section
/-! SUPPORT. What the shared operations and a whole step can do: the shape of every command, one inversion lemma for `exec`,
one for a host event, one for a step (spec 60_exceptions.md R360, R378, 40_primitives.md R147, 46_modes.md R301, R302). -/

namespace Sys2Proof.Machine

/-! ### The shape of a command -/

theorem isMode_iff_modeOf (i : Instr) : isMode i = true ↔ ∃ m, modeOf i = some m := by
  have h : isMode i = (modeOf i).isSome := by cases i <;> rfl
  rw [h, Option.isSome_iff_exists]

/-- A mode command's meaning is `modeCommand` with the mode, direction and cipher of its word (30_encoding.md R112). -/
theorem exec_of_mode {i : Instr} {m : Mode} (h : modeOf i = some m) (s : State) :
    exec i s = modeCommand i m (dirOf i) (cipherOf i) s := by
  obtain rfl : (modeOf i).getD .ecb = m := by rw [h]; rfl
  cases i <;> first | rfl | exact absurd h (by decide)

/-- Each command that is not a mode command has the shape `singleCommand` (40_primitives.md R147). -/
theorem exec_of_single' {i : Instr} (h : isMode i = false) :
    ∃ (check : State → Option ErrCode) (result : State → Block),
      (∀ s, exec i s = singleCommand i check result s) ∧
      ((isDesCipher i = true ∧ check = desRoundsCheck .des) ∨ (isKsDes i = true ∧ check = badArgCheck) ∨
        (isDesCipher i = false ∧ isKsDes i = false ∧ check = fun _ => none)) := by
  cases i <;> first
    | exact absurd h (by decide)
    | exact ⟨_, _, fun _ => rfl, .inr (.inr ⟨rfl, rfl, rfl⟩)⟩
    | exact ⟨_, _, fun _ => rfl, .inl ⟨rfl, rfl⟩⟩
    | exact ⟨_, _, fun _ => rfl, .inr (.inl ⟨rfl, rfl⟩)⟩

theorem rounds_eq_iff (s : State) : s.opr.rounds = 16#32 ↔ s.opr.rounds.toNat = 16 := by
  rw [← BitVec.toNat_inj]; rfl

/-- The buffer checks as R360 writes them (20_memory.md R85, R86). -/
theorem bufferCheck_eq (c : Cipher) (s : State) :
    bufferCheck c s =
      if s.opr.count.toNat > 0 then
        if s.opr.src.toNat % c.blockBytes ≠ 0 ∨ s.opr.dst.toNat % c.blockBytes ≠ 0 then some .align
        else if s.opr.src.toNat + s.opr.count.toNat * c.blockBytes > s.cfg.val.memSize ∨
            s.opr.dst.toNat + s.opr.count.toNat * c.blockBytes > s.cfg.val.memSize then some .range
        else none
      else none := by
  have ha : (!buffersAligned c s) = true ↔
      (s.opr.src.toNat % c.blockBytes ≠ 0 ∨ s.opr.dst.toNat % c.blockBytes ≠ 0) := by
    simp [buffersAligned, -not_and]
  have hr : (!buffersInRange c s) = true ↔
      (s.opr.src.toNat + s.opr.count.toNat * c.blockBytes > s.cfg.val.memSize ∨
        s.opr.dst.toNat + s.opr.count.toNat * c.blockBytes > s.cfg.val.memSize) := by
    have hb : buffersInRange c s = true ↔
        s.opr.src.toNat + s.opr.count.toNat * c.blockBytes ≤ s.cfg.val.memSize ∧
          s.opr.dst.toNat + s.opr.count.toNat * c.blockBytes ≤ s.cfg.val.memSize := by
      simp only [buffersInRange, Bool.and_eq_true, decide_eq_true_eq]
      exact Iff.rfl
    rw [Bool.not_eq_true', ← Bool.not_eq_true, hb]
    omega
  simp only [bufferCheck, blockCount, ha, hr]
  by_cases h0 : s.opr.count.toNat = 0
  · simp [h0]
  · simp [h0, Nat.pos_of_ne_zero h0]

/-- A mode command's checks are the lines of R360 for it (60_exceptions.md R360). -/
theorem modeCheck_eq_acceptError {i : Instr} (h : isMode i = true) (s : State) :
    modeCheck (cipherOf i) s = acceptError i s := by
  have hk : isKsDes i = false := by cases i <;> first | rfl | exact absurd h (by decide)
  have hb : (cipherOf i).blockBytes = fieldBytes i := by cases i <;> rfl
  have hd : desRoundsCheck (cipherOf i) s =
      if isDesCipher i = true ∧ s.opr.rounds.toNat ≠ 16 then some .desRounds else none := by
    have : isDesCipher i = decide (cipherOf i = .des) := by cases i <;> first | rfl | exact absurd h (by decide)
    rw [this]
    cases cipherOf i <;> simp [desRoundsCheck, rounds_eq_iff]
  rw [modeCheck, hd, bufferCheck_eq, hb, acceptError, hk, h]
  by_cases h1 : isDesCipher i = true ∧ s.opr.rounds.toNat ≠ 16
  · simp [h1]
  · simp [h1]

/-- A single-operation command's meaning is `singleCommand` with the checks of R360 for it (60_exceptions.md R360). -/
theorem exec_of_single {i : Instr} (h : isMode i = false) :
    ∃ result : State → Block, ∀ s, exec i s = singleCommand i (acceptError i) result s := by
  obtain ⟨check, result, hx, hc⟩ := exec_of_single' h
  refine ⟨result, fun s => ?_⟩
  have : check = acceptError i := by
    funext s
    rcases hc with ⟨hd, rfl⟩ | ⟨hk, rfl⟩ | ⟨hd, hk, rfl⟩
    · have hk : isKsDes i = false := by cases i <;> first | rfl | exact absurd hd (by decide)
      by_cases hr : s.opr.rounds.toNat = 16 <;> simp [acceptError, h, hd, hk, hr, desRoundsCheck, rounds_eq_iff]
    · have hd : isDesCipher i = false := by cases i <;> first | rfl | exact absurd hk (by decide)
      simp [acceptError, h, hd, hk, badArgCheck]
    · simp [acceptError, h, hd, hk]
  rw [hx, this]

/-- The mode state that R360 sets is `startMode` (10_state.md R48). -/
theorem runPhase_of_mode {i : Instr} (h : isMode i = true) (s : State) :
    runPhase i s = .mode i (startMode (cipherOf i) s) := by
  have h64 : Cipher.des.trunc (iv s) = s.opr.ivHi ++ s.opr.ivLo := by
    simp [Cipher.trunc, Cipher.blockBits, iv]
  have h32 : ∀ c : Cipher, c.blockBits = 32 → c.trunc (iv s) = (0 : Word) ++ s.opr.ivLo := by
    intro c hc
    refine BitVec.eq_of_getLsbD_eq fun k hk => ?_
    simp only [Cipher.trunc, hc, iv, BitVec.getLsbD_setWidth, BitVec.getLsbD_append]
    by_cases hk' : k < 32 <;> simp [hk, hk']
  have hs := h32 .spn rfl
  have hf := h32 .fei rfl
  cases i <;> first
    | exact absurd h (by decide)
    | simp [runPhase, isMode, Instr.fields, startMode, cipherOf, h64, hs, hf]

theorem runPhase_of_single {i : Instr} (h : isMode i = false) (s : State) : runPhase i s = .single i := by
  simp [runPhase, h]

/-! ### Inversion of `exec` -/

/-- What one event of a command can be: everything `exec` answers next with. -/
inductive ExecCase (i : Instr) (s t : State) : Prop where
  /-- A CMD write ignored entirely (60_exceptions.md R365). -/
  | faulted (hi : s.phase = .idle) (hf : s.status.fault = true) (ht : t = s)
  /-- An accept that raises an error (60_exceptions.md R360, R363, R364). -/
  | raised (code : ErrCode) (hi : s.phase = .idle) (hf : s.status.fault = false) (he : acceptError i s = some code)
      (ht : t = s.clearOutcome.raise code)
  /-- An accept without error (60_exceptions.md R360). -/
  | accepted (hi : s.phase = .idle) (hf : s.status.fault = false) (he : acceptError i s = none)
      (ht : t = s.clearOutcome.withPhase (runPhase i s))
  /-- The complete step of a single operation (40_primitives.md R147). -/
  | completedSingle (v : Block) (hi : s.phase = .single i) (hm : isMode i = false) (ht : t = completeSingle v s)
  /-- An RD step (46_modes.md R301). -/
  | read (ms : ModeState) (hi : s.phase = .mode i ms) (hm : isMode i = true) (hs : ms.stage = .rd)
      (hj : ms.j < blockCount s) (hr : inMemory s (srcAddr (cipherOf i) s ms.j) (cipherOf i).blockBytes = true)
      (ht : t = s.withPhase (.mode i { ms with stage := .wr (inputBlock (cipherOf i) s s.mem ms.j) }))
  /-- A WR step (46_modes.md R302). -/
  | written (ms : ModeState) (inblk : Block) (m : Mode) (hi : s.phase = .mode i ms) (hm : modeOf i = some m)
      (hs : ms.stage = .wr inblk)
      (hr : inMemory s (dstAddr (cipherOf i) s ms.j) (cipherOf i).blockBytes = true)
      (ht : t =
        (s.withMem (s.mem.writeBytes (dstAddr (cipherOf i) s ms.j) (cipherOf i).blockBytes
          (modeBlock m (dirOf i) (encBlock (cipherOf i) s) (decBlock (cipherOf i) s) inblk ms.chain).1.toNat)).withPhase
        (.mode i ⟨ms.j + 1, .rd,
          (modeBlock m (dirOf i) (encBlock (cipherOf i) s) (decBlock (cipherOf i) s) inblk ms.chain).2⟩))
  /-- The complete step of a mode command (46_modes.md R302). -/
  | completedMode (ms : ModeState) (hi : s.phase = .mode i ms) (hm : isMode i = true) (hs : ms.stage = .rd)
      (hj : ¬ ms.j < blockCount s) (ht : t = s.complete)
  /-- A CMD write while another command runs (10_state.md R36). -/
  | overran (hb : s.busy = true) (ht : t = s.overrun)

theorem command_cases {i : Instr} {s t : State} (hi : s.phase = .idle)
    (h : s.command (acceptError i s) (runPhase i s) = t) : ExecCase i s t := by
  unfold State.command at h
  split at h
  · exact .faulted hi ‹_› h.symm
  · rename_i hf
    unfold State.accept at h
    cases he : acceptError i s with
    | some code => rw [he] at h; exact .raised code hi (by simpa using hf) he h.symm
    | none => rw [he] at h; exact .accepted hi (by simpa using hf) he h.symm

/-- Everything one event of a command can do (60_exceptions.md R360, 40_primitives.md R147, 46_modes.md R301, R302). -/
theorem exec_cases {i : Instr} {s t : State} (h : exec i s = .next t) : ExecCase i s t := by
  cases hm : isMode i with
  | false =>
    obtain ⟨result, hx⟩ := exec_of_single hm
    rw [hx, singleCommand] at h
    split at h
    · rename_i hi
      rw [← runPhase_of_single hm s] at h
      exact command_cases hi (Host.Outcome.next.inj h)
    · rename_i op hi
      have h := Host.Outcome.next.inj h
      by_cases hop : op = i
      · rw [if_pos hop] at h
        exact .completedSingle _ (hop ▸ hi) hm h.symm
      · rw [if_neg hop] at h
        exact .overran (by simp [State.busy, hi]) h.symm
    · rename_i hi
      exact .overran (by simp [State.busy, hi]) (Host.Outcome.next.inj h).symm
  | true =>
    obtain ⟨m, hmo⟩ := (isMode_iff_modeOf i).1 hm
    rw [exec_of_mode hmo, modeCommand, modeCheck_eq_acceptError hm, ← runPhase_of_mode hm] at h
    split at h
    · rename_i hi
      exact command_cases hi (Host.Outcome.next.inj h)
    · rename_i hi
      exact .overran (by simp [State.busy, hi]) (Host.Outcome.next.inj h).symm
    · rename_i op ms hi
      by_cases hop : op = i
      · rw [if_pos hop] at h
        obtain rfl := hop
        unfold modeStep at h
        split at h
        · rename_i hs
          split at h
          · rename_i hj
            unfold rdStep readBlock at h
            by_cases hr : inMemory s (srcAddr (cipherOf op) s ms.j) (cipherOf op).blockBytes = true
            · rw [if_pos hr] at h
              exact .read ms hi hm hs hj hr (Host.Outcome.next.inj h).symm
            · rw [if_neg hr] at h
              cases h
          · rename_i hj
            exact .completedMode ms hi hm hs hj (Host.Outcome.next.inj h).symm
        · rename_i inblk hs
          unfold wrStep writeBlock at h
          by_cases hr : inMemory s (dstAddr (cipherOf op) s ms.j) (cipherOf op).blockBytes = true
          · simp only [hr, if_true] at h
            exact .written ms inblk m hi hmo hs hr (Host.Outcome.next.inj h).symm
          · simp only [hr, Bool.false_eq_true, if_false] at h
            cases h
      · rw [if_neg hop] at h
        exact .overran (by simp [State.busy, hi]) (Host.Outcome.next.inj h).symm

/-! ### Inversion of a host event and of a step -/

/-- What a host event can be: everything `hostEvent` answers next with (60_exceptions.md R378). -/
inductive HostCase (s t : State) : Prop where
  /-- No effect: an ignored write (10_state.md R32, R33, 60_exceptions.md R365). -/
  | nothing (ht : t = s)
  /-- A write ignored because a command runs (10_state.md R44). -/
  | overran (hb : s.busy = true) (ht : t = s.overrun)
  /-- The accept of an illegal word (60_exceptions.md R360). -/
  | illegal (hi : s.busy = false) (hf : s.status.fault = false) (ht : t = s.clearOutcome.raise .illegalCmd)
  /-- The accept of a legal word (60_exceptions.md R360). -/
  | command (i : Instr) (hi : s.busy = false) (hf : s.status.fault = false) (hx : exec i s = .next t)
  /-- A write to STATUS (10_state.md R34). -/
  | status (v : Word) (ht : t = s.writeStatus v)
  /-- A write to IRQEN (10_state.md R35). -/
  | irqen (v : Word) (ht : t = s.writeIrqen v)
  /-- A write to an operand register (10_state.md R44). -/
  | operand (o : Operands) (hi : s.busy = false) (ht : t = s.withOpr o)
  /-- A read of a register or of memory (10_state.md R46, 20_memory.md R88). -/
  | read (o : Observation) (ht : t = s.record o)
  /-- A write to memory (20_memory.md R90). -/
  | memory (a : Nat) (bytes : List Byte) (hr : inMemory s a bytes.length = true)
      (ht : t = s.withMem (s.mem.writeList a bytes))
  /-- A turn of `wait` that stays in the loop (30_encoding.md R121). -/
  | waiting (o : Observation) (ht : t = (s.record o).withHost (.wait :: s.host))

theorem cmdWrite_cases {w : Word} {s t : State} (h : cmdWrite w s = .next t) : HostCase s t := by
  unfold cmdWrite at h
  split at h
  · exact .nothing (Host.Outcome.next.inj h).symm
  · rename_i hf
    split at h
    · rename_i hb
      exact .overran hb (Host.Outcome.next.inj h).symm
    · rename_i hb
      split at h
      · exact .command _ (by simpa using hb) (by simpa using hf) h
      · exact .illegal (by simpa using hb) (by simpa using hf) (Host.Outcome.next.inj h).symm

theorem writeReg_cases (off : BitVec 8) (v : Word) (s : State) : HostCase s (writeReg off v s) := by
  unfold writeReg
  split
  · exact .status v rfl
  · exact .irqen v rfl
  · split
    · unfold State.writeOperand
      split
      · exact .overran ‹_› rfl
      · rename_i hb
        exact .operand _ (by simpa using hb) rfl
    · exact .nothing rfl

theorem regWrite_cases {off : BitVec 8} {v : Word} {s t : State} (h : regWrite off v s = .next t) :
    HostCase s t := by
  unfold regWrite at h
  split at h
  · split at h
    · exact cmdWrite_cases h
    · rw [← Host.Outcome.next.inj h]; exact writeReg_cases off v s
  · cases h

theorem regRead_cases {off : BitVec 8} {s t : State} (h : regRead off s = .next t) : HostCase s t := by
  unfold regRead at h
  split at h
  · exact .read _ (Host.Outcome.next.inj h).symm
  · cases h

/-- Everything one host event can do (60_exceptions.md R378). -/
theorem hostEvent_cases {op : HostOp} {s t : State} (h : hostEvent op s = .next t) : HostCase s t := by
  cases op with
  | regWrite off v => exact regWrite_cases h
  | regRead off => exact regRead_cases h
  | busWrite addr bytes v =>
    simp only [hostEvent, busWrite] at h
    split at h
    · split at h
      · exact regWrite_cases h
      · cases h
    · cases h
  | busRead addr bytes =>
    simp only [hostEvent, busRead] at h
    split at h
    · split at h
      · exact regRead_cases h
      · cases h
    · cases h
  | memWrite addr bytes =>
    simp only [hostEvent, hostMemWrite] at h
    split at h
    · exact .memory _ _ ‹_› (Host.Outcome.next.inj h).symm
    · cases h
  | memRead addr n =>
    simp only [hostEvent, hostMemRead] at h
    split at h
    · exact .read _ (Host.Outcome.next.inj h).symm
    · cases h
  | wait =>
    simp only [hostEvent, waitTurn] at h
    split at h
    · exact .waiting _ (Host.Outcome.next.inj h).symm
    · exact .read _ (Host.Outcome.next.inj h).symm

/-- What a step can be: an agent with nothing to do, reset, a host event or an engine step; `sched` is what is left of the
schedule (20_memory.md R90). -/
inductive StepCase (s t : State) : Prop where
  /-- An agent that has nothing to do (log 5). -/
  | idle (sched : List Agent) (ht : t = s.withSchedule sched)
  /-- Reset (70_reset_and_hazards.md R390). -/
  | reset (sched : List Agent) (hs : s.schedule = .platform :: sched) (ht : t = (s.withSchedule sched).resetEvent)
  /-- The host's next event, at the host's turn (20_memory.md R90). -/
  | host (op : HostOp) (rest : List HostOp) (sched : List Agent) (hh : s.host = op :: rest)
      (hx : hostEvent op ((s.withSchedule sched).withHost rest) = .next t) (ha : turnOf s = .host)
  /-- The running command's engine step, at the engine's turn (60_exceptions.md R378). -/
  | engine (i : Instr) (sched : List Agent) (hr : runningCommand s = some i)
      (hx : exec i (s.withSchedule sched) = .next t) (ha : turnOf s = .engine)

theorem agentStep_cases {a : Agent} {s t : State} {sched : List Agent} (hturn : turnOf s = a)
    (ha : a = .platform → s.schedule = .platform :: sched) (h : agentStep a (s.withSchedule sched) = .next t) :
    StepCase s t := by
  cases a with
  | host =>
    simp only [agentStep, hostStep] at h
    split at h
    · exact .idle sched (Host.Outcome.next.inj h).symm
    · rename_i op rest hh
      exact .host op rest sched hh h hturn
  | engine =>
    simp only [agentStep, engineStep, State.withSchedule_phase] at h
    split at h
    · exact .idle sched (Host.Outcome.next.inj h).symm
    · rename_i i hi
      exact .engine i sched (by rw [runningCommand, hi]) h hturn
    · rename_i i ms hi
      exact .engine i sched (by rw [runningCommand, hi]) h hturn
  | platform => exact .reset sched (ha rfl) (Host.Outcome.next.inj h).symm

/-- Everything a step can do (20_memory.md R90, 60_exceptions.md R378). -/
theorem step_cases {s t : State} (h : step s = .next t) : StepCase s t := by
  unfold step at h
  split at h
  · rename_i a rest hs
    exact agentStep_cases (by rw [turnOf, hs]) (fun ha => by rw [hs, ha]) h
  · rename_i hs
    have hw : s.withSchedule [] = s := by rw [← hs]; rfl
    refine agentStep_cases (sched := []) (a := defaultAgent s) (by rw [turnOf, hs]) (fun ha => ?_) (by rw [hw]; exact h)
    unfold defaultAgent at ha
    split at ha <;> cases ha

/-- A running command is what makes the engine BUSY (10_state.md R47). -/
theorem busy_of_running {s : State} {i : Instr} (h : runningCommand s = some i) : s.busy = true := by
  unfold runningCommand at h
  unfold State.busy
  split at h <;> simp_all

end Sys2Proof.Machine
end

