-- ==== Sys2Proof/Laws/Commands.lean ====
section
/-! SUPPORT. What each command does at its own engine steps, in one line each: the complete step of the single operations
(spec 40_primitives.md R147) and the RD, WR and complete steps of the mode commands (46_modes.md R301, R302); operand
assembly (30_encoding.md R116). -/

namespace Sys2Proof.Machine

/-! ### The accept -/

/-- At an IDLE engine without FAULT, a command is its accept (60_exceptions.md R360). -/
theorem exec_idle {i : Instr} {s : State} (hp : s.phase = .idle) :
    exec i s = .next (s.command (acceptError i s) (runPhase i s)) := by
  cases hm : isMode i with
  | false =>
    obtain ⟨r, hr⟩ := exec_of_single hm
    rw [hr, singleCommand, hp, runPhase_of_single hm]
  | true =>
    obtain ⟨m, hmo⟩ := (isMode_iff_modeOf i).1 hm
    rw [exec_of_mode hmo, modeCommand, hp, modeCheck_eq_acceptError hm, runPhase_of_mode hm]

/-! ### The complete step of a single operation -/

theorem singleCommand_done {s : State} {i : Instr} {check : State → Option ErrCode} {result : State → Block}
    (h : s.phase = .single i) : singleCommand i check result s = .next (singleDone (result s) s) := by
  rw [singleCommand, h]; simp only [if_true]; rfl

theorem execPermSpn_done {s : State} (h : s.phase = .single .permSpn) :
    exec .permSpn s = .next (singleDone ((permute (dinLow 32 s) (pStraight s.cfg.val)).setWidth 64) s) := by
  rw [show exec .permSpn s = execPermSpn s from rfl, execPermSpn, singleCommand_done h]

theorem execPermSpnRev_done {s : State} (h : s.phase = .single .permSpnRev) :
    exec .permSpnRev s = .next (singleDone ((permute (dinLow 32 s) (pReverse s.cfg.val)).setWidth 64) s) := by
  rw [show exec .permSpnRev s = execPermSpnRev s from rfl, execPermSpnRev, singleCommand_done h]

theorem execPermFei_done {s : State} (h : s.phase = .single .permFei) :
    exec .permFei s = .next (singleDone ((permute (dinLow 16 s) (pF s.cfg.val)).setWidth 64) s) := by
  rw [show exec .permFei s = execPermFei s from rfl, execPermFei, singleCommand_done h]

theorem execPermFeiRev_done {s : State} (h : s.phase = .single .permFeiRev) :
    exec .permFeiRev s = .next (singleDone ((permute (dinLow 16 s) (pFRev s.cfg.val)).setWidth 64) s) := by
  rw [show exec .permFeiRev s = execPermFeiRev s from rfl, execPermFeiRev, singleCommand_done h]

theorem execPermDesIp_done {s : State} (h : s.phase = .single .permDesIp) :
    exec .permDesIp s = .next (singleDone ((permuteDes 64 (dinLow 64 s) desIp).setWidth 64) s) := by
  rw [show exec .permDesIp s = execPermDesIp s from rfl, execPermDesIp, singleCommand_done h]

theorem execPermDesFp_done {s : State} (h : s.phase = .single .permDesFp) :
    exec .permDesFp s = .next (singleDone ((permuteDes 64 (dinLow 64 s) desFp).setWidth 64) s) := by
  rw [show exec .permDesFp s = execPermDesFp s from rfl, execPermDesFp, singleCommand_done h]

theorem execPermDesE_done {s : State} (h : s.phase = .single .permDesE) :
    exec .permDesE s = .next (singleDone ((permuteDes 48 (dinLow 32 s) desE).setWidth 64) s) := by
  rw [show exec .permDesE s = execPermDesE s from rfl, execPermDesE, singleCommand_done h]

theorem execPermDesP_done {s : State} (h : s.phase = .single .permDesP) :
    exec .permDesP s = .next (singleDone ((permuteDes 32 (dinLow 32 s) desP).setWidth 64) s) := by
  rw [show exec .permDesP s = execPermDesP s from rfl, execPermDesP, singleCommand_done h]

theorem execPermDesPc1_done {s : State} (h : s.phase = .single .permDesPc1) :
    exec .permDesPc1 s = .next (singleDone ((permuteDes 56 (dinLow 64 s) desPc1).setWidth 64) s) := by
  rw [show exec .permDesPc1 s = execPermDesPc1 s from rfl, execPermDesPc1, singleCommand_done h]

theorem execPermDesPc2_done {s : State} (h : s.phase = .single .permDesPc2) :
    exec .permDesPc2 s = .next (singleDone ((permuteDes 48 (dinLow 56 s) desPc2).setWidth 64) s) := by
  rw [show exec .permDesPc2 s = execPermDesPc2 s from rfl, execPermDesPc2, singleCommand_done h]

theorem execSubstSpn_done {s : State} (h : s.phase = .single .substSpn) :
    exec .substSpn s = .next (singleDone ((substitute (dinLow 32 s) (sStraight s.cfg.val)).setWidth 64) s) := by
  rw [show exec .substSpn s = execSubstSpn s from rfl, execSubstSpn, singleCommand_done h]

theorem execSubstSpnRev_done {s : State} (h : s.phase = .single .substSpnRev) :
    exec .substSpnRev s = .next (singleDone ((substitute (dinLow 32 s) (sReverse s.cfg.val)).setWidth 64) s) := by
  rw [show exec .substSpnRev s = execSubstSpnRev s from rfl, execSubstSpnRev, singleCommand_done h]

theorem execSubstFei_done {s : State} (h : s.phase = .single .substFei) :
    exec .substFei s = .next (singleDone ((substitute (dinLow 16 s) (sF s.cfg.val)).setWidth 64) s) := by
  rw [show exec .substFei s = execSubstFei s from rfl, execSubstFei, singleCommand_done h]

theorem execSubstFeiRev_done {s : State} (h : s.phase = .single .substFeiRev) :
    exec .substFeiRev s = .next (singleDone ((substitute (dinLow 16 s) (sFRev s.cfg.val)).setWidth 64) s) := by
  rw [show exec .substFeiRev s = execSubstFeiRev s from rfl, execSubstFeiRev, singleCommand_done h]

theorem execSubstDes_done {s : State} (h : s.phase = .single .substDes) :
    exec .substDes s = .next (singleDone ((substituteDes (dinLow 48 s)).setWidth 64) s) := by
  rw [show exec .substDes s = execSubstDes s from rfl, execSubstDes, singleCommand_done h]

theorem execKsSpn_done {s : State} (h : s.phase = .single .ksSpn) :
    exec .ksSpn s = .next (singleDone ((rkSpn (keySpn s) (ksIndex s)).setWidth 64) s) := by
  rw [show exec .ksSpn s = execKsSpn s from rfl, execKsSpn, singleCommand_done h]

theorem execKsFei_done {s : State} (h : s.phase = .single .ksFei) :
    exec .ksFei s = .next (singleDone ((rkFei (keyFei s) (ksIndex s)).setWidth 64) s) := by
  rw [show exec .ksFei s = execKsFei s from rfl, execKsFei, singleCommand_done h]

theorem execKsDes_done {s : State} (h : s.phase = .single .ksDes) :
    exec .ksDes s = .next (singleDone ((rkDes (key s) (ksIndex s + 1)).setWidth 64) s) := by
  rw [show exec .ksDes s = execKsDes s from rfl, execKsDes, singleCommand_done h]

theorem execBlkEncSpn_done {s : State} (h : s.phase = .single .blkEncSpn) :
    exec .blkEncSpn s = .next (singleDone (encBlock .spn s (din s)) s) := by
  rw [show exec .blkEncSpn s = execBlkEncSpn s from rfl, execBlkEncSpn, singleCommand_done h]

theorem execBlkDecSpn_done {s : State} (h : s.phase = .single .blkDecSpn) :
    exec .blkDecSpn s = .next (singleDone (decBlock .spn s (din s)) s) := by
  rw [show exec .blkDecSpn s = execBlkDecSpn s from rfl, execBlkDecSpn, singleCommand_done h]

theorem execBlkEncFei_done {s : State} (h : s.phase = .single .blkEncFei) :
    exec .blkEncFei s = .next (singleDone (encBlock .fei s (din s)) s) := by
  rw [show exec .blkEncFei s = execBlkEncFei s from rfl, execBlkEncFei, singleCommand_done h]

theorem execBlkDecFei_done {s : State} (h : s.phase = .single .blkDecFei) :
    exec .blkDecFei s = .next (singleDone (decBlock .fei s (din s)) s) := by
  rw [show exec .blkDecFei s = execBlkDecFei s from rfl, execBlkDecFei, singleCommand_done h]

theorem execBlkEncDes_done {s : State} (h : s.phase = .single .blkEncDes) :
    exec .blkEncDes s = .next (singleDone (encBlock .des s (din s)) s) := by
  rw [show exec .blkEncDes s = execBlkEncDes s from rfl, execBlkEncDes, singleCommand_done h]

theorem execBlkDecDes_done {s : State} (h : s.phase = .single .blkDecDes) :
    exec .blkDecDes s = .next (singleDone (decBlock .des s (din s)) s) := by
  rw [show exec .blkDecDes s = execBlkDecDes s from rfl, execBlkDecDes, singleCommand_done h]

/-! ### Operands -/

/-- Up to 32 bits, `DIN[w-1:0]` is the low part of DIN_LO (30_encoding.md R116). -/
theorem dinLow_of_le {w : Nat} (h : w ≤ 32) (s : State) : dinLow w s = s.opr.dinLo.setWidth w := by
  refine BitVec.eq_of_getLsbD_eq fun i hi => ?_
  simp only [dinLow, din, BitVec.getLsbD_setWidth, BitVec.getLsbD_append, hi, decide_true, Bool.true_and,
    show i < 32 by omega, if_true]

/-- Above 32 bits, `DIN[w-1:0]` is the low part of DIN_HI above DIN_LO (30_encoding.md R116). -/
theorem dinLow_of_ge (w : Nat) (s : State) : dinLow (w + 32) s = s.opr.dinHi.setWidth w ++ s.opr.dinLo := by
  refine BitVec.eq_of_getLsbD_eq fun i hi => ?_
  simp only [dinLow, din, BitVec.getLsbD_setWidth, BitVec.getLsbD_append, hi, decide_true, Bool.true_and]
  by_cases h32 : i < 32
  · simp [h32]
  · simp [h32, show i - 32 < w by omega]

theorem dinLow_64 (s : State) : dinLow 64 s = s.opr.dinHi ++ s.opr.dinLo := by
  rw [dinLow, BitVec.setWidth_eq, din]

theorem keySpn_eq (s : State) : keySpn s = s.opr.keyLo := by
  refine BitVec.eq_of_getLsbD_eq fun i hi => ?_
  simp only [keySpn, key, BitVec.getLsbD_setWidth, BitVec.getLsbD_append, hi, decide_true, Bool.true_and, if_true]

theorem keyFei_eq (s : State) : keyFei s = s.opr.keyLo.setWidth 16 := by
  refine BitVec.eq_of_getLsbD_eq fun i hi => ?_
  simp only [keyFei, key, BitVec.getLsbD_setWidth, BitVec.getLsbD_append, hi, decide_true, Bool.true_and,
    show i < 32 by omega, if_true]

/-- `DIN[31:0]` of a BLK command with a 32-bit block (30_encoding.md R116). -/
theorem din_setWidth_32 (s : State) : (din s).setWidth 32 = s.opr.dinLo := by
  have h := dinLow_of_le (w := 32) (Nat.le_refl _) s
  rwa [dinLow, BitVec.setWidth_eq] at h

/-- The index of a KS command is DIN_LO (30_encoding.md R116). -/
theorem ksIndex_eq (s : State) : ksIndex s = s.opr.dinLo.toNat := by
  rw [ksIndex, dinLow_of_le (Nat.le_refl _), BitVec.setWidth_eq]

/-! ### The engine steps of the mode commands -/

/-- The engine's turn at a running command is that command's own step (60_exceptions.md R378). -/
theorem engineStep_mode {s : State} {i : Instr} {ms : ModeState} (h : s.phase = .mode i ms) :
    engineStep s = exec i s := by
  rw [engineStep, h]

theorem engineStep_single {s : State} {i : Instr} (h : s.phase = .single i) : engineStep s = exec i s := by
  rw [engineStep, h]

/-- RD step (46_modes.md R301). -/
theorem exec_read {s : State} {i : Instr} {j : Nat} {ch : Block} (hm : isMode i = true)
    (hp : s.phase = .mode i ⟨j, .rd, ch⟩) (hj : j < blockCount s)
    (hr : srcAddr (cipherOf i) s j + (cipherOf i).blockBytes ≤ memSize s) :
    exec i s = .next (s.withPhase (.mode i ⟨j, .wr (inputBlock (cipherOf i) s s.mem j), ch⟩)) := by
  obtain ⟨m, hmo⟩ := (isMode_iff_modeOf i).1 hm
  have hi : inMemory s (srcAddr (cipherOf i) s j) (cipherOf i).blockBytes = true := by simpa [inMemory] using hr
  rw [exec_of_mode hmo, modeCommand, hp]
  simp only [if_true, modeStep, if_pos hj, rdStep, readBlock, hi]
  rfl

/-- WR step (46_modes.md R302). -/
theorem exec_write {s : State} {i : Instr} {m : Mode} {j : Nat} {b ch : Block} (hmo : modeOf i = some m)
    (hp : s.phase = .mode i ⟨j, .wr b, ch⟩)
    (hr : dstAddr (cipherOf i) s j + (cipherOf i).blockBytes ≤ memSize s) :
    exec i s = .next ((s.withMem (s.mem.writeBytes (dstAddr (cipherOf i) s j) (cipherOf i).blockBytes
        (modeBlock m (dirOf i) (encBlock (cipherOf i) s) (decBlock (cipherOf i) s) b ch).1.toNat)).withPhase
      (.mode i ⟨j + 1, .rd, (modeBlock m (dirOf i) (encBlock (cipherOf i) s) (decBlock (cipherOf i) s) b ch).2⟩)) := by
  have hi : inMemory s (dstAddr (cipherOf i) s j) (cipherOf i).blockBytes = true := by simpa [inMemory] using hr
  rw [exec_of_mode hmo, modeCommand, hp]
  simp only [if_true, modeStep, wrStep, writeBlock, hi]

/-- Complete step of a mode command (46_modes.md R302). -/
theorem exec_modeDone {s : State} {i : Instr} {j : Nat} {ch : Block} (hm : isMode i = true)
    (hp : s.phase = .mode i ⟨j, .rd, ch⟩) (hj : ¬ j < blockCount s) : exec i s = .next (modeDone s) := by
  obtain ⟨m, hmo⟩ := (isMode_iff_modeOf i).1 hm
  rw [exec_of_mode hmo, modeCommand, hp]
  simp only [if_true, modeStep, if_neg hj]
  rfl

/-- Byte k of a stored block is bits 8k+7:8k of it (20_memory.md R84). -/
theorem ofNat_div_pow_eq_extract (v : Block) (k : Nat) :
    BitVec.ofNat 8 (v.toNat / 256 ^ k) = v.extractLsb' (8 * k) 8 := by
  apply BitVec.eq_of_toNat_eq
  rw [BitVec.toNat_ofNat, BitVec.extractLsb'_toNat, Nat.shiftRight_eq_div_pow, Nat.pow_mul]

end Sys2Proof.Machine
end

