-- ==== Sys2Proof/Laws/Bits.lean ====
section
/-! SUPPORT. Values as sums of their bits and nibbles, the transforms in the indices of their rules, and the DES key registers bit by bit
(spec 40_primitives.md R140 to R145, 41_key_schedule.md R170 to R173). -/

namespace Sys2Proof.Machine

/-! ### Bits, nibbles and tables -/

/-- A value is the sum of its bits. -/
theorem sum_bits {w : Nat} (x : BitVec w) : x.toNat = ∑ i ∈ Finset.range w, (x.getLsbD i).toNat * 2 ^ i := by
  have key : ∀ (n y : Nat), y < 2 ^ n → y = ∑ i ∈ Finset.range n, (y.testBit i).toNat * 2 ^ i := by
    intro n
    induction n with
    | zero => intro y hy; simp at hy; simp [hy]
    | succ n ih =>
      intro y hy
      rw [Finset.sum_range_succ']
      have := ih (y / 2) (by omega)
      simp only [Nat.testBit_div_two] at this
      have h2 : ∑ k ∈ Finset.range n, (y.testBit (k + 1)).toNat * 2 ^ (k + 1) = 2 * (y / 2) := by
        rw [this, Finset.mul_sum]
        refine Finset.sum_congr rfl fun k _ => ?_
        rw [Nat.pow_succ]; ring
      rw [h2]
      have h3 : (y.testBit 0).toNat = y % 2 := by
        rw [Nat.testBit_zero]; rcases Nat.mod_two_eq_zero_or_one y with h | h <;> simp [h]
      rw [h3]; omega
  exact key w x.toNat x.isLt

/-- Nibble j as a quotient and remainder. -/
theorem extract_nibble {w : Nat} (x : BitVec w) (j : Nat) : (x.extractLsb' (4 * j) 4).toNat = x.toNat / 16 ^ j % 16 := by
  rw [BitVec.extractLsb'_toNat, Nat.shiftRight_eq_div_pow, Nat.pow_mul]

/-- A value is the sum of its nibbles. -/
theorem sum_nibbles (n y : Nat) (hy : y < 16 ^ n) : y = ∑ j ∈ Finset.range n, (y / 16 ^ j % 16) * 2 ^ (4 * j) := by
  induction n generalizing y with
  | zero => simp at hy; simp [hy]
  | succ n ih =>
    rw [Finset.sum_range_succ']
    have := ih (y / 16) (by rw [Nat.pow_succ] at hy; omega)
    have h2 : ∑ k ∈ Finset.range n, (y / 16 ^ (k + 1) % 16) * 2 ^ (4 * (k + 1)) = 16 * (y / 16) := by
      rw [this, Finset.mul_sum]
      refine Finset.sum_congr rfl fun k _ => ?_
      rw [Nat.div_div_eq_div_mul, Nat.pow_succ', show 4 * (k + 1) = 4 * k + 4 by ring, Nat.pow_add]; ring
    rw [h2]; simp; omega

/-- Values with the same nibbles are equal. -/
theorem eq_of_nibbles {n : Nat} {x y : BitVec (4 * n)}
    (h : ∀ j, j < n → (x.extractLsb' (4 * j) 4).toNat = (y.extractLsb' (4 * j) 4).toNat) : x = y := by
  apply BitVec.eq_of_toNat_eq
  have hx : x.toNat < 16 ^ n := by have := x.isLt; rwa [Nat.pow_mul] at this
  have hy : y.toNat < 16 ^ n := by have := y.isLt; rwa [Nat.pow_mul] at this
  rw [sum_nibbles n _ hx, sum_nibbles n _ hy]
  refine Finset.sum_congr rfl fun j hj => ?_
  rw [← extract_nibble, ← extract_nibble, h j (by simpa using hj)]

/-- A nibble is below 16. -/
theorem nibble_lt {w : Nat} (x : BitVec w) (j : Nat) : (x.extractLsb' (4 * j) 4).toNat < 16 :=
  (x.extractLsb' (4 * j) 4).isLt

/-- A table entry of the configuration, read from its list. -/
theorem getD_table {n : Nat} (v : Vector (Fin n) n) (i : Fin n) (d : Nat) :
    (v.toList.map Fin.val).getD i d = (v.get i).val := by
  rw [List.getD_eq_getElem _ _ (by simp)]; simp [Vector.get]

/-- The inverse table undoes the table (40_primitives.md R143). -/
theorem inv_table {n : Nat} {T : List Nat} (h : IsTable n T) (i : Nat) (hi : i < n) (d : Nat) :
    (inverseTable T).getD (T.getD i 0) d = i := by
  have hl : i < T.length := by rw [h.length]; exact hi
  have hlt : T[i] < (inverseTable T).length := by
    rw [inverseTable_length, h.length]; exact h.getElem_lt hi
  rw [List.getD_eq_getElem _ _ hl, List.getD_eq_getElem _ _ hlt]
  exact h.inverse_getElem hi

/-- The table undoes the inverse table (40_primitives.md R143). -/
theorem table_inv {n : Nat} {T : List Nat} (h : IsTable n T) (v : Nat) (hv : v < n) (d : Nat) :
    T.getD ((inverseTable T).getD v 0) d = v := by
  have hl : v < (inverseTable T).length := by rw [inverseTable_length, h.length]; exact hv
  rw [List.getD_eq_getElem _ _ hl]
  have hlt : (inverseTable T)[v] < T.length := by
    rw [h.length]; exact h.inverse.getElem_lt hv
  rw [List.getD_eq_getElem _ _ hlt]
  exact h.getElem_inverse hv

/-- An entry of a table of n is below n. -/
theorem IsTable.getD_lt' {n : Nat} {T : List Nat} (h : IsTable n T) {i : Nat} (hi : i < n) : T.getD i 0 < n := by
  rw [List.getD_eq_getElem _ _ (by rw [h.length]; exact hi)]; exact h.getElem_lt hi

/-! ### Transforms -/

/-- Output bit i of `permute` is input bit `T[i]` (40_primitives.md R140). -/
theorem getLsbD_permuteD {w : Nat} (x : BitVec w) {T : List Nat} (hT : T.length = w) {i : Nat} (hi : i < w) :
    (permute x T).getLsbD i = x.getLsbD (T.getD i 0) := by
  rw [getLsbD_permute x hi (by omega), List.getD_eq_getElem _ _ (by omega)]

/-- Output DES bit j + 1 of `permuteDes` (40_primitives.md R144). -/
theorem permDes_bit (m n : Nat) (x : BitVec m) (T : List Nat) (hT : T.length = n) (j : Nat) (hj : j < n) :
    desBit (permuteDes n x T) (j + 1) = desBit x ((T.getD j 0 - 1) % m + 1) := by
  rw [desBit, show n - (j + 1) = n - 1 - j by omega, getLsbD_permuteDes n x hT hj, desBit, desPosition,
    List.getD_eq_getElem _ _ (by omega)]

/-- The same for a table whose entries are DES bits of the input. -/
theorem permDes_bit' (m n : Nat) (x : BitVec m) (T : List Nat) (hT : T.length = n) (hr : ∀ j, j < n → 1 ≤ T.getD j 0 ∧ T.getD j 0 ≤ m) (j : Nat) (hj : j < n) :
    desBit (permuteDes n x T) (j + 1) = desBit x (T.getD j 0) := by
  rw [permDes_bit m n x T hT j hj, Nat.mod_eq_of_lt (by have := hr j hj; omega), show T.getD j 0 - 1 + 1 = T.getD j 0 by have := hr j hj; omega]

/-- Values with the same DES bits are equal (00_scope.md R11). -/
theorem desBit_ext {m : Nat} {x y : BitVec m} (h : ∀ j, j < m → desBit x (j + 1) = desBit y (j + 1)) : x = y := by
  refine BitVec.eq_of_getLsbD_eq fun i hi => ?_
  have := h (m - 1 - i) (by omega)
  rwa [desBit, desBit, show m - (m - 1 - i + 1) = i by omega] at this

/-- FP undoes IP and IP undoes FP, entry by entry (45_des_tables.md). -/
theorem desIpFp : (∀ j, j < 64 → (desIp.getD ((desFp.getD j 0 - 1) % 64) 0 - 1) % 64 = j) ∧
    (∀ j, j < 64 → (desFp.getD ((desIp.getD j 0 - 1) % 64) 0 - 1) % 64 = j) := by decide

/-- Nibble j of `substitute` (40_primitives.md R142). -/
theorem subst_lane {n : Nat} (x : BitVec (4 * n)) {S : List Nat} (hS : ∀ v, S.getD v 0 < 16) {j : Nat} (hj : j < n) :
    ((substitute x S).extractLsb' (4 * j) 4).toNat = S.getD (x.extractLsb' (4 * j) 4).toNat 0 := by
  rw [extract_nibble, extract_nibble, substitute_nibble x hS hj]

/-- An S-box entry by a four-bit value. -/
theorem sbox_get (v : Vector (Fin 16) 16) (x : BitVec 4) : (v.get x.toFin).val = (v.toList.map Fin.val).getD x.toNat 0 := by
  rw [← getD_table v x.toFin 0]; rfl

/-- An entry of a DES S-box is below 16. -/
theorem desBox_lt : ∀ S ∈ desSboxes, ∀ c < 64, desBox S c < 16 := by decide +kernel

/-- The eight DES S-boxes, chunk by chunk (40_primitives.md R145). -/
theorem substChunks_eq (L : List (List (List Nat))) (x : Nat) (hL : L.length = 8) :
    substChunks L x = ∑ k ∈ Finset.range 8, desBox (L.getD k []) (x / 64 ^ k % 64) * 16 ^ k := by
  have key : ∀ (L : List (List (List Nat))) (x : Nat), substChunks L x = ∑ k ∈ Finset.range L.length, desBox (L.getD k []) (x / 64 ^ k % 64) * 16 ^ k := by
    intro L
    induction L with
    | nil => intro x; rfl
    | cons S L ih =>
      intro x
      rw [substChunks, ih, List.length_cons, Finset.sum_range_succ', Finset.mul_sum, add_comm]
      congr 1
      · refine Finset.sum_congr rfl fun k _ => ?_
        rw [List.getD_cons_succ, Nat.div_div_eq_div_mul, ← Nat.pow_succ', Nat.pow_succ]; ring
      · simp
  rw [key L x, hL]

/-! ### Round keys -/

/-- Bit k of a right rotation. -/
theorem getLsbD_ror {w : Nat} (x : BitVec w) (r k : Nat) (hw : 0 < w) (hk : k < w) :
    (x.rotateRight (r % w)).getLsbD k = x.getLsbD ((k + r) % w) := by
  have hr : r % w < w := Nat.mod_lt _ hw
  rw [BitVec.getLsbD_rotateRight, Nat.mod_mod, ← Nat.add_mod_mod, Bool.cond_decide]
  generalize r % w = q at *
  split
  · rw [Nat.mod_eq_of_lt (by omega), Nat.add_comm]
  · rw [Nat.mod_eq_sub_mod (by omega), Nat.mod_eq_of_lt (by omega)]
    simp only [hk, decide_true, Bool.true_and]
    congr 1; omega

/-- Rotation by nothing. -/
theorem ror_zero {w : Nat} (x : BitVec w) : x.rotateRight 0 = x := by
  refine BitVec.eq_of_getLsbD_eq fun k hk => ?_
  have := getLsbD_ror x 0 k (by omega) hk
  rwa [Nat.zero_mod, Nat.add_zero, Nat.mod_eq_of_lt hk] at this

/-- DES bit j + 1 of a left rotation of a half (41_key_schedule.md R172). -/
theorem desBit_rol (x : BitVec 28) (r j : Nat) (hj : j < 28) (hr : r < 28) :
    desBit (x.rotateLeft r) (j + 1) = desBit x ((j + r) % 28 + 1) := by
  rw [desBit, BitVec.getLsbD_rotateLeft, Nat.mod_eq_of_lt hr, desBit, Bool.cond_decide]
  split
  · rw [Nat.mod_eq_sub_mod (by omega), Nat.mod_eq_of_lt (by omega)]; congr 1; omega
  · rw [Nat.mod_eq_of_lt (by omega)]
    simp only [show (28 - (j+1) < 28) by omega, decide_true, Bool.true_and]; congr 1; omega

/-- The places that the halves have moved after n rounds. -/
def shiftSum : Nat → Nat
  | 0 => 0
  | n + 1 => shiftSum n + desShift (n + 1)

/-- A round moves the halves by less than their width. -/
theorem desShift_lt (n : Nat) : desShift n < 28 := by unfold desShift; split <;> decide

/-- The C half after n rounds is the first one moved. -/
theorem desC_bit (K : Block) (n j : Nat) (hj : j < 28) :
    desBit (desC K n) (j + 1) = desBit (desC K 0) ((j + shiftSum n) % 28 + 1) := by
  induction n generalizing j with
  | zero => simp [shiftSum, Nat.mod_eq_of_lt hj]
  | succ n ih =>
    rw [show desC K (n + 1) = (desC K n).rotateLeft (desShift (n + 1)) from rfl, desBit_rol _ _ _ hj (desShift_lt _),
      ih _ (Nat.mod_lt _ (by decide)), shiftSum]
    congr 2
    omega

/-- The D half after n rounds is the first one moved. -/
theorem desD_bit (K : Block) (n j : Nat) (hj : j < 28) :
    desBit (desD K n) (j + 1) = desBit (desD K 0) ((j + shiftSum n) % 28 + 1) := by
  induction n generalizing j with
  | zero => simp [shiftSum, Nat.mod_eq_of_lt hj]
  | succ n ih =>
    rw [show desD K (n + 1) = (desD K n).rotateLeft (desShift (n + 1)) from rfl, desBit_rol _ _ _ hj (desShift_lt _),
      ih _ (Nat.mod_lt _ (by decide)), shiftSum]
    congr 2
    omega

/-- DES bits 1 .. 28 of C ++ D. -/
theorem desBit_append_hi (x y : BitVec 28) (j : Nat) (hj : j < 28) :
    desBit (x ++ y : BitVec 56) (j + 1) = desBit x (j + 1) := by
  rw [desBit, desBit]
  have : (x ++ y).getLsbD (56 - (j + 1)) = x.getLsbD (28 - (j + 1)) := by
    rw [BitVec.getLsbD_append, if_neg (by omega)]; congr 1; omega
  exact this

/-- DES bits 29 .. 56 of C ++ D. -/
theorem desBit_append_lo (x y : BitVec 28) (j : Nat) (hj : j < 28) :
    desBit (x ++ y : BitVec 56) (28 + j + 1) = desBit y (j + 1) := by
  rw [desBit, desBit]
  have : (x ++ y).getLsbD (56 - (28 + j + 1)) = y.getLsbD (28 - (j + 1)) := by
    rw [BitVec.getLsbD_append, if_pos (by omega)]; congr 1; omega
  exact this

/-- The first C half. -/
theorem desC0_bit (K : Block) (j : Nat) (hj : j < 28) : desBit (desC K 0) (j + 1) = desBit K (desPc1.getD j 0) := by
  rw [← permDes_bit' 64 56 K desPc1 rfl (by decide) j (by omega), desBit, desBit, desC, BitVec.getLsbD_extractLsb']
  simp only [show 28 - (j + 1) < 28 by omega, decide_true, Bool.true_and]; congr 1; omega

/-- The first D half. -/
theorem desD0_bit (K : Block) (j : Nat) (hj : j < 28) : desBit (desD K 0) (j + 1) = desBit K (desPc1.getD (28 + j) 0) := by
  rw [← permDes_bit' 64 56 K desPc1 rfl (by decide) (28 + j) (by omega), desBit, desBit, desD, BitVec.getLsbD_extractLsb']
  simp only [show 28 - (j + 1) < 28 by omega, decide_true, Bool.true_and]; congr 1; omega

/-! ### Halves of a block -/

/-- Joining swaps the halves (43_feistel32.md). -/
theorem feiSplit_join (p : BitVec 16 × BitVec 16) : feiSplit (feiJoin p) = p.swap := by
  obtain ⟨l, h⟩ := p
  refine Prod.ext (BitVec.eq_of_getLsbD_eq fun i hi => ?_) (BitVec.eq_of_getLsbD_eq fun i hi => ?_)
  · simp only [feiSplit, feiJoin, Prod.swap, BitVec.getLsbD_extractLsb', BitVec.getLsbD_append, hi, decide_true, Bool.true_and]
    rw [if_neg (by omega)]; congr 1; omega
  · simp only [feiSplit, feiJoin, Prod.swap, BitVec.getLsbD_extractLsb', BitVec.getLsbD_append, hi, decide_true, Bool.true_and]
    rw [if_pos (by omega)]; congr 1; omega

/-- Splitting and joining the other way round. -/
theorem feiJoin_split (b : BitVec 32) : feiJoin (feiSplit b).swap = b := by
  refine BitVec.eq_of_getLsbD_eq fun i hi => ?_
  simp only [feiSplit, feiJoin, Prod.swap, BitVec.getLsbD_append, BitVec.getLsbD_extractLsb']
  by_cases h : i < 16
  · simp [h]
  · simp only [h, if_false, show i - 16 < 16 by omega, decide_true, Bool.true_and]; congr 1; omega

/-- A block is its two words. -/
theorem join32 (x : Block) : (x.extractLsb' 32 32 ++ x.extractLsb' 0 32 : Block) = x := by
  refine BitVec.eq_of_getLsbD_eq fun i hi => ?_
  have e : ∀ (a b : BitVec 32), (a ++ b : Block).getLsbD i = if i < 32 then b.getLsbD i else a.getLsbD (i - 32) :=
    fun a b => BitVec.getLsbD_append
  rw [e]
  simp only [BitVec.getLsbD_extractLsb']
  by_cases h : i < 32
  · simp [h]
  · simp only [h, if_false, show i - 32 < 32 by omega, decide_true, Bool.true_and]; congr 1; omega

end Sys2Proof.Machine
end

