-- ==== Sys2Proof/Laws/Run.lean ====
section
/-! SUPPORT. A whole mode command, engine step by engine step, when the host stays away (spec 46_modes.md R301, R302,
20_memory.md R92). -/

namespace Sys2Proof.Machine

/-- Engine steps in a row compose. -/
theorem engineSteps_add {a b : Nat} {s t : State} (h : engineSteps a s = .next t) :
    engineSteps (a + b) s = engineSteps b t := by
  induction a generalizing s with
  | zero => rw [engineSteps] at h; cases h; rw [Nat.zero_add]
  | succ a ih =>
    rw [Nat.add_right_comm, engineSteps]
    rw [engineSteps] at h
    split at h
    · exact ih h
    · cases h
    · cases h

/-- A command accepted without error has every block of both buffers in the data memory (20_memory.md R86). -/
theorem blocks_inMemory {i : Instr} {s : State} (hm : isMode i = true) (he : acceptError i s = none) {j : Nat}
    (hj : j < blockCount s) :
    srcAddr (cipherOf i) s j + (cipherOf i).blockBytes ≤ memSize s ∧
      dstAddr (cipherOf i) s j + (cipherOf i).blockBytes ≤ memSize s := by
  have hb : fieldBytes i = (cipherOf i).blockBytes := by cases i <;> rfl
  have hk : isKsDes i = false := by cases i <;> first | rfl | exact absurd hm (by decide)
  have h0 : s.opr.count.toNat > 0 := Nat.lt_of_le_of_lt (Nat.zero_le _) hj
  have h1 : (j + 1) * (cipherOf i).blockBytes ≤ s.opr.count.toNat * (cipherOf i).blockBytes :=
    Nat.mul_le_mul_right _ hj
  rw [Nat.add_mul] at h1
  rw [acceptError, hk, hm, hb] at he
  split at he
  · cases he
  · rw [if_neg (by simp), if_pos ⟨rfl, h0⟩] at he
    split at he
    · cases he
    · split at he
      · cases he
      · rename_i hr
        simp only [srcAddr, dstAddr, memSize]
        omega

/-- The accept leads to the state in which no block is done. -/
theorem accepted_eq_afterState {i : Instr} {m : Mode} {s : State} (hmo : modeOf i = some m) :
    { s with status := clearedStatus s, phase := runPhase i s } = afterState i m s 0 := by
  have hm : isMode i = true := (isMode_iff_modeOf i).2 ⟨m, hmo⟩
  rw [runPhase_of_mode hm]; rfl

/-- The RD step of block n, from the state in which n blocks are done. -/
theorem afterState_read {i : Instr} {m : Mode} {s : State} (hmo : modeOf i = some m) (he : acceptError i s = none)
    {n : Nat} (hn : n < blockCount s) :
    engineStep (afterState i m s n) = .next ((afterState i m s n).withPhase
      (.mode i ⟨n, .wr (inputBlock (cipherOf i) s (afterBlocks m (dirOf i) (cipherOf i) s n).1 n),
        (afterBlocks m (dirOf i) (cipherOf i) s n).2⟩)) := by
  have hm : isMode i = true := (isMode_iff_modeOf i).2 ⟨m, hmo⟩
  rw [engineStep_mode (i := i) rfl]
  exact exec_read (s := afterState i m s n) (j := n) hm rfl hn (blocks_inMemory hm he hn).1

/-- Two engine steps do one block. -/
theorem afterState_block {i : Instr} {m : Mode} {s : State} (hmo : modeOf i = some m) (he : acceptError i s = none)
    {n : Nat} (hn : n < blockCount s) :
    engineSteps 2 (afterState i m s n) = .next (afterState i m s (n + 1)) := by
  have hm : isMode i = true := (isMode_iff_modeOf i).2 ⟨m, hmo⟩
  have e : ∀ p, encBlock (cipherOf i) ((afterState i m s n).withPhase p) = encBlock (cipherOf i) s := by
    intro p; cases cipherOf i <;> rfl
  have d : ∀ p, decBlock (cipherOf i) ((afterState i m s n).withPhase p) = decBlock (cipherOf i) s := by
    intro p; cases cipherOf i <;> rfl
  have hw := exec_write (s := (afterState i m s n).withPhase
      (.mode i ⟨n, .wr (inputBlock (cipherOf i) s (afterBlocks m (dirOf i) (cipherOf i) s n).1 n),
        (afterBlocks m (dirOf i) (cipherOf i) s n).2⟩))
    hmo rfl (blocks_inMemory hm he hn).2
  rw [e, d] at hw
  rw [engineSteps, afterState_read hmo he hn]
  simp only [engineSteps]
  rw [engineStep_mode (i := i) rfl, hw]
  rfl

/-- After 2n engine steps, n blocks are done. -/
theorem engineSteps_afterState {i : Instr} {m : Mode} {s : State} (hmo : modeOf i = some m)
    (he : acceptError i s = none) {n : Nat} (hn : n ≤ blockCount s) :
    engineSteps (2 * n) (afterState i m s 0) = .next (afterState i m s n) := by
  induction n with
  | zero => rfl
  | succ n ih =>
    rw [Nat.mul_succ, engineSteps_add (ih (by omega))]
    exact afterState_block hmo he hn

end Sys2Proof.Machine
end

