-- ==== Sys2Proof/Laws/Blocks.lean ====
section
/-! SUPPORT. Blocks and their widths, the chaining value of a mode, and memories compared byte by byte (spec 20_memory.md R84,
46_modes.md R300). -/

namespace Sys2Proof.Machine

open Memory

/-! ### Blocks -/

/-- A 32-bit block in its container. -/
theorem fits32 (x : BitVec 32) {c : Cipher} (h : c.blockBits = 32) : c.fits (x.setWidth 64) := by
  rw [Cipher.fits, h, BitVec.toNat_setWidth]
  have := x.isLt; omega

/-- An encrypted block has the block width. -/
theorem encBlock_fits (c : Cipher) (s : State) (b : Block) : c.fits (encBlock c s b) := by
  cases c with
  | spn => exact fits32 _ rfl
  | fei => exact fits32 _ rfl
  | des => exact BitVec.isLt _

/-- A decrypted block has the block width. -/
theorem decBlock_fits (c : Cipher) (s : State) (b : Block) : c.fits (decBlock c s b) := by
  cases c with
  | spn => exact fits32 _ rfl
  | fei => exact fits32 _ rfl
  | des => exact BitVec.isLt _

/-- XOR keeps the block width. -/
theorem fits_xor {c : Cipher} {a b : Block} (ha : c.fits a) (hb : c.fits b) : c.fits (a ^^^ b) := by
  rw [Cipher.fits, BitVec.toNat_xor]; exact Nat.xor_lt_two_pow ha hb

/-- `MemRead` as the sum of 20_memory.md R84. -/
theorem readBytes_sum (m : Memory) (a n : Nat) :
    m.readBytes a n = ∑ k ∈ Finset.range n, (m.readByte (a + k)).toNat * 2 ^ (8 * k) := by
  induction n generalizing a with
  | zero => rfl
  | succ n ih =>
    rw [Memory.readBytes, ih, Finset.sum_range_succ', Finset.mul_sum, add_comm]
    congr 1
    · refine Finset.sum_congr rfl fun k _ => ?_
      rw [show a + 1 + k = a + (k + 1) by omega, show 8 * (k + 1) = 8 * k + 8 by ring, Nat.pow_add]; ring
    · simp

/-- A block read from memory fits its container. -/
theorem readBytes_block (c : Cipher) (m : Memory) (a : Nat) :
    (BitVec.ofNat 64 (m.readBytes a c.blockBytes)).toNat = m.readBytes a c.blockBytes := by
  have := readBytes_lt m a c.blockBytes
  rw [BitVec.toNat_ofNat, Nat.mod_eq_of_lt]
  cases c <;> simp [Cipher.blockBytes] at this ⊢ <;> omega

/-- A block read from memory has the block width. -/
theorem inputBlock_fits (c : Cipher) (s : State) (m : Memory) (j : Nat) : c.fits (inputBlock c s m j) := by
  have := readBytes_lt m (srcAddr c s j) c.blockBytes
  rw [Cipher.fits, inputBlock, readBytes_block]
  cases c <;> exact this

/-- The first chaining value has the block width. -/
theorem trunc_fits (c : Cipher) (v : Block) : c.fits (c.trunc v) := by
  rw [Cipher.fits, Cipher.trunc, BitVec.toNat_setWidth, BitVec.toNat_setWidth]
  have : v.toNat % 2 ^ c.blockBits < 2 ^ c.blockBits := Nat.mod_lt _ (by positivity)
  exact Nat.lt_of_le_of_lt (Nat.mod_le _ _) this

/-- A mode keeps the block width. -/
theorem modeBlock_fits (m : Mode) (d : Dir) (c : Cipher) (s : State) {x ch : Block} (hx : c.fits x) (hc : c.fits ch) :
    c.fits (modeBlock m d (encBlock c s) (decBlock c s) x ch).1 ∧ c.fits (modeBlock m d (encBlock c s) (decBlock c s) x ch).2 := by
  cases m <;> cases d <;> simp only [modeBlock] <;>
    refine ⟨?_, ?_⟩ <;> first | assumption | exact encBlock_fits _ _ _ | exact decBlock_fits _ _ _ | exact fits_xor hx (encBlock_fits _ _ _) | exact fits_xor (decBlock_fits _ _ _) hc

/-- A 32-bit block and its container. -/
theorem setWidth_32_64 {x : Block} (h : x.toNat < 2 ^ 32) : (x.setWidth 32).setWidth 64 = x := by
  apply BitVec.eq_of_toNat_eq
  rw [BitVec.toNat_setWidth, BitVec.toNat_setWidth, Nat.mod_eq_of_lt h, Nat.mod_eq_of_lt (by have := x.isLt; omega)]

/-- The container of a 32-bit value. -/
theorem setWidth_64_32 (x : BitVec 32) : (x.setWidth 64).setWidth 32 = x := by
  apply BitVec.eq_of_toNat_eq
  rw [BitVec.toNat_setWidth, BitVec.toNat_setWidth]; have := x.isLt; omega

/-- A block as a number of its bytes. -/
theorem toNat_lt_of_fits {c : Cipher} {x : Block} (h : c.fits x) : x.toNat < 256 ^ c.blockBytes := by
  cases c <;> exact h

/-- What a WR step stores, byte by byte, and what it leaves (20_memory.md R84). -/
theorem write_bytes {s : State} (hw : s.mem.wf = true) (c : Cipher) (a : Nat) (v : Block) :
    (∀ k, k < c.blockBytes → (s.mem.writeBytes a c.blockBytes v.toNat).readByte (a + k) = v.extractLsb' (8 * k) 8) ∧
    ∀ x, x < a ∨ a + c.blockBytes ≤ x → (s.mem.writeBytes a c.blockBytes v.toNat).readByte x = s.mem.readByte x :=
  ⟨fun k hk => by rw [readByte_writeBytes_inside hw _ hk, ofNat_div_pow_eq_extract],
    fun x hx => readByte_writeBytes_outside hw _ hx⟩

/-! ### Modes -/

/-- The chaining value before block n (46_modes.md R300). -/
def chainAt (m : Mode) (d : Dir) (E D : Block → Block) (ch : Block) (xs : List Block) : Nat → Block
  | 0 => ch
  | n + 1 => (modeBlock m d E D (xs.getD n 0) (chainAt m d E D ch xs n)).2

/-- The chaining value, one block on. -/
theorem chainAt_cons (m : Mode) (d : Dir) (E D : Block → Block) (ch x : Block) (xs : List Block) (n : Nat) :
    chainAt m d E D ch (x :: xs) (n + 1) = chainAt m d E D (modeBlock m d E D x ch).2 xs n := by
  induction n with
  | zero => rfl
  | succ n ih => rw [chainAt, ih]; rfl

/-- Output block j from input block j and the chaining value (46_modes.md R300). -/
theorem modeOutputs_getElem? (m : Mode) (d : Dir) (E D : Block → Block) (ch : Block) (xs : List Block) (j : Nat) :
    (modeOutputs m d E D ch xs)[j]? = xs[j]?.map fun x => (modeBlock m d E D x (chainAt m d E D ch xs j)).1 := by
  induction xs generalizing ch j with
  | nil => rfl
  | cons x xs ih =>
    rw [modeOutputs]
    cases j with
    | zero => rfl
    | succ j => rw [List.getElem?_cons_succ, List.getElem?_cons_succ, ih, chainAt_cons]

/-- The blocks of a command keep the canonical form. -/
theorem afterBlocks_wf (m : Mode) (d : Dir) (c : Cipher) (s : State) (hw : s.mem.wf = true) (n : Nat) :
    (afterBlocks m d c s n).1.wf = true := by
  induction n with
  | zero => exact hw
  | succ n ih => exact wf_writeBytes ih _ _ _

/-- A byte outside the output buffer reads as before. -/
theorem afterBlocks_outside (m : Mode) (d : Dir) (c : Cipher) (s : State) (hw : s.mem.wf = true) (n a : Nat)
    (h : ∀ j, j < n → a < dstAddr c s j ∨ dstAddr c s j + c.blockBytes ≤ a) :
    (afterBlocks m d c s n).1.readByte a = s.mem.readByte a := by
  induction n with
  | zero => rfl
  | succ n ih =>
    rw [← ih fun j hj => h j (by omega)]
    exact readByte_writeBytes_outside (afterBlocks_wf m d c s hw n) _ (h n (by omega))

/-! ### Memories -/

/-- Memories in canonical form that read alike are equal. -/
theorem mem_ext {m m' : Memory} (h : m.wf = true) (h' : m'.wf = true) (he : ∀ a, m.readByte a = m'.readByte a) : m = m' := by
  induction m generalizing m' with
  | nil =>
    cases m' with
    | nil => rfl
    | cons c m' =>
      obtain ⟨a, v⟩ := c
      have := he a
      rw [wf_cons] at h'
      simp [Memory.readByte] at this
      exact absurd this.symm h'.1
  | cons c m ih =>
    obtain ⟨a, v⟩ := c
    rw [wf_cons] at h
    cases m' with
    | nil =>
      have := he a
      simp [Memory.readByte] at this
      exact absurd this h.1
    | cons c' m' =>
      obtain ⟨a', v'⟩ := c'
      rw [wf_cons] at h'
      have haa : a = a' := by
        rcases Nat.lt_trichotomy a a' with hlt | he' | hlt
        · have := he a
          rw [readByte_of_lt (m := (a', v') :: m') (fun c hc => by rcases List.mem_cons.1 hc with rfl | hc <;> [exact hlt; exact Nat.lt_trans hlt (h'.2.1 _ hc)])] at this
          simp [Memory.readByte] at this
          exact absurd this h.1
        · exact he'
        · have := he a'
          rw [readByte_of_lt (m := (a, v) :: m) (fun c hc => by rcases List.mem_cons.1 hc with rfl | hc <;> [exact hlt; exact Nat.lt_trans hlt (h.2.1 _ hc)])] at this
          simp [Memory.readByte] at this
          exact absurd this.symm h'.1
      subst haa
      have hvv : v = v' := by have := he a; simpa [Memory.readByte] using this
      subst hvv
      congr 1
      refine ih h.2.2 h'.2.2 fun x => ?_
      have := he x
      simp only [Memory.readByte] at this
      split at this
      · rename_i hx
        rw [hx, readByte_of_lt h.2.1, readByte_of_lt h'.2.1]
      · exact this

/-- Equal wide reads are equal byte by byte. -/
theorem byte_of_readBytes {m m' : Memory} {a n : Nat} (h : m.readBytes a n = m'.readBytes a n) {k : Nat} (hk : k < n) :
    m.readByte (a + k) = m'.readByte (a + k) := by
  induction n generalizing a k with
  | zero => omega
  | succ n ih =>
    rw [Memory.readBytes, Memory.readBytes] at h
    have h1 := (m.readByte a).isLt
    have h2 := (m'.readByte a).isLt
    have e1 : (m.readByte a).toNat = (m'.readByte a).toNat := by omega
    have e2 : m.readBytes (a + 1) n = m'.readBytes (a + 1) n := by omega
    cases k with
    | zero => exact BitVec.eq_of_toNat_eq e1
    | succ k => rw [show a + (k + 1) = a + 1 + k by omega]; exact ih e2 (by omega)

end Sys2Proof.Machine
end

