-- ==== Sys2Proof/Laws/PerInstr.lean ====
section
/-! SUPPORT. Statements about every command as syntax, one lemma per constructor (LAWS.json). -/

namespace Sys2Proof.Laws.ReservedBitsZero

/-- The word of a command has its reserved fields RSV0 (bit 7) and RSV1 (bits 31:11) zero (spec 30_encoding.md R111,
R117). -/
def Statement (i : Instr) : Prop := encode i &&& 0xFFFFF880 = 0

theorem blkEncSpn : Statement .blkEncSpn := by unfold Statement; decide
theorem blkDecSpn : Statement .blkDecSpn := by unfold Statement; decide
theorem blkEncFei : Statement .blkEncFei := by unfold Statement; decide
theorem blkDecFei : Statement .blkDecFei := by unfold Statement; decide
theorem blkEncDes : Statement .blkEncDes := by unfold Statement; decide
theorem blkDecDes : Statement .blkDecDes := by unfold Statement; decide
theorem ecbEncSpn : Statement .ecbEncSpn := by unfold Statement; decide
theorem ecbDecSpn : Statement .ecbDecSpn := by unfold Statement; decide
theorem ecbEncFei : Statement .ecbEncFei := by unfold Statement; decide
theorem ecbDecFei : Statement .ecbDecFei := by unfold Statement; decide
theorem ecbEncDes : Statement .ecbEncDes := by unfold Statement; decide
theorem ecbDecDes : Statement .ecbDecDes := by unfold Statement; decide
theorem cbcEncSpn : Statement .cbcEncSpn := by unfold Statement; decide
theorem cbcDecSpn : Statement .cbcDecSpn := by unfold Statement; decide
theorem cbcEncFei : Statement .cbcEncFei := by unfold Statement; decide
theorem cbcDecFei : Statement .cbcDecFei := by unfold Statement; decide
theorem cbcEncDes : Statement .cbcEncDes := by unfold Statement; decide
theorem cbcDecDes : Statement .cbcDecDes := by unfold Statement; decide
theorem cfbEncSpn : Statement .cfbEncSpn := by unfold Statement; decide
theorem cfbDecSpn : Statement .cfbDecSpn := by unfold Statement; decide
theorem cfbEncFei : Statement .cfbEncFei := by unfold Statement; decide
theorem cfbDecFei : Statement .cfbDecFei := by unfold Statement; decide
theorem cfbEncDes : Statement .cfbEncDes := by unfold Statement; decide
theorem cfbDecDes : Statement .cfbDecDes := by unfold Statement; decide
theorem permSpn : Statement .permSpn := by unfold Statement; decide
theorem permSpnRev : Statement .permSpnRev := by unfold Statement; decide
theorem permFei : Statement .permFei := by unfold Statement; decide
theorem permFeiRev : Statement .permFeiRev := by unfold Statement; decide
theorem permDesIp : Statement .permDesIp := by unfold Statement; decide
theorem permDesFp : Statement .permDesFp := by unfold Statement; decide
theorem permDesE : Statement .permDesE := by unfold Statement; decide
theorem permDesP : Statement .permDesP := by unfold Statement; decide
theorem permDesPc1 : Statement .permDesPc1 := by unfold Statement; decide
theorem permDesPc2 : Statement .permDesPc2 := by unfold Statement; decide
theorem substSpn : Statement .substSpn := by unfold Statement; decide
theorem substSpnRev : Statement .substSpnRev := by unfold Statement; decide
theorem substFei : Statement .substFei := by unfold Statement; decide
theorem substFeiRev : Statement .substFeiRev := by unfold Statement; decide
theorem substDes : Statement .substDes := by unfold Statement; decide
theorem ksSpn : Statement .ksSpn := by unfold Statement; decide
theorem ksFei : Statement .ksFei := by unfold Statement; decide
theorem ksDes : Statement .ksDes := by unfold Statement; decide

end Sys2Proof.Laws.ReservedBitsZero
end

