-- ==== Sys2Proof/Laws/Registers.lean ====
section
/-! SUPPORT. The STATUS and IRQEN words bit by bit, a CMD write, and what events leave unchanged (spec 10_state.md R34, R35, R36,
60_exceptions.md R360). -/

namespace Sys2Proof.Machine

/-! ### Words -/

/-- The bits of the STATUS word. -/
theorem statusBits : ∀ (e : BitVec 4) (w f er d b : Bool) (k : Fin 32),
    (0#20 ++ e ++ 0#3 ++ BitVec.ofBool w ++ BitVec.ofBool f ++ BitVec.ofBool er ++ BitVec.ofBool d ++
      BitVec.ofBool b : Word).getLsbD k.val =
      if k.val = 0 then b else if k.val = 1 then d else if k.val = 2 then er else if k.val = 3 then f
      else if k.val = 4 then w else if 8 ≤ k.val ∧ k.val ≤ 11 then e.getLsbD (k.val - 8) else false := by
  decide +kernel

/-- STATUS as the host reads it, bit by bit (10_state.md R34). -/
theorem statusWord_bit (s : State) {k : Nat} (hk : k < 32) : (statusWord s).getLsbD k =
      if k = 0 then s.busy else if k = 1 then s.status.done else if k = 2 then s.status.err
      else if k = 3 then s.status.fault else if k = 4 then s.status.wovr
      else if 8 ≤ k ∧ k ≤ 11 then s.status.errCode.code.getLsbD (k - 8) else false :=
  statusBits _ _ _ _ _ _ ⟨k, hk⟩

/-- The bits of the IRQEN word. -/
theorem irqenBits : ∀ (d e : Bool) (k : Fin 32),
    (0#30 ++ BitVec.ofBool e ++ BitVec.ofBool d : Word).getLsbD k.val =
      if k.val = 0 then d else if k.val = 1 then e else false := by
  decide +kernel

/-- IRQEN as the host reads it, bit by bit (10_state.md R35). -/
theorem irqenWord_bit (s : State) {k : Nat} (hk : k < 32) : (irqenWord s).getLsbD k =
      if k = 0 then s.irqen.doneIe else if k = 1 then s.irqen.errIe else false :=
  irqenBits _ _ ⟨k, hk⟩

/-! ### A command at IDLE -/

/-- A write at offset 0x00 is a CMD write (10_state.md R36). -/
theorem regWrite_cmd (w : Word) (s : State) : regWrite 0x00 w s = cmdWrite w s := rfl

/-- A command at IDLE with FAULT 0 raises the accept's error or enters RUN (60_exceptions.md R360). -/
theorem command_eq {s : State} {i : Instr} (hf : s.status.fault = false) (hp : s.phase = .idle) :
      (∀ code, acceptError i s = some code → exec i s = .next { s with status := raisedStatus code s }) ∧
      (acceptError i s = none → exec i s = .next { s with status := clearedStatus s, phase := runPhase i s }) := by
  have h : exec i s = .next (s.command (acceptError i s) (runPhase i s)) := by
    cases hm : isMode i with
    | false =>
      obtain ⟨r, hr⟩ := exec_of_single hm
      rw [hr, singleCommand, hp, runPhase_of_single hm]
    | true =>
      obtain ⟨m, hmo⟩ := (isMode_iff_modeOf i).1 hm
      rw [exec_of_mode hmo, modeCommand, hp, modeCheck_eq_acceptError hm, runPhase_of_mode hm]
  rw [h]
  constructor
  · intro c hc
    simp [State.command, hf, State.accept, hc, State.raise, State.clearOutcome, State.withStatus, raisedStatus]
  · intro hc
    simp [State.command, hf, State.accept, hc, State.withPhase, State.clearOutcome, State.withStatus, clearedStatus]

/-! ### Frames -/

/-- No command changes an operand register. -/
theorem exec_opr {i : Instr} {s t : State} (h : exec i s = .next t) : t.opr = s.opr := by
  cases exec_cases h <;> simp_all [completeSingle]

/-- No command changes the configuration. -/
theorem exec_cfg {i : Instr} {s t : State} (h : exec i s = .next t) : t.cfg = s.cfg := by
  cases exec_cases h <;> simp_all [completeSingle]

/-- No command changes the host's events or the schedule. -/
theorem exec_frame {i : Instr} {s t : State} (h : exec i s = .next t) : t.host = s.host ∧ t.schedule = s.schedule := by
  cases exec_cases h <;> simp_all [completeSingle]

/-- No command clears FAULT. -/
theorem exec_fault {i : Instr} {s t : State} (h : exec i s = .next t) (hf : s.status.fault = true) : t.status.fault = true := by
  cases exec_cases h <;> simp_all [completeSingle]

/-- A command at IDLE leaves DOUT. -/
theorem exec_dout_idle {i : Instr} {s t : State} (h : exec i s = .next t) (hb : s.busy = false) : (t.doutLo, t.doutHi) = (s.doutLo, s.doutHi) := by
  have hi := (busy_eq_false_iff s).1 hb
  cases exec_cases h <;> simp_all

/-- A command at IDLE leaves memory. -/
theorem exec_mem_idle {i : Instr} {s t : State} (h : exec i s = .next t) (hb : s.busy = false) : t.mem = s.mem := by
  have hi := (busy_eq_false_iff s).1 hb
  cases exec_cases h <;> simp_all

/-- A host event leaves the operand registers while BUSY (10_state.md R44). -/
theorem hostCase_opr {s t : State} (h : HostCase s t) (hb : s.busy = true) : t.opr = s.opr := by
  cases h with
  | nothing ht => rw [ht]
  | overran hb ht => rw [ht]; rfl
  | illegal hi => rw [hb] at hi; cases hi
  | command i hi => rw [hb] at hi; cases hi
  | status v ht => rw [ht]; rfl
  | irqen v ht => rw [ht]; rfl
  | operand o hi => rw [hb] at hi; cases hi
  | read o ht => rw [ht]; rfl
  | memory a bs hr ht => rw [ht]; rfl
  | waiting o ht => rw [ht]; rfl

/-- A host event leaves the phase while BUSY. -/
theorem hostCase_phase {s t : State} (h : HostCase s t) (hb : s.busy = true) : t.phase = s.phase := by
  cases h with
  | command i hi => rw [hb] at hi; cases hi
  | illegal hi => rw [hb] at hi; cases hi
  | operand o hi => rw [hb] at hi; cases hi
  | _ => simp_all

/-- A host event leaves the configuration. -/
theorem hostCase_cfg {s t : State} (h : HostCase s t) : t.cfg = s.cfg := by
  cases h with
  | command i hi hf hx => exact exec_cfg hx
  | _ => simp_all

/-- A host event leaves FAULT set. -/
theorem hostCase_fault {s t : State} (h : HostCase s t) (hf : s.status.fault = true) : t.status.fault = true := by
  cases h with
  | command i hi hf' => rw [hf] at hf'; cases hf'
  | illegal hi hf' => rw [hf] at hf'; cases hf'
  | status v ht => rw [ht]; exact hf
  | _ => simp_all

/-- A host event leaves DOUT. -/
theorem hostCase_dout {s t : State} (h : HostCase s t) : (t.doutLo, t.doutHi) = (s.doutLo, s.doutHi) := by
  cases h with
  | command i hi hf hx => exact exec_dout_idle hx hi
  | _ => simp_all

/-! ### The running command -/

/-- The accept's checks read the operands and the configuration alone. -/
theorem acceptError_congr {s t : State} (i : Instr) (ho : t.opr = s.opr) (hc : t.cfg = s.cfg) : acceptError i t = acceptError i s := by
  unfold acceptError; rw [ho, hc]

/-- An error that is raised has a code other than 0. -/
theorem acceptError_ne {i : Instr} {s : State} {c : ErrCode} (h : acceptError i s = some c) : c ≠ .none := by
  unfold acceptError at h
  repeat' split at h
  all_goals first | (cases h; decide) | cases h

/-- The phase after the accept reads the operands alone. -/
theorem runPhase_congr {s t : State} (i : Instr) (ho : t.opr = s.opr) : runPhase i t = runPhase i s := by
  unfold runPhase; rw [ho]

/-- `Phase.ok` reads the phase, the operands and the configuration alone. -/
theorem phaseOk_congr {s t : State} (hp : t.phase = s.phase) (ho : t.opr = s.opr) (hc : t.cfg = s.cfg) (h : Phase.ok s) : Phase.ok t := by
  have hb : blockCount t = blockCount s := by rw [blockCount, blockCount, ho]
  unfold Phase.ok at h ⊢
  rw [hp]
  split at h
  · trivial
  · exact ⟨h.1, by rw [acceptError_congr _ ho hc]; exact h.2⟩
  · refine ⟨h.1, by rw [acceptError_congr _ ho hc]; exact h.2.1, ?_⟩
    have := h.2.2
    unfold ModeState.ok at this ⊢
    rw [hb]; exact this

/-- A running command runs on, or ends with DONE. -/
theorem exec_not_overrun {i : Instr} {s t : State} (hr : runningCommand s = some i) (h : exec i s = .next t) :
    runningCommand t = some i ∨ (t.phase = .idle ∧ t.status = { s.status with done := true }) := by
  have hne : s.phase ≠ .idle := by intro h; rw [runningCommand, h] at hr; cases hr
  cases exec_cases h with
  | faulted hi => exact absurd hi hne
  | raised c hi => exact absurd hi hne
  | accepted hi => exact absurd hi hne
  | completedSingle v hi hm ht => right; rw [ht]; exact ⟨rfl, rfl⟩
  | read ms hi hm hs hj hr' ht => left; rw [ht]; rfl
  | written ms b m hi hm hs hr' ht => left; rw [ht]; rfl
  | completedMode ms hi hm hs hj ht => right; rw [ht]; exact ⟨rfl, rfl⟩
  | overran hb ht => left; rw [ht]; exact hr

/-! ### Host events -/

/-- A host memory write inside MEM_SIZE completes (20_memory.md R90). -/
theorem hostMemWrite_of_le {s : State} {a : Word} {bytes : List Byte}
    (h : a.toNat + bytes.length ≤ s.cfg.val.memSize) :
    hostMemWrite a bytes s = .next (s.withMem (s.mem.writeList a.toNat bytes)) := by
  rw [hostMemWrite, if_pos (show inMemory s _ _ = true from decide_eq_true h)]

/-- A host memory read inside MEM_SIZE completes (20_memory.md R90). -/
theorem hostMemRead_of_le {s : State} {a : Word} {n : Nat} (h : a.toNat + n ≤ s.cfg.val.memSize) :
    hostMemRead a n s = .next (s.record (.mem a (s.mem.readList a.toNat n))) := by
  rw [hostMemRead, if_pos (show inMemory s _ _ = true from decide_eq_true h)]

/-- A register write that starts a command is a write of its word to CMD (10_state.md R36). -/
theorem regWrite_start {off : BitVec 8} {v : Word} {s t : State} (h : regWrite off v s = .next t)
    (hi : s.phase = .idle) (hn : t.phase ≠ .idle) :
    off = 0x00 ∧ ∃ i, decode v = .ok i ∧ exec i s = .next t := by
  unfold regWrite at h
  split at h
  · split at h
    · refine ⟨‹_›, ?_⟩
      unfold cmdWrite at h
      split at h
      · rw [← Host.Outcome.next.inj h] at hn; exact absurd hi hn
      · split at h
        · rw [← Host.Outcome.next.inj h] at hn; exact absurd hi hn
        · split at h
          · exact ⟨_, ‹_›, h⟩
          · rw [← Host.Outcome.next.inj h] at hn; exact absurd hi hn
    · exfalso
      rw [← Host.Outcome.next.inj h] at hn
      apply hn
      unfold writeReg State.writeOperand
      repeat' split
      all_goals exact hi
  · cases h

/-- A host event that changes memory is a memory write (60_exceptions.md R378). -/
theorem hostEvent_mem {op : HostOp} {s t : State} (h : hostEvent op s = .next t) (hne : t.mem ≠ s.mem) :
    ∃ a bytes, op = .memWrite a bytes ∧ inMemory s a.toNat bytes.length = true ∧
      t = s.withMem (s.mem.writeList a.toNat bytes) := by
  cases op with
  | memWrite a bytes =>
    simp only [hostEvent, hostMemWrite] at h
    split at h
    · exact ⟨a, bytes, rfl, ‹_›, (Host.Outcome.next.inj h).symm⟩
    · cases h
  | _ =>
    exfalso
    apply hne
    simp only [hostEvent, busWrite, busRead, hostMemRead, waitTurn] at h
    have hR : ∀ {off v} {s t : State}, regWrite off v s = .next t → t.mem = s.mem := by
      intro off v s t h
      unfold regWrite at h
      split at h
      · split at h
        · unfold cmdWrite at h
          split at h
          · rw [← Host.Outcome.next.inj h]
          · rename_i hf
            split at h
            · rw [← Host.Outcome.next.inj h]; rfl
            · rename_i hb
              split at h
              · exact exec_mem_idle h (by simpa using hb)
              · rw [← Host.Outcome.next.inj h]; rfl
        · rw [← Host.Outcome.next.inj h]
          unfold writeReg State.writeOperand
          repeat' split
          all_goals rfl
      · cases h
    have hD : ∀ {off} {s t : State}, regRead off s = .next t → t.mem = s.mem := by
      intro off s t h
      unfold regRead at h
      split at h
      · rw [← Host.Outcome.next.inj h]; rfl
      · cases h
    repeat' split at h
    all_goals first
      | exact (hR h).trans rfl
      | exact (hD h).trans rfl
      | (cases h; done)
      | (rw [← Host.Outcome.next.inj h]; rfl)

end Sys2Proof.Machine
end

