-- ==== Sys2Proof/Tests/Slice0.lean ====
section
/-! SUPPORT. The model's own tests: small named theorems whose expected values come from the spec (30_encoding.md R119,
95_test_vectors.md), and, for every obligation with hypotheses, a concrete state that meets them. -/

namespace Sys2Proof.Tests

-- One theorem after the other: the kernel's evaluations do not run side by side.
set_option Elab.async false

open Sys2Proof Sys2Proof.Machine

/-! ### Well-formedness (00_scope.md R7, R8, 10_state.md R32) -/

/-- Test configuration TC1 (95_test_vectors.md L0), with MEM_SIZE 0x10000. -/
def tc1Config : Config where
  spnSbox := #v[3, 10, 1, 8, 15, 6, 13, 4, 11, 2, 9, 0, 7, 14, 5, 12]
  spnPbox := #v[1, 6, 11, 16, 21, 26, 31, 4, 9, 14, 19, 24, 29, 2, 7, 12, 17, 22, 27, 0, 5, 10, 15, 20, 25, 30, 3, 8,
    13, 18, 23, 28]
  feiSbox := #v[3, 10, 1, 8, 15, 6, 13, 4, 11, 2, 9, 0, 7, 14, 5, 12]
  feiPbox := #v[1, 6, 11, 0, 5, 10, 15, 4, 9, 14, 3, 8, 13, 2, 7, 12]
  memSize := 0x10000
  regBase := 0x40000000

def tc1 : WfConfig := ⟨tc1Config, by decide +kernel⟩

theorem test_wf_refuses_spnSbox : { tc1Config with spnSbox := tc1Config.spnSbox.set 0 10 }.wf = false := by decide +kernel
theorem test_wf_refuses_spnPbox : { tc1Config with spnPbox := tc1Config.spnPbox.set 31 1 }.wf = false := by decide +kernel
theorem test_wf_refuses_feiSbox : { tc1Config with feiSbox := Vector.replicate 16 0 }.wf = false := by decide +kernel
theorem test_wf_refuses_feiPbox : { tc1Config with feiPbox := tc1Config.feiPbox.set 3 1 }.wf = false := by decide +kernel
theorem test_wf_refuses_no_memory : { tc1Config with memSize := 0 }.wf = false := by decide +kernel
theorem test_wf_refuses_too_much_memory : { tc1Config with memSize := 2 ^ 32 + 1 }.wf = false := by decide +kernel
theorem test_wf_bounds :
    { tc1Config with memSize := 1 }.wf = true ∧ { tc1Config with memSize := 2 ^ 32 }.wf = true := by decide +kernel
theorem test_access_refused :
    registerAccessWf 0x11 4 = false ∧ registerAccessWf 0x12 4 = false ∧ registerAccessWf 0x13 4 = false ∧
    registerAccessWf 0x10 1 = false ∧ registerAccessWf 0x10 2 = false ∧ registerAccessWf 0x10 8 = false := by decide
theorem test_access_taken : registerAccessWf 0x00 4 = true ∧ registerAccessWf 0xFC 4 = true := by decide

/-! ### Decoding: the words of 30_encoding.md R119, and for each class one word by the fields of R111 -/

theorem test_decode_blk :
    decode 0x00000001 = .ok .blkEncSpn ∧
    decode 0x00000011 = .ok .blkDecSpn ∧
    decode 0x00000021 = .ok .blkEncFei ∧
    decode 0x00000031 = .ok .blkDecFei ∧
    decode 0x00000041 = .ok .blkEncDes ∧
    decode 0x00000051 = .ok .blkDecDes := by decide
theorem test_decode_blk_bits : decode 0b000000000000000000000_000_0_10_1_0001 = .ok .blkDecDes := by decide

theorem test_decode_ecb :
    decode 0x00000002 = .ok .ecbEncSpn ∧
    decode 0x00000012 = .ok .ecbDecSpn ∧
    decode 0x00000022 = .ok .ecbEncFei ∧
    decode 0x00000032 = .ok .ecbDecFei ∧
    decode 0x00000042 = .ok .ecbEncDes ∧
    decode 0x00000052 = .ok .ecbDecDes := by decide
theorem test_decode_ecb_bits : decode 0b000000000000000000000_000_0_10_1_0010 = .ok .ecbDecDes := by decide

theorem test_decode_cbc :
    decode 0x00000003 = .ok .cbcEncSpn ∧
    decode 0x00000013 = .ok .cbcDecSpn ∧
    decode 0x00000023 = .ok .cbcEncFei ∧
    decode 0x00000033 = .ok .cbcDecFei ∧
    decode 0x00000043 = .ok .cbcEncDes ∧
    decode 0x00000053 = .ok .cbcDecDes := by decide
theorem test_decode_cbc_bits : decode 0b000000000000000000000_000_0_10_1_0011 = .ok .cbcDecDes := by decide

theorem test_decode_cfb :
    decode 0x00000004 = .ok .cfbEncSpn ∧
    decode 0x00000014 = .ok .cfbDecSpn ∧
    decode 0x00000024 = .ok .cfbEncFei ∧
    decode 0x00000034 = .ok .cfbDecFei ∧
    decode 0x00000044 = .ok .cfbEncDes ∧
    decode 0x00000054 = .ok .cfbDecDes := by decide
theorem test_decode_cfb_bits : decode 0b000000000000000000000_000_0_10_1_0100 = .ok .cfbDecDes := by decide

theorem test_decode_perm :
    decode 0x00000005 = .ok .permSpn ∧
    decode 0x00000015 = .ok .permSpnRev ∧
    decode 0x00000025 = .ok .permFei ∧
    decode 0x00000035 = .ok .permFeiRev ∧
    decode 0x00000045 = .ok .permDesIp ∧
    decode 0x00000145 = .ok .permDesFp ∧
    decode 0x00000245 = .ok .permDesE ∧
    decode 0x00000345 = .ok .permDesP ∧
    decode 0x00000445 = .ok .permDesPc1 ∧
    decode 0x00000545 = .ok .permDesPc2 := by decide
theorem test_decode_perm_bits : decode 0b000000000000000000000_101_0_10_0_0101 = .ok .permDesPc2 := by decide

theorem test_decode_subst :
    decode 0x00000006 = .ok .substSpn ∧
    decode 0x00000016 = .ok .substSpnRev ∧
    decode 0x00000026 = .ok .substFei ∧
    decode 0x00000036 = .ok .substFeiRev ∧
    decode 0x00000046 = .ok .substDes := by decide
theorem test_decode_subst_bits : decode 0b000000000000000000000_000_0_10_0_0110 = .ok .substDes := by decide

theorem test_decode_ks :
    decode 0x00000007 = .ok .ksSpn ∧
    decode 0x00000027 = .ok .ksFei ∧
    decode 0x00000047 = .ok .ksDes := by decide
theorem test_decode_ks_bits : decode 0b000000000000000000000_000_0_10_0_0111 = .ok .ksDes := by decide

/-- The illegal words of 95_test_vectors.md L2.9. -/
theorem test_illegal_words :
    ([0x00000000, 0x00000008, 0x0000000F, 0x00000061, 0x00000081, 0x00000801, 0x80000001, 0x00000105, 0x00000645,
      0x00000055, 0x00000056, 0x00000017, 0x00000146] : List Word).all (fun w => !legal w) = true := by decide +kernel
theorem test_decodeTableWord : decodeTableWord 32 0x00000545 = some .permDesPc2 ∧ decodeTableWord 32 0x55 = none := by
  decide
theorem test_mnemonic : mnemonic .permDesPc2 = "PERM.DES.PC2" := rfl

/-! ### Single-operation commands: DOUT after the complete step (95_test_vectors.md L2.1 to L2.7) -/

/-- A machine of TC1, IDLE, with these operands. -/
def at0 (o : Operands) : State := { State.initial tc1 [] with opr := o }

/-- The same machine with a command running. -/
def runningAt (i : Instr) (o : Operands) : State := { at0 o with phase := .single i }

/-- KEY, ROUNDS and DIN, all else 0. -/
def ops (key : Block) (rounds : Word) (din : Block) : Operands :=
  { Operands.reset with
    keyHi := key.extractLsb' 32 32, keyLo := key.extractLsb' 0 32, rounds := rounds
    dinHi := din.extractLsb' 32 32, dinLo := din.extractLsb' 0 32 }

/-- DOUT after the engine step of a running command, where DONE is set by it and the engine is IDLE. -/
def doutOf (i : Instr) (o : Operands) : Option Block :=
  match exec i (runningAt i o) with
  | .next t => if t.status.done && !t.busy then some (t.doutHi ++ t.doutLo) else none
  | .fault _ => none
  | .refused _ => none

theorem test_permSpn :
    doutOf .permSpn (ops 0 0 0x12345678) = some 0xA5B08392 ∧
    doutOf .permSpn (ops 0 0 0xFFFFFFFF12345678) = some 0xA5B08392 := by decide +kernel
theorem test_permSpnRev :
    doutOf .permSpnRev (ops 0 0 0x12345678) = some 0xEC2964A0 := by decide +kernel
theorem test_permFei :
    doutOf .permFei (ops 0 0 0xABCD1234) = some 0xA190 := by decide +kernel
theorem test_permFeiRev :
    doutOf .permFeiRev (ops 0 0 0x1234) = some 0x6C20 := by decide +kernel
theorem test_permDesIp :
    doutOf .permDesIp (ops 0 0 1) = some 0x0000008000000000 ∧
    doutOf .permDesIp (ops 0 0 0x0123456789ABCDEF) = some 0xCC00CCFFF0AAF0AA := by decide +kernel
theorem test_permDesFp :
    doutOf .permDesFp (ops 0 0 0x0123456789ABCDEF) = some 0xFF330FAA00330FAA := by decide +kernel
theorem test_permDesE :
    doutOf .permDesE (ops 0 0 0xF0AAF0AA) = some 0x00007A15557A1555 := by decide +kernel
theorem test_permDesP :
    doutOf .permDesP (ops 0 0 0x5C82B597) = some 0x234AA9BB := by decide +kernel
theorem test_permDesPc1 :
    doutOf .permDesPc1 (ops 0 0 0x133457799BBCDFF1) = some 0x00F0CCAAF556678F := by decide +kernel
theorem test_permDesPc2 :
    doutOf .permDesPc2 (ops 0 0 0x00E19955FAACCF1E) = some 0x00001B02EFFC7072 := by decide +kernel
theorem test_substSpn :
    doutOf .substSpn (ops 0 0 0x12345678) = some 0xA18F6D4B := by decide +kernel
theorem test_substSpnRev :
    doutOf .substSpnRev (ops 0 0 0x12345678) = some 0x2907E5C3 := by decide +kernel
theorem test_substFei :
    doutOf .substFei (ops 0 0 0xFEDC) = some 0xC5E7 := by decide +kernel
theorem test_substFeiRev :
    doutOf .substFeiRev (ops 0 0 0x1234) = some 0x2907 := by decide +kernel
theorem test_substDes :
    doutOf .substDes (ops 0 0 0x21) = some 0xEFA72C42 ∧
    doutOf .substDes (ops 0 0 0x6117BA866527) = some 0x5C82B597 := by decide +kernel
theorem test_ksSpn :
    doutOf .ksSpn (ops 0x00000000CAFEBABE 0 33) = some 0x0059ED86 ∧
    doutOf .ksSpn (ops 0xFFFFFFFFCAFEBABE 0 4294967295) = some 0xF435F33A := by decide +kernel
theorem test_ksFei :
    doutOf .ksFei (ops 0x00000000CAFEBABE 0 17) = some 0x4816 := by decide +kernel
theorem test_ksDes :
    doutOf .ksDes (ops 0x133457799BBCDFF1 0 0) = some 0x00001B02EFFC7072 ∧
    doutOf .ksDes (ops 0x133457799BBCDFF1 3 15) = some 0x0000CB3D8B0E17F5 := by decide +kernel
theorem test_blkEncSpn :
    doutOf .blkEncSpn (ops 0x00000000CAFEBABE 33 0x12345678) = some 0xBB2C023C := by decide +kernel
theorem test_blkDecSpn :
    doutOf .blkDecSpn (ops 0x00000000CAFEBABE 5 0xF4AAC5B8) = some 0x12345678 := by decide +kernel
theorem test_blkEncFei :
    doutOf .blkEncFei (ops 0x00000000CAFEBABE 0 0x12345678) = some 0x56781234 ∧
    doutOf .blkEncFei (ops 0x1234BABE 5 0x12345678) = some 0x17BC068D := by decide +kernel
theorem test_blkDecFei :
    doutOf .blkDecFei (ops 0x00000000CAFEBABE 5 0x17BC068D) = some 0x12345678 := by decide +kernel
theorem test_blkEncDes :
    doutOf .blkEncDes (ops 0x133457799BBCDFF1 16 0x0123456789ABCDEF) = some 0x85E813540F0AB405 := by decide +kernel
theorem test_blkDecDes :
    doutOf .blkDecDes (ops 0x133457799BBCDFF1 16 0x85E813540F0AB405) = some 0x0123456789ABCDEF := by decide +kernel

/-! ### Mode commands: one WR step (95_test_vectors.md L2.8) -/

/-- KEY, ROUNDS and the buffers of L2.8. -/
def modeOps (key : Block) (rounds : Word) : Operands := { ops key rounds 0 with src := 0x100, dst := 0x800, count := 4 }

/-- A mode command before its WR step of block 1. -/
def beforeWrite (i : Instr) (o : Operands) (inblk chain : Block) : State :=
  { at0 o with phase := .mode i ⟨1, .wr inblk, chain⟩ }

/-- The block stored and the next chaining value. -/
def stored (i : Instr) (o : Operands) (inblk chain : Block) : Option (Block × Block) :=
  match exec i (beforeWrite i o inblk chain) with
  | .next t =>
    match t.phase with
    | .mode _ ⟨2, .rd, next⟩ =>
      some (BitVec.ofNat 64 (t.mem.readBytes (0x800 + (cipherOf i).blockBytes) (cipherOf i).blockBytes), next)
    | _ => none
  | .fault _ => none
  | .refused _ => none

theorem test_ecbEncSpn :
    stored .ecbEncSpn (modeOps 0x00000000CAFEBABE 5) 0x73202C6F 7 = some (0x41FAE9A7, 7) := by decide +kernel
theorem test_ecbDecSpn :
    stored .ecbDecSpn (modeOps 0x00000000CAFEBABE 5) 0x41FAE9A7 7 = some (0x73202C6F, 7) := by decide +kernel
theorem test_cbcEncSpn :
    stored .cbcEncSpn (modeOps 0x00000000CAFEBABE 5) 0x73202C6F 0xE957FA5E = some (0x2F579C07, 0x2F579C07) := by decide +kernel
theorem test_cbcDecSpn :
    stored .cbcDecSpn (modeOps 0x00000000CAFEBABE 5) 0x2F579C07 0xE957FA5E = some (0x73202C6F, 0x2F579C07) := by decide +kernel
theorem test_cfbEncSpn :
    stored .cfbEncSpn (modeOps 0x00000000CAFEBABE 5) 0x73202C6F 0xB509AF07 = some (0xF9DF2014, 0xF9DF2014) := by decide +kernel
theorem test_cfbDecSpn :
    stored .cfbDecSpn (modeOps 0x00000000CAFEBABE 5) 0xF9DF2014 0xB509AF07 = some (0x73202C6F, 0xF9DF2014) := by decide +kernel
theorem test_ecbEncFei :
    stored .ecbEncFei (modeOps 0x00000000CAFEBABE 5) 0x73202C6F 7 = some (0x6170E5B4, 7) := by decide +kernel
theorem test_ecbDecFei :
    stored .ecbDecFei (modeOps 0x00000000CAFEBABE 5) 0x6170E5B4 7 = some (0x73202C6F, 7) := by decide +kernel
theorem test_cbcEncFei :
    stored .cbcEncFei (modeOps 0x00000000CAFEBABE 5) 0x73202C6F 0x1FE19539 = some (0xFAE77AB6, 0xFAE77AB6) := by decide +kernel
theorem test_cbcDecFei :
    stored .cbcDecFei (modeOps 0x00000000CAFEBABE 5) 0xFAE77AB6 0x1FE19539 = some (0x73202C6F, 0xFAE77AB6) := by decide +kernel
theorem test_cfbEncFei :
    stored .cfbEncFei (modeOps 0x00000000CAFEBABE 5) 0x73202C6F 0xCC1DF7A9 = some (0x9D83CD5D, 0x9D83CD5D) := by decide +kernel
theorem test_cfbDecFei :
    stored .cfbDecFei (modeOps 0x00000000CAFEBABE 5) 0x9D83CD5D 0xCC1DF7A9 = some (0x73202C6F, 0x9D83CD5D) := by decide +kernel
theorem test_ecbEncDes :
    stored .ecbEncDes (modeOps 0x133457799BBCDFF1 16) 0x0123456789ABCDEF 7 = some (0x85E813540F0AB405, 7) := by decide +kernel
theorem test_ecbDecDes :
    stored .ecbDecDes (modeOps 0x133457799BBCDFF1 16) 0x85E813540F0AB405 7 = some (0x0123456789ABCDEF, 7) := by decide +kernel
theorem test_cbcEncDes :
    stored .cbcEncDes (modeOps 0x133457799BBCDFF1 16) 0x0123456789ABCDEF 0xF02B595EB219AB97 = some (0xE6DB189E19AF7792, 0xE6DB189E19AF7792) := by decide +kernel
theorem test_cbcDecDes :
    stored .cbcDecDes (modeOps 0x133457799BBCDFF1 16) 0xE6DB189E19AF7792 0xF02B595EB219AB97 = some (0x0123456789ABCDEF, 0xE6DB189E19AF7792) := by decide +kernel
theorem test_cfbEncDes :
    stored .cfbEncDes (modeOps 0x133457799BBCDFF1 16) 0x0123456789ABCDEF 0x08BAFAF562DD77E1 = some (0xA17793EBD6560C05, 0xA17793EBD6560C05) := by decide +kernel
theorem test_cfbDecDes :
    stored .cfbDecDes (modeOps 0x133457799BBCDFF1 16) 0xA17793EBD6560C05 0x08BAFAF562DD77E1 = some (0x0123456789ABCDEF, 0xA17793EBD6560C05) := by decide +kernel

/-- The words of the hello-sailor text, little-endian (95_test_vectors.md L1.1): the RD step of block 1 reads W[1]. -/
theorem test_read_is_little_endian :
    let mem := Memory.writeList [] 0x100 [0x68, 0x65, 0x6C, 0x6C, 0x6F, 0x2C, 0x20, 0x73]
    (match exec .ecbEncSpn { at0 (modeOps 0 0) with mem := mem, phase := .mode .ecbEncSpn ⟨1, .rd, 0⟩ } with
      | .next t => decide (t.phase = .mode .ecbEncSpn ⟨1, .wr 0x73202C6F, 0⟩)
      | .fault _ => false
      | .refused _ => false) = true := by decide +kernel

/-! ### The accept (95_test_vectors.md L2.9) -/

/-- STATUS after a CMD write at IDLE, and after the engine step that follows it. -/
def statusAfter (w : Word) (o : Operands) : Option Word :=
  match regWrite 0x00 w (at0 o) with
  | .next t =>
    match engineStep t with
    | .next u => some (statusWord u)
    | .fault _ => none
    | .refused _ => none
  | .fault _ => none
  | .refused _ => none

def bufs (rounds src dst count : Word) : Operands := { ops 0 rounds 0 with src := src, dst := dst, count := count }

theorem test_accept_illegal : statusAfter 0x00000061 Operands.reset = some 0x00000104 := by decide +kernel
theorem test_accept_des_rounds :
    statusAfter 0x00000042 (bufs 5 3 0 0) = some 0x0000020C ∧ statusAfter 0x00000052 (bufs 0 0 0 0) = some 0x0000020C ∧
    statusAfter 0x00000041 (ops 0 15 0) = some 0x0000020C := by decide +kernel
theorem test_accept_badarg :
    statusAfter 0x00000047 (ops 0 0 16) = some 0x00000504 ∧ statusAfter 0x00000047 (ops 0 3 15) = some 0x00000002 := by
  decide +kernel
theorem test_accept_align :
    statusAfter 0x00000002 (bufs 0 2 0 1) = some 0x00000304 ∧ statusAfter 0x00000042 (bufs 16 4 0 1) = some 0x00000304 ∧
    statusAfter 0x00000003 (bufs 0 2 0xFFFFFFFC 1) = some 0x00000304 := by decide +kernel
theorem test_accept_range :
    statusAfter 0x00000002 (bufs 0 0xFFFC 0 2) = some 0x00000404 ∧
    statusAfter 0x00000004 (bufs 0 0 0xFFFFFFFC 2) = some 0x00000404 ∧
    statusAfter 0x00000002 (bufs 0 0 0 0x40000000) = some 0x00000404 := by decide +kernel
theorem test_accept_empty : statusAfter 0x00000002 (bufs 0 3 0 0) = some 0x00000002 := by decide +kernel
theorem test_accept_last_block : statusAfter 0x00000002 (bufs 0 0xFFFC 0 1) = some 0x00000001 := by decide +kernel

/-! ### Registers (95_test_vectors.md L2.9) -/

/-- STATUS after a write to it, from given flags. -/
def statusWrite (st : Status) (v : Word) : Word := statusWord ({ at0 Operands.reset with status := st }.writeStatus v)

theorem test_status_w1c :
    statusWrite ⟨false, true, false, false, .illegalCmd⟩ 0x4 = 0 ∧
    statusWrite ⟨false, true, true, false, .desRounds⟩ 0x16 = 0x00000008 ∧
    statusWrite ⟨true, false, false, true, .none⟩ 0x10 = 0x00000002 ∧ statusWrite Status.reset 0xFFFFFFFF = 0 := by
  decide +kernel
theorem test_irqen :
    readReg 0x08 (writeReg 0x08 0xFFFFFFFF (at0 Operands.reset)) = 3 ∧
    irq { at0 Operands.reset with status := ⟨true, false, false, false, .none⟩, irqen := ⟨true, false⟩ } = true ∧
    irq { at0 Operands.reset with status := ⟨true, false, false, false, .none⟩, irqen := ⟨false, true⟩ } = false := by
  decide +kernel
theorem test_reserved_and_dout :
    writeReg 0x0C 0x12345678 (at0 Operands.reset) = at0 Operands.reset ∧
    writeReg 0x38 0x12345678 (runningAt .permSpn Operands.reset) = runningAt .permSpn Operands.reset ∧
    readReg 0x0C (at0 Operands.reset) = 0 := by decide +kernel
theorem test_frozen_write :
    let t := writeReg 0x10 1 (runningAt .permSpn Operands.reset)
    t.opr.keyLo = 0 ∧ t.status.wovr = true := by decide +kernel
/-- The block of a REG_BASE at the top of the address space (log 21): offset 0x10 lies at host address 0. -/
theorem test_register_block_wraps :
    registerOffset { at0 Operands.reset with cfg := ⟨{ tc1Config with regBase := 0xFFFFFFF0 }, by decide +kernel⟩ } 0 =
      some 0x10 ∧
    registerOffset (at0 Operands.reset) 0x400000FF = some 0xFF ∧ registerOffset (at0 Operands.reset) 0x40000100 = none := by
  decide +kernel
theorem test_withFetchWord :
    (match step ((at0 (ops 0 0 0x12345678)).withFetchWord 32 0x00000005) with
      | .next t => decide (t.phase = .single .permSpn ∧ t.host = [])
      | .fault _ => false
      | .refused _ => false) = true := by decide +kernel

/-! ### Witnesses: concrete states and operands that meet the hypotheses of each obligation

Named after the obligation; one clause of a conjunction for each clause that has hypotheses of its own, at the ends of its
ranges. -/

/-- A state IDLE with FAULT set. -/
def faulted : State := { at0 Operands.reset with status := ⟨false, true, true, false, .desRounds⟩ }

/-- The buffers of L2.8, in place. -/
def inPlaceOps : Operands := { ops 0xCAFEBABE 5 0 with ivLo := 0xDEADBEEF, src := 0x100, dst := 0x100, count := 4 }

/-- Buffers of two blocks that end exactly at MEM_SIZE. -/
def lastOps : Operands := bufs 16 0xFFF0 0xFFF0 2

/-- A mode command at its first RD step. -/
def reading (i : Instr) (o : Operands) : State := { at0 o with phase := .mode i ⟨0, .rd, 0⟩ }

/-- A state in which a list of agents moves next. -/
def scheduled (l : List Agent) (s : State) : State := { s with schedule := l }

/-- A state with events for the host. -/
def hosted (l : List HostOp) (s : State) : State := { s with host := l }

theorem at0_inv (o : Operands) : (at0 o).Inv where
  memWf := rfl
  memBelow := rfl
  faultIdle := fun _ => rfl
  oneOutcome := fun h => Bool.noConfusion h.1
  codeIffErr := ⟨fun _ => rfl, fun _ => rfl⟩
  busyQuiet := fun _ => ⟨rfl, rfl⟩
  phaseOk := trivial

theorem runningAt_inv : (runningAt .permSpn Operands.reset).Inv where
  memWf := rfl
  memBelow := rfl
  faultIdle := fun h => Bool.noConfusion h
  oneOutcome := fun h => Bool.noConfusion h.1
  codeIffErr := ⟨fun _ => rfl, fun _ => rfl⟩
  busyQuiet := fun _ => ⟨rfl, rfl⟩
  phaseOk := ⟨rfl, by decide⟩

theorem reading_inv : (reading .cbcEncSpn inPlaceOps).Inv where
  memWf := rfl
  memBelow := rfl
  faultIdle := fun h => Bool.noConfusion h
  oneOutcome := fun h => Bool.noConfusion h.1
  codeIffErr := ⟨fun _ => rfl, fun _ => rfl⟩
  busyQuiet := fun _ => ⟨rfl, rfl⟩
  phaseOk := ⟨rfl, by decide +kernel, Nat.zero_le _, (by decide : (0 : Nat) < 2 ^ 32), trivial⟩

theorem witness_LegalWordsAreTheCommandWords :
    legal 0 = false ∧ legal 0x80000001 = false ∧ (at0 Operands.reset).phase = .idle ∧
    (at0 Operands.reset).status.fault = false := by decide

theorem witness_EachWordIsOneCommandOrIllegal :
    decode 0x00000545 = .ok .permDesPc2 ∧ legal 0x00000000 = false ∧ legal 0x00000645 = false := by decide

theorem witness_StepRunsTheDecodedCommand :
    decode 0x00000005 = .ok .permSpn ∧
    (hosted [.regWrite 0x00 5] (scheduled [.host] (at0 Operands.reset))).host = .regWrite 0x00 5 :: [] ∧
    (hosted [.regWrite 0x00 5] (scheduled [.host] (at0 Operands.reset))).schedule = .host :: [] ∧
    (hosted [.regWrite 0x00 5] (at0 Operands.reset)).schedule = [] ∧
    (at0 Operands.reset).phase = .idle ∧ (at0 Operands.reset).status.fault = false ∧
    runningCommand (scheduled [.engine] (runningAt .ksDes Operands.reset)) = some .ksDes ∧
    (scheduled [.engine] (runningAt .ksDes Operands.reset)).schedule = .engine :: [] ∧
    (runningAt .ksDes Operands.reset).schedule = [] := by decide

theorem witness_AcceptFollowsItsAlgorithm :
    (at0 Operands.reset).status.fault = false ∧ (at0 Operands.reset).phase = .idle ∧ legal 0x00000081 = false ∧
    encode .ecbEncDes = 0x00000042 ∧ acceptError .ecbEncDes (at0 (bufs 15 3 0 1)) = some .desRounds ∧
    acceptError .ksDes (at0 (ops 0 0 16)) = some .badArg ∧ acceptError .ecbEncDes (at0 (bufs 16 4 0 1)) = some .align ∧
    acceptError .ecbEncDes (at0 (bufs 16 0xFFF8 0 2)) = some .range ∧
    acceptError .ecbEncDes (at0 (bufs 16 0xFFF8 0 1)) = none ∧ acceptError .ksDes (at0 (ops 0 0 15)) = none := by
  decide +kernel

theorem witness_DesRoundCountErrorIsFatal :
    (at0 (bufs 15 0 0 0)).phase = .idle ∧ (at0 (bufs 15 0 0 0)).status.fault = false ∧
    (at0 (bufs 15 0 0 0)).opr.rounds.toNat ≠ 16 ∧ (at0 (bufs 17 0 0 1)).opr.rounds.toNat ≠ 16 ∧
    (at0 lastOps).opr.rounds.toNat = 16 ∧ (at0 (bufs 16 3 3 0)).opr.count.toNat = 0 ∧
    lastOps.src.toNat % 8 = 0 ∧ lastOps.dst.toNat % 8 = 0 ∧
    lastOps.src.toNat + lastOps.count.toNat * 8 ≤ tc1Config.memSize ∧
    lastOps.dst.toNat + lastOps.count.toNat * 8 ≤ tc1Config.memSize := by decide +kernel

theorem witness_FaultedEngineIgnoresCommands :
    faulted.status.fault = true ∧ faulted.phase = .idle ∧
    (0x04 : BitVec 8) ≠ 0x00 ∧ (0x04 : BitVec 8).toNat % 4 = 0 ∧ (0xFC : BitVec 8).toNat % 4 = 0 ∧
    (0xFC : BitVec 8) ≠ 0x04 := by decide

theorem witness_BuffersAreCheckedAtTheAccept :
    isMode .cfbDecDes = true ∧ (at0 lastOps).phase = .idle ∧ (at0 lastOps).status.fault = false ∧
    (at0 lastOps).opr.rounds.toNat = 16 ∧
    ((bufs 16 4 0 1).count.toNat > 0 ∧ ¬((bufs 16 4 0 1).src.toNat % 8 = 0)) ∧
    ((bufs 16 0xFFF8 0 2).count.toNat > 0 ∧ (bufs 16 0xFFF8 0 2).src.toNat % 8 = 0 ∧
      ¬((bufs 16 0xFFF8 0 2).src.toNat + (bufs 16 0xFFF8 0 2).count.toNat * 8 ≤ tc1Config.memSize)) ∧
    (lastOps.count.toNat > 0 ∧ lastOps.src.toNat % 8 = 0 ∧ lastOps.src.toNat + lastOps.count.toNat * 8 ≤ tc1Config.memSize) ∧
    (bufs 16 3 3 0).count.toNat = 0 := by decide +kernel

theorem witness_PermutePullsEachBit : ([1, 0] : List Nat).length = 2 ∧ ∀ p ∈ ([1, 0] : List Nat), p < 2 := by decide

theorem witness_PermuteDesFollowsTheDesNumbering : 0 < 32 ∧ desE.length = 48 ∧ 1 ≤ 1 ∧ 48 ≤ 48 := by decide

theorem witness_SubstituteReplacesEachNibble :
    (sStraight tc1Config).length = 16 ∧ (∀ v ∈ sStraight tc1Config, v < 16) ∧
    (0x1234#16).extractLsb' (4 * 3) 4 = (0x1FFF#16).extractLsb' (4 * 3) 4 := by decide +kernel

/-- Every single-operation command can be running, KS.DES with the largest index that it takes, and the index beyond it can
be in DIN; DES with 16 rounds; Feistel with none. -/
theorem witness_singleCommandResults :
    (allCommands.filter (fun i => !isMode i)).length = 24 ∧
    (∀ i ∈ allCommands, (runningAt i (ops 0 0 0)).phase = .single i) ∧
    (ops 0 0 15).dinLo.toNat ≤ 15 ∧ (ops 0 0 16).dinLo.toNat > 15 ∧ (ops 0 0 0).dinLo = 0 ∧ (ops 0 0 0).rounds = 0 ∧
    (at0 (ops 0 0 16)).phase = .idle ∧ (at0 (ops 0 0 16)).status.fault = false := by
  refine ⟨rfl, fun _ _ => rfl, ?_⟩
  decide

theorem witness_UnusedKeyBitsHaveNoEffect :
    keysAgree .fei 0x000000001234BABE 0xFFFFFFFFCAFEBABE ∧ cipherOf .blkEncFei = .fei ∧
    keysAgree .spn 0x00000000CAFEBABE 0xFFFFFFFFCAFEBABE ∧ cipherOf .cbcEncSpn = .spn ∧
    keysAgree .des 0x0000000000000000 0x0101010101010101 ∧ cipherOf .ksDes = .des ∧ ignoresKey .permDesIp = true ∧
    ∃ t, exec .blkEncFei (runningAt .blkEncFei (ops 0x1234BABE 5 0x12345678)) = .next t := by
  refine ⟨?_, rfl, ?_, rfl, ?_, rfl, rfl, _, rfl⟩ <;> · unfold keysAgree; decide

theorem witness_UnreadOperandsHaveNoEffect :
    (∃ t, exec .permFei (runningAt .permFei (ops 0 0 0x1234)) = .next t) ∧ dinWidth .permFei = 16 ∧
    (∀ b, b < 16 → (0x00000000ABCD1234#64).getLsbD b = (0x0000000000001234#64).getLsbD b) ∧
    ignoresRounds .permFei = true ∧ isMode .permFei = false := by
  refine ⟨⟨_, rfl⟩, ?_⟩
  decide

theorem witness_ModeReadStep :
    isMode .ecbEncDes = true ∧ ({ at0 lastOps with phase := .mode .ecbEncDes ⟨1, .rd, 0⟩ } : State).phase =
      .mode .ecbEncDes ⟨1, .rd, 0⟩ ∧ 1 < lastOps.count.toNat ∧
    lastOps.src.toNat + (1 + 1) * (cipherOf .ecbEncDes).blockBytes ≤ tc1Config.memSize := by decide +kernel

/-- For the WR steps of the three modes. -/
theorem witness_ModeWriteSteps :
    modeOf .ecbDecFei = some .ecb ∧ modeOf .cbcEncDes = some .cbc ∧ modeOf .cbcDecSpn = some .cbc ∧
    modeOf .cfbEncSpn = some .cfb ∧ modeOf .cfbDecDes = some .cfb ∧
    (beforeWrite .cbcEncDes lastOps 7 8).phase = .mode .cbcEncDes ⟨1, .wr 7, 8⟩ ∧
    (beforeWrite .cbcEncDes lastOps 7 8).mem.wf = true ∧
    dstAddr .des (beforeWrite .cbcEncDes lastOps 7 8) 1 + Cipher.des.blockBytes ≤ tc1Config.memSize := by decide +kernel

theorem witness_ModeCompleteStep :
    isMode .cfbEncFei = true ∧ ({ at0 lastOps with phase := .mode .cfbEncFei ⟨2, .rd, 0⟩ } : State).phase =
      .mode .cfbEncFei ⟨2, .rd, 0⟩ ∧ 2 = lastOps.count.toNat := by decide +kernel

theorem witness_EmptyBufferCompletesAtOnce :
    isMode .ecbEncSpn = true ∧ isMode .ecbEncDes = true ∧ (bufs 0 3 0xFFFFFFFF 0).count.toNat = 0 ∧
    (at0 (bufs 0 3 0xFFFFFFFF 0)).phase = .idle ∧ (at0 (bufs 0 3 0xFFFFFFFF 0)).status.fault = false ∧
    cipherOf .ecbEncSpn ≠ .des ∧ (bufs 16 3 3 0).rounds.toNat = 16 ∧
    cipherOf .ecbEncDes = .des ∧ (bufs 0 3 0xFFFFFFFF 0).rounds.toNat ≠ 16 := by decide +kernel

theorem witness_ModeCommandRunsToCompletion :
    (at0 inPlaceOps).Inv ∧ isMode .cbcEncSpn = true ∧ (at0 inPlaceOps).phase = .idle ∧
    (at0 inPlaceOps).status.fault = false ∧ acceptError .cbcEncSpn (at0 inPlaceOps) = none :=
  ⟨at0_inv _, by decide +kernel⟩

theorem witness_ModeResultIsTheFunctionalDefinition :
    (at0 inPlaceOps).Inv ∧ modeOf .cbcEncSpn = some .cbc ∧ (at0 inPlaceOps).phase = .idle ∧
    (at0 inPlaceOps).status.fault = false ∧ acceptError .cbcEncSpn (at0 inPlaceOps) = none ∧
    noForwardOverlap .spn (at0 inPlaceOps) := by
  refine ⟨at0_inv _, by decide, by decide, by decide, by decide +kernel, fun i j hij hj => .inl ?_⟩
  show 0x100 + i * 4 + 4 ≤ 0x100 + j * 4
  omega

theorem witness_ModeDecryptUndoesEncrypt :
    Cipher.spn.fits 0xDEADBEEF ∧ Cipher.des.fits 0xFFFFFFFFFFFFFFFF ∧
    ∀ x ∈ ([0x6C6C6568, 0xFFFFFFFF] : List Block), Cipher.spn.fits x := by
  simp [Cipher.fits, Cipher.blockBits]

theorem witness_InPlaceDecryptRestoresTheBuffer :
    (at0 inPlaceOps).Inv ∧ isMode .cbcEncSpn = true ∧ modeOf .cbcDecSpn = modeOf .cbcEncSpn ∧
    cipherOf .cbcDecSpn = cipherOf .cbcEncSpn ∧ dirOf .cbcEncSpn = .enc ∧ dirOf .cbcDecSpn = .dec ∧
    (at0 inPlaceOps).phase = .idle ∧ (at0 inPlaceOps).status.fault = false ∧
    acceptError .cbcEncSpn (at0 inPlaceOps) = none ∧ (at0 inPlaceOps).opr.src = (at0 inPlaceOps).opr.dst :=
  ⟨at0_inv _, by decide +kernel⟩

theorem witness_ErrorPropagation :
    (∀ x ∈ ([1, 2, 3] : List Block), Cipher.fei.fits x) ∧ (∀ y ∈ ([1, 0xFFFFFFFF, 3] : List Block), Cipher.fei.fits y) ∧
    Cipher.fei.fits 0 ∧ ([1, 2, 3] : List Block).length = ([1, 0xFFFFFFFF, 3] : List Block).length ∧
    1 < ([1, 2, 3] : List Block).length ∧ 1 + 1 < ([1, 2, 3] : List Block).length ∧
    ([1, 2, 3] : List Block)[1]? ≠ ([1, 0xFFFFFFFF, 3] : List Block)[1]? ∧
    ∀ k, k ≠ 1 → ([1, 2, 3] : List Block)[k]? = ([1, 0xFFFFFFFF, 3] : List Block)[k]? := by
  refine ⟨?_, ?_, ?_, rfl, by decide, by decide, by decide, fun k hk => ?_⟩
  · simp [Cipher.fits, Cipher.blockBits]
  · simp [Cipher.fits, Cipher.blockBits]
  · simp [Cipher.fits, Cipher.blockBits]
  · match k with
    | 0 => rfl
    | 1 => exact absurd rfl hk
    | _ + 2 => rfl

/-- The four kinds of event of a single-operation command: running itself, the accept with and without an error, and the
write while another one runs. -/
theorem witness_SingleCommandFrame :
    isMode .ksDes = false ∧ (∃ t, exec .ksDes (runningAt .ksDes (ops 0 0 15)) = .next t) ∧
    (∃ t, exec .ksDes (at0 (ops 0 0 16)) = .next t) ∧ (∃ t, exec .blkEncDes (at0 (ops 0 15 0)) = .next t) ∧
    (∃ t, exec .ksDes (at0 (ops 0 0 15)) = .next t) ∧
    (∃ t, exec .ksDes (runningAt .permSpn (ops 0 0 0)) = .next t) ∧
    (runningAt .permSpn (ops 0 0 0)).phase ≠ .idle ∧ (runningAt .permSpn (ops 0 0 0)).phase ≠ .single .ksDes :=
  ⟨rfl, ⟨_, rfl⟩, ⟨_, rfl⟩, ⟨_, rfl⟩, ⟨_, rfl⟩, ⟨_, rfl⟩, nofun, nofun⟩

/-- The four kinds of event of a mode command: RD, WR, the accept, and the write while another command runs. -/
theorem witness_ModeCommandFrame :
    isMode .ecbEncSpn = true ∧ (reading .ecbEncSpn inPlaceOps).mem.wf = true ∧
    (∃ t, exec .ecbEncSpn (reading .ecbEncSpn inPlaceOps) = .next t) ∧
    (∃ t, exec .ecbEncSpn (beforeWrite .ecbEncSpn inPlaceOps 5 0) = .next t) ∧
    (∃ t, exec .ecbEncSpn (at0 inPlaceOps) = .next t) ∧
    (∃ t, exec .ecbEncSpn (runningAt .permSpn inPlaceOps) = .next t) ∧
    (runningAt .permSpn inPlaceOps).phase ≠ .idle ∧
    ∀ ms, (runningAt .permSpn inPlaceOps).phase ≠ .mode .ecbEncSpn ms :=
  ⟨rfl, rfl, ⟨_, rfl⟩, ⟨_, rfl⟩, ⟨_, rfl⟩, ⟨_, rfl⟩, nofun, nofun⟩

theorem witness_OperandsAreFrozenWhileBusy :
    (runningAt .permSpn Operands.reset).busy = true ∧ (runningAt .permSpn Operands.reset).status.fault = false ∧
    Reg.keyLo ∈ operandRegs ∧ Reg.dinHi ∈ operandRegs ∧ (at0 Operands.reset).busy = false ∧
    (∃ t, step (hosted [.regWrite 0x10 1] (scheduled [.host] (runningAt .permSpn Operands.reset))) = .next t) ∧
    (scheduled [.host] (runningAt .permSpn Operands.reset)).schedule.head? ≠ some .platform := by
  refine ⟨rfl, rfl, by decide, by decide, rfl, ⟨_, rfl⟩, by decide⟩

theorem witness_ReservedOffsetsAndAccessForms :
    (0x0C : BitVec 8).toNat % 4 = 0 ∧ (∀ r, (0x0C : BitVec 8) ≠ regOffset r) ∧
    (0x40 : BitVec 8).toNat % 4 = 0 ∧ (∀ r, (0x40 : BitVec 8) ≠ regOffset r) ∧
    (0xFC : BitVec 8).toNat % 4 = 0 ∧ (∀ r, (0xFC : BitVec 8) ≠ regOffset r) ∧
    (0x01 : BitVec 8).toNat % 4 ≠ 0 ∧ (0xFF : BitVec 8).toNat % 4 ≠ 0 ∧ 2 ≠ 4 := by
  refine ⟨by decide, ?_, by decide, ?_, by decide, ?_, by decide⟩ <;> · intro r; cases r <;> decide

theorem witness_ReadsReturnTheValueWithoutSideEffect :
    (5 ≤ 5 ∧ (5 < 8 ∨ 12 ≤ 5)) ∧ (5 ≤ 31 ∧ (31 < 8 ∨ 12 ≤ 31)) ∧ 2 ≤ 2 := by decide

theorem witness_FaultIsClearedByResetAlone :
    (∃ t, step (scheduled [.platform] faulted) = .next t ∧ t.status.fault = false ∧ acceptError .permSpn t = none) ∧
    faulted.status.fault = true ∧ (scheduled [.platform] faulted).schedule = .platform :: [] :=
  ⟨⟨_, rfl, rfl, by decide +kernel⟩, rfl, rfl⟩

theorem witness_ConfigurationNeverChanges : ∃ t, step (runningAt .permSpn Operands.reset) = .next t := ⟨_, rfl⟩

theorem witness_DoutIsWrittenByCompletionAlone :
    ∃ t, step (runningAt .substSpn Operands.reset) = .next t ∧
      (t.doutLo, t.doutHi) ≠ ((runningAt .substSpn Operands.reset).doutLo, (runningAt .substSpn Operands.reset).doutHi) :=
  ⟨_, rfl, by decide +kernel⟩

theorem witness_MemoryIsWrittenByTwoEventsAlone :
    (beforeWrite .ecbEncSpn (bufs 0 0 0 4) 5 0).mem.wf = true ∧ (at0 Operands.reset).mem.wf = true ∧
    (∃ t, step (beforeWrite .ecbEncSpn (bufs 0 0 0 4) 5 0) = .next t ∧
      t.mem ≠ (beforeWrite .ecbEncSpn (bufs 0 0 0 4) 5 0).mem) ∧
    ∃ t, step (hosted [.memWrite 0xFFFF [1]] (at0 Operands.reset)) = .next t ∧ t.mem ≠ (at0 Operands.reset).mem :=
  ⟨rfl, rfl, ⟨_, rfl, by decide +kernel⟩, _, rfl, by decide +kernel⟩

theorem witness_CommandLifeCycle :
    (∃ t, step (hosted [.regWrite 0x00 5] (at0 Operands.reset)) = .next t ∧ t.phase ≠ .idle) ∧
    (∃ t, step (hosted [.busWrite 0x40000000 4 5] (at0 Operands.reset)) = .next t ∧ t.phase ≠ .idle) ∧
    (at0 Operands.reset).phase = .idle ∧ (scheduled [.engine] (at0 Operands.reset)).schedule = .engine :: [] ∧
    (∃ t, step (reading .cbcEncSpn inPlaceOps) = .next t) ∧
    runningCommand (reading .cbcEncSpn inPlaceOps) = some .cbcEncSpn :=
  ⟨⟨_, rfl, by decide +kernel⟩, ⟨_, rfl, by decide +kernel⟩, rfl, rfl, ⟨_, rfl⟩, rfl⟩

theorem witness_ResetStateIsSafe :
    Memory.wf [(0, 1), (0xFFFF, 2)] = true ∧ Memory.below [(0, 1), (0xFFFF, 2)] tc1.val.memSize = true := by
  decide +kernel

theorem witness_StepKeepsTheInvariant :
    (∃ t, step (reading .cbcEncSpn inPlaceOps) = .next t) ∧ (reading .cbcEncSpn inPlaceOps).Inv :=
  ⟨⟨_, rfl⟩, reading_inv⟩

theorem witness_NoRunTimeException : (runningAt .permSpn Operands.reset).Inv := runningAt_inv

/-- For the two statements about engine steps of a safe, running command. -/
theorem witness_EngineSteps :
    (reading .cbcEncSpn inPlaceOps).Inv ∧ (reading .cbcEncSpn inPlaceOps).busy = true ∧
    (∃ t, engineStep (reading .cbcEncSpn inPlaceOps) = .next t) ∧
    (runningAt .permSpn Operands.reset).Inv ∧ (runningAt .permSpn Operands.reset).busy = true ∧
    (∃ t, engineStep (runningAt .permSpn Operands.reset) = .next t) ∧
    (at0 inPlaceOps).phase = .idle ∧ (at0 inPlaceOps).status.fault = false ∧
    acceptError .cbcEncSpn (at0 inPlaceOps) = none ∧ ∃ t, exec .cbcEncSpn (at0 inPlaceOps) = .next t :=
  ⟨reading_inv, rfl, ⟨_, rfl⟩, runningAt_inv, rfl, ⟨_, rfl⟩, rfl, rfl, by decide +kernel, ⟨_, rfl⟩⟩

theorem witness_ResetClearsTheEngine :
    (scheduled [.platform] (reading .cbcEncSpn inPlaceOps)).schedule = .platform :: [] := rfl

theorem witness_MemoryIsLittleEndian :
    Memory.wf [(0x100, 0x68), (0x101, 0x65)] = true ∧ (at0 Operands.reset).mem.wf = true ∧
    (0xFFFE : Word).toNat + ([0x68, 0x65] : List Byte).length ≤ (at0 Operands.reset).cfg.val.memSize ∧
    (0xFFFE : Word).toNat + 2 ≤ (at0 Operands.reset).cfg.val.memSize := by decide

theorem witness_RunStatementEnds :
    (hosted (expandStmt (.run .cbcEncSpn) ++ []) (at0 inPlaceOps)).Inv ∧ (at0 inPlaceOps).phase = .idle ∧
    (at0 inPlaceOps).schedule = [] ∧ (at0 inPlaceOps).status.fault = false ∧
    (hosted (expandStmt (.run .cbcEncSpn)) faulted).host = expandStmt (.run .cbcEncSpn) ++ [] ∧
    (hosted (expandStmt (.run .cbcEncSpn)) faulted).Inv ∧ faulted.status.fault = true := by
  refine ⟨⟨rfl, rfl, fun _ => rfl, fun h => Bool.noConfusion h.1, ⟨fun _ => rfl, fun _ => rfl⟩, fun _ => ⟨rfl, rfl⟩,
    trivial⟩, rfl, rfl, rfl, rfl, ⟨rfl, rfl, fun _ => rfl, fun h => Bool.noConfusion h.1, ⟨nofun, nofun⟩,
    fun h => Bool.noConfusion h, trivial⟩, rfl⟩

theorem witness_IllFormedConfigurationIsRefused :
    ¬Function.Bijective ({ tc1Config with feiSbox := Vector.replicate 16 0 } : Config).feiSbox.get ∧
    Function.Bijective tc1Config.spnSbox.get ∧ Function.Bijective tc1Config.spnPbox.get ∧
    Function.Bijective tc1Config.feiSbox.get ∧ Function.Bijective tc1Config.feiPbox.get ∧
    1 ≤ ({ tc1Config with memSize := 1 } : Config).memSize ∧
    ({ tc1Config with memSize := 2 ^ 32 } : Config).memSize ≤ 2 ^ 32 := by
  refine ⟨fun h => ?_, ?_, ?_, ?_, ?_, by decide, by decide⟩
  · exact absurd (h.1 (a₁ := 0) (a₂ := 1) (by decide)) (by decide)
  all_goals exact Finite.injective_iff_bijective.1 (by decide +kernel)

end Sys2Proof.Tests
end

/-! PROOFS. The construction of a machine from a configuration (spec 00_scope.md R7, R8). -/

namespace Sys2Proof.Machine

/-- As many entries as values and none twice: the counting form in which `Config.wf` says "bijection". -/
theorem nodup_toList_iff_bijective_get {n : Nat} (v : Vector (Fin n) n) :
    v.toList.Nodup ↔ Function.Bijective v.get := by
  have hv : v.toList = List.ofFn v.get := by
    rw [← Vector.toList_ofFn]
    congr 1
    ext i hi
    simp [Vector.get_eq_getElem]
  rw [hv, List.nodup_ofFn, Finite.injective_iff_bijective]

/-- The well-formedness check, in the words of 00_scope.md R7 and R8. -/
theorem config_wf_iff (c : Config) :
    c.wf = true ↔
      (Function.Bijective c.spnSbox.get ∧ Function.Bijective c.spnPbox.get ∧
        Function.Bijective c.feiSbox.get ∧ Function.Bijective c.feiPbox.get) ∧
      1 ≤ c.memSize ∧ c.memSize ≤ 2 ^ 32 := by
  simp only [Config.wf, Bool.and_eq_true, decide_eq_true_eq, nodup_toList_iff_bijective_get, and_assoc]

/-- A launch is refused exactly when the configuration is ill-formed, whatever the program: its directives can only
make it fault. -/
theorem launch_eq_refused_iff (c : Config) (p : Program) (r : Refusal) :
    launch c p = .refused r ↔ ¬c.wf = true ∧ r = .illFormedConfiguration := by
  by_cases hwf : c.wf = true
  · by_cases hp : (p.directives.all fun d => directiveEnd d ≤ c.memSize) = true <;>
      simp [launch, hwf, hp]
  · simp [launch, hwf, eq_comm]

/-- Settles O60: a launch is refused exactly when `Config.wf` fails, and `Config.wf` asks for the four bijections and
the bounds of MEM_SIZE. -/
theorem illFormedConfigurationIsRefused : Obligations.IllFormedConfigurationIsRefused := by
  unfold Obligations.IllFormedConfigurationIsRefused
  intro c p bijections
  constructor
  · intro hnot
    have hwf : ¬c.wf = true := fun h => hnot ((config_wf_iff c).1 h).1
    exact (launch_eq_refused_iff c p _).2 ⟨hwf, rfl⟩
  · intro hbij hlo hhi r hr
    have hwf : c.wf = true := (config_wf_iff c).2 ⟨hbij, hlo, hhi⟩
    exact ((launch_eq_refused_iff c p r).1 hr).1 hwf

end Sys2Proof.Machine

/-! PROOFS. The register file and the configuration (spec 10_state.md R32 to R51): what a host access does at each register,
and what every step keeps. -/

namespace Sys2Proof.Machine

/-! ### Accesses by register name -/

/-- Every defined register stands at an aligned offset (10_state.md R32, R33). -/
@[simp] theorem registerAccessWf_regOffset (r : Reg) : registerAccessWf (regOffset r) 4 = true := by
  cases r <;> rfl

/-- The register map as it is read is the table of 10_state.md R33. -/
@[simp] theorem readReg_regOffset (r : Reg) (s : State) : readReg (regOffset r) s = regValue r s := by
  cases r <;> rfl

/-- A read of a defined register adds its value to the host's record (10_state.md R46). -/
theorem regRead_regOffset (r : Reg) (s : State) :
    regRead (regOffset r) s = .next (s.record (.reg (regOffset r) (regValue r s))) := by
  simp [regRead]

/-- An operand register is written through the freeze, at its own offset of the map (10_state.md R33, R44). -/
theorem regWrite_operand {r : Reg} (hr : r ∈ operandRegs) (v : Word) (s : State) :
    regWrite (regOffset r) v s = .next (s.writeOperand (s.opr.set r v)) := by
  cases r with
  | cmd | status | irqen | doutLo | doutHi => exact absurd hr (by decide)
  | _ => rfl

/-- An operand register reads the value it was last set to (10_state.md R44). -/
theorem regValue_withOpr_set {r : Reg} (hr : r ∈ operandRegs) (s : State) (v : Word) :
    regValue r (s.withOpr (s.opr.set r v)) = v := by
  cases r with
  | cmd | status | irqen | doutLo | doutHi => exact absurd hr (by decide)
  | _ => rfl

/-- A write to STATUS is the W1C write in every state (10_state.md R34, R44). -/
theorem regWrite_status (v : Word) (s : State) : regWrite (regOffset .status) v s = .next (s.writeStatus v) := rfl

/-- A write to IRQEN sets the two enables in every state (10_state.md R35, R44). -/
theorem regWrite_irqen (v : Word) (s : State) : regWrite (regOffset .irqen) v s = .next (s.writeIrqen v) := rfl

/-! ### The freeze -/

theorem writeOperand_of_busy {s : State} (hb : s.busy = true) (o : Operands) : s.writeOperand o = s.overrun := by
  rw [State.writeOperand, if_pos hb]

theorem writeOperand_of_not_busy {s : State} (hb : s.busy = false) (o : Operands) :
    s.writeOperand o = s.withOpr o := by
  rw [State.writeOperand, hb, if_neg Bool.false_ne_true]

/-- A CMD write while BUSY is an overrun; with FAULT 1 it would be ignored without WOVR (10_state.md R36, R44). -/
theorem cmdWrite_of_busy {s : State} (hb : s.busy = true) (hf : s.status.fault = false) (w : Word) :
    cmdWrite w s = .next s.overrun := by
  rw [cmdWrite, hf, if_neg Bool.false_ne_true, if_pos hb]

/-! ### The flag words and the interrupt output -/

/-- Bits 7:5 and 31:12 of STATUS are reserved and read 0 (10_state.md R34). -/
theorem statusWord_reserved (s : State) {k : Nat} (h5 : 5 ≤ k) (hk : k < 8 ∨ 12 ≤ k) :
    (statusWord s).getLsbD k = false := by
  by_cases h32 : k < 32
  · rw [statusWord_bit s h32, if_neg, if_neg, if_neg, if_neg, if_neg, if_neg] <;> omega
  · exact BitVec.getLsbD_of_ge _ _ (by omega)

/-- Bits 31:2 of IRQEN are reserved and read 0 (10_state.md R35). -/
theorem irqenWord_reserved (s : State) {k : Nat} (h2 : 2 ≤ k) : (irqenWord s).getLsbD k = false := by
  by_cases h32 : k < 32
  · rw [irqenWord_bit s h32, if_neg, if_neg] <;> omega
  · exact BitVec.getLsbD_of_ge _ _ (by omega)

/-- The two reasons for an interrupt (60_exceptions.md R370). -/
theorem irq_iff (s : State) :
    irq s = true ↔ (s.status.done = true ∧ s.irqen.doneIe = true) ∨ (s.status.err = true ∧ s.irqen.errIe = true) := by
  simp only [irq, Bool.or_eq_true, Bool.and_eq_true]

/-! ### What every step keeps -/

/-- No step changes the configuration (10_state.md R51). -/
theorem step_cfg {s t : State} (h : step s = .next t) : t.cfg = s.cfg := by
  cases step_cases h with
  | idle sched ht => rw [ht]; rfl
  | reset sched hs ht => rw [ht]; rfl
  | host op rest sched hh hx => simpa using hostCase_cfg (hostEvent_cases hx)
  | engine i sched hr hx => simpa using exec_cfg hx

/-- While BUSY no step but reset changes an operand register (10_state.md R44). -/
theorem step_opr_of_busy {s t : State} (hb : s.busy = true) (h : step s = .next t)
    (hn : s.schedule.head? ≠ some .platform) : t.opr = s.opr := by
  cases step_cases h with
  | idle sched ht => rw [ht]; rfl
  | reset sched hs ht => exact absurd (by rw [hs]; rfl) hn
  | host op rest sched hh hx => simpa using hostCase_opr (hostEvent_cases hx) hb
  | engine i sched hr hx => simpa using exec_opr hx

/-! ### The obligations of 10_state.md -/

/-- Settles O44: a frozen write is `State.overrun`, STATUS and IRQEN are written without the freeze, and
`step_opr_of_busy` says that the operands stay. -/
theorem operandsAreFrozenWhileBusy : Obligations.OperandsAreFrozenWhileBusy := by
  unfold Obligations.OperandsAreFrozenWhileBusy
  refine ⟨fun s r v hb hf hr => ?_, fun s v _ => ⟨regWrite_status v s, regWrite_irqen v s⟩,
    fun s r v hb hr => ?_, fun _ _ => step_opr_of_busy⟩
  · obtain rfl | hr := hr
    · exact cmdWrite_of_busy hb hf v
    · rw [regWrite_operand hr, writeOperand_of_busy hb]; rfl
  · refine ⟨s.withOpr (s.opr.set r v), ?_, rfl, regValue_withOpr_set hr s v⟩
    rw [regWrite_operand hr, writeOperand_of_not_busy hb]

/-- Settles O48: by the cases of a step; reset keeps the configuration by definition. -/
theorem configurationNeverChanges : Obligations.ConfigurationNeverChanges := by
  unfold Obligations.ConfigurationNeverChanges
  exact ⟨fun _ _ => step_cfg, State.resetEvent_cfg⟩

/-- Settles O43: the IRQEN word bit by bit, its write in every state, and the interrupt output. -/
theorem irqEnableAndOutput : Obligations.IrqEnableAndOutput := by
  unfold Obligations.IrqEnableAndOutput
  exact ⟨fun s v => ⟨fun _ hk => irqenWord_bit s hk, regWrite_irqen v s, irq_iff s⟩, rfl⟩

/-- Settles O46: a register read records the register's value and does nothing else, and the reserved bits of the two
flag words are 0. -/
theorem readsReturnTheValueWithoutSideEffect : Obligations.ReadsReturnTheValueWithoutSideEffect := by
  unfold Obligations.ReadsReturnTheValueWithoutSideEffect
  exact fun s r => ⟨regRead_regOffset r s, rfl, fun _ => statusWord_reserved s, fun _ => irqenWord_reserved s⟩

end Sys2Proof.Machine

/-! PROOFS. The buffer checks of the accept (spec 20_memory.md R82, R85, R86): which of ALIGN, RANGE and acceptance each
pair of buffers gets, and the blocks of the buffers that pass. -/

namespace Sys2Proof.Machine

/-! ### The checks of a mode command with legal ROUNDS -/

theorem desRoundsCheck_eq_none {c : Cipher} {s : State} (hr : c = .des → s.opr.rounds.toNat = 16) :
    desRoundsCheck c s = none := by
  cases c with
  | spn | fei => rfl
  | des => exact if_pos ((rounds_eq_iff s).2 (hr rfl))

/-- With legal ROUNDS only the buffers can make a mode command fail (60_exceptions.md R362). -/
theorem acceptError_eq_bufferCheck {i : Instr} {s : State} (hm : isMode i = true)
    (hr : cipherOf i = .des → s.opr.rounds.toNat = 16) : acceptError i s = bufferCheck (cipherOf i) s := by
  rw [← modeCheck_eq_acceptError hm, modeCheck, desRoundsCheck_eq_none hr]

theorem buffersAligned_iff (c : Cipher) (s : State) :
    buffersAligned c s = true ↔ s.opr.src.toNat % c.blockBytes = 0 ∧ s.opr.dst.toNat % c.blockBytes = 0 := by
  rw [buffersAligned, Bool.and_eq_true, beq_iff_eq, beq_iff_eq]

theorem buffersInRange_iff (c : Cipher) (s : State) :
    buffersInRange c s = true ↔
      s.opr.src.toNat + s.opr.count.toNat * c.blockBytes ≤ s.cfg.val.memSize ∧
        s.opr.dst.toNat + s.opr.count.toNat * c.blockBytes ≤ s.cfg.val.memSize := by
  rw [buffersInRange, Bool.and_eq_true, decide_eq_true_eq, decide_eq_true_eq]; rfl

/-! ### The outcomes of the buffer checks -/

theorem bufferCheck_of_empty {c : Cipher} {s : State} (h0 : s.opr.count.toNat = 0) : bufferCheck c s = none :=
  if_pos h0

theorem bufferCheck_of_misaligned {c : Cipher} {s : State} (h0 : s.opr.count.toNat > 0)
    (ha : ¬buffersAligned c s = true) : bufferCheck c s = some .align := by
  simp [bufferCheck, blockCount, h0.ne', ha]

theorem bufferCheck_of_outOfRange {c : Cipher} {s : State} (h0 : s.opr.count.toNat > 0)
    (ha : buffersAligned c s = true) (hr : ¬buffersInRange c s = true) : bufferCheck c s = some .range := by
  simp [bufferCheck, blockCount, h0.ne', ha, hr]

theorem bufferCheck_of_fitting {c : Cipher} {s : State} (ha : buffersAligned c s = true)
    (hr : buffersInRange c s = true) : bufferCheck c s = none := by
  simp [bufferCheck, ha, hr]

/-! ### Blocks of aligned buffers -/

/-- Every input block is aligned as SRC is (20_memory.md R82). -/
theorem srcAddr_mod (c : Cipher) (s : State) (j : Nat) :
    srcAddr c s j % c.blockBytes = s.opr.src.toNat % c.blockBytes :=
  Nat.add_mul_mod_self_right ..

/-- Every output block is aligned as DST is (20_memory.md R82). -/
theorem dstAddr_mod (c : Cipher) (s : State) (j : Nat) :
    dstAddr c s j % c.blockBytes = s.opr.dst.toNat % c.blockBytes :=
  Nat.add_mul_mod_self_right ..

/-! ### The obligation of 20_memory.md -/

/-- Settles O8: with legal ROUNDS the accept's error is that of `bufferCheck`, whose four outcomes are the four clauses;
a block is aligned as its buffer is, and lies in the memory by `blocks_inMemory`. -/
theorem buffersAreCheckedAtTheAccept : Obligations.BuffersAreCheckedAtTheAccept := by
  unfold Obligations.BuffersAreCheckedAtTheAccept
  intro i s hm hp hf hr bb aligned inRange
  have hcheck : acceptError i s = bufferCheck (cipherOf i) s := acceptError_eq_bufferCheck hm hr
  have haligned : buffersAligned (cipherOf i) s = true ↔ aligned := buffersAligned_iff _ s
  have hinRange : buffersInRange (cipherOf i) s = true ↔ inRange := buffersInRange_iff _ s
  obtain ⟨hraise, haccept⟩ := command_eq (i := i) hf hp
  refine ⟨fun h0 ha => ?align, fun h0 ha hir => ?range, fun _ ha hir => ?accepted, fun h0 => ?empty⟩
  case align => exact hraise _ (hcheck.trans (bufferCheck_of_misaligned h0 (mt haligned.1 ha)))
  case range => exact hraise _ (hcheck.trans (bufferCheck_of_outOfRange h0 (haligned.2 ha) (mt hinRange.1 hir)))
  case accepted =>
    have hnone : acceptError i s = none :=
      hcheck.trans (bufferCheck_of_fitting (haligned.2 ha) (hinRange.2 hir))
    refine ⟨haccept hnone, fun j hj => ?_⟩
    obtain ⟨hsrc, hdst⟩ := blocks_inMemory hm hnone hj
    exact ⟨(srcAddr_mod _ s j).trans ha.1, hsrc, (dstAddr_mod _ s j).trans ha.2, hdst⟩
  case empty => exact haccept (hcheck.trans (bufferCheck_of_empty h0))

end Sys2Proof.Machine

/-! PROOFS. The command words (spec 30_encoding.md R111 to R119): the fields of a word, what the decoder answers on them,
and that `encode` inverts it on exactly the legal words. -/

namespace Sys2Proof

/-! ### The fields of a word -/

/-- The columns of the opcode map, read off a word (30_encoding.md R111). -/
def wordFields (w : Word) : Fields := ⟨opField w, dirField w, cipherField w, tselField w⟩

/-- The six fields cover the word, in the order in which `encode` joins them (30_encoding.md R111). -/
theorem append_fields (w : Word) :
    rsv1Field w ++ tselField w ++ rsv0Field w ++ cipherField w ++ dirField w ++ opField w = w := by
  simp +instances only [rsv1Field, tselField, rsv0Field, cipherField, dirField, opField,
    BitVec.extractLsb'_append_extractLsb'_eq_extractLsb']
  exact BitVec.extractLsb'_eq_self

/-- The word of a command holds its row of the opcode map (30_encoding.md R119). -/
@[simp] theorem wordFields_encode (i : Instr) : wordFields (encode i) = i.fields := by
  cases i <;> rfl

@[simp] theorem rsv0Field_encode (i : Instr) : rsv0Field (encode i) = 0 := by
  cases i <;> rfl

@[simp] theorem rsv1Field_encode (i : Instr) : rsv1Field (encode i) = 0 := by
  cases i <;> rfl

/-- A word is the word of a command exactly when its reserved fields are zero and the others are the command's row. -/
theorem encode_eq_iff (i : Instr) (w : Word) :
    encode i = w ↔ (rsv0Field w = 0 ∧ rsv1Field w = 0) ∧ i.fields = wordFields w := by
  constructor
  · rintro rfl
    exact ⟨⟨rsv0Field_encode i, rsv1Field_encode i⟩, (wordFields_encode i).symm⟩
  · rintro ⟨⟨h0, h1⟩, hf⟩
    have h := append_fields w
    rw [h0, h1] at h
    rw [encode, hf]
    exact h

/-! ### The command that the decoder answers

One rule per choice of the decoder: when the forms it chooses from have the right columns, so has what it answers. -/

/-- A case of a `match` on a field's number fixes the field. -/
theorem eq_ofNat_of_toNat_eq {n k : Nat} {x : BitVec n} (h : x.toNat = k) : x = BitVec.ofNat n k := by
  rw [← h, BitVec.ofNat_toNat, BitVec.setWidth_eq]

section
variable {op : BitVec 4} {dir : BitVec 1} {ci : BitVec 2} {ts : BitVec 3} {i : Instr}

theorem fields_of_byDir {i0 i1 : Instr} (h0 : i0.fields = ⟨op, 0, ci, ts⟩) (h1 : i1.fields = ⟨op, 1, ci, ts⟩)
    (h : byDir dir i0 i1 = .ok i) : i.fields = ⟨op, dir, ci, ts⟩ := by
  obtain rfl | rfl := BitVec.eq_zero_or_eq_one dir
  · cases h; exact h0
  · cases h; exact h1

theorem fields_of_straightOnly {i0 : Instr} (h0 : i0.fields = ⟨op, 0, ci, ts⟩) (h : straightOnly dir i0 = .ok i) :
    i.fields = ⟨op, dir, ci, ts⟩ := by
  obtain rfl | rfl := BitVec.eq_zero_or_eq_one dir
  · cases h; exact h0
  · cases h

theorem fields_of_noTable {r : Except DecodeError Instr} (hr : r = .ok i → i.fields = ⟨op, dir, ci, 0⟩)
    (h : noTable ts r = .ok i) : i.fields = ⟨op, dir, ci, ts⟩ := by
  unfold noTable at h
  split at h
  · rw [eq_of_beq ‹(ts == 0) = true›]; exact hr h
  · cases h

theorem fields_of_byCipher {spn fei des : Except DecodeError Instr}
    (hspn : spn = .ok i → i.fields = ⟨op, dir, 0, ts⟩) (hfei : fei = .ok i → i.fields = ⟨op, dir, 1, ts⟩)
    (hdes : des = .ok i → i.fields = ⟨op, dir, 2, ts⟩) (h : byCipher ci spn fei des = .ok i) :
    i.fields = ⟨op, dir, ci, ts⟩ := by
  unfold byCipher at h
  split at h
  · rw [eq_ofNat_of_toNat_eq ‹ci.toNat = 0›]; exact hspn h
  · rw [eq_ofNat_of_toNat_eq ‹ci.toNat = 1›]; exact hfei h
  · rw [eq_ofNat_of_toNat_eq ‹ci.toNat = 2›]; exact hdes h
  · cases h

theorem fields_of_byTable (h : byTable ts = .ok i) : i.fields = ⟨5, 0, 2, ts⟩ := by
  unfold byTable at h
  split at h
  case h_7 => cases h
  all_goals
    rw [eq_ofNat_of_toNat_eq ‹ts.toNat = _›]
    cases h
    rfl

theorem fields_of_desTable (h : (if dir == 0 then byTable ts else .error .dir) = .ok i) :
    i.fields = ⟨5, dir, 2, ts⟩ := by
  obtain rfl | rfl := BitVec.eq_zero_or_eq_one dir
  · exact fields_of_byTable h
  · cases h

/-- What the decoder answers has the columns that it read. -/
theorem fields_of_decodeFields (h : decodeFields op dir ci ts = .ok i) : i.fields = ⟨op, dir, ci, ts⟩ := by
  unfold decodeFields at h
  split at h
  case h_8 => cases h
  all_goals rw [eq_ofNat_of_toNat_eq ‹op.toNat = _›]
  case h_5 =>
    exact fields_of_byCipher (fields_of_noTable (fields_of_byDir rfl rfl)) (fields_of_noTable (fields_of_byDir rfl rfl))
      fields_of_desTable h
  case h_6 =>
    exact fields_of_noTable (fields_of_byCipher (fields_of_byDir rfl rfl) (fields_of_byDir rfl rfl)
      (fields_of_straightOnly rfl)) h
  case h_7 =>
    exact fields_of_noTable (fields_of_byCipher (fields_of_straightOnly rfl) (fields_of_straightOnly rfl)
      (fields_of_straightOnly rfl)) h
  all_goals
    exact fields_of_noTable (fields_of_byCipher (fields_of_byDir rfl rfl) (fields_of_byDir rfl rfl)
      (fields_of_byDir rfl rfl)) h

end

/-- The decoder answers a command exactly on that command's row of the opcode map (30_encoding.md R119). -/
theorem decodeFields_eq_ok_iff (f : Fields) (i : Instr) :
    decodeFields f.op f.dir f.cipher f.tsel = .ok i ↔ i.fields = f := by
  constructor
  · exact fields_of_decodeFields
  · rintro rfl
    cases i <;> rfl

/-- The test of the reserved fields (30_encoding.md R111). -/
theorem reserved_or_eq_true_iff (w : Word) :
    (rsv0Field w != 0 || rsv1Field w != 0) = true ↔ ¬(rsv0Field w = 0 ∧ rsv1Field w = 0) := by
  rw [Bool.or_eq_true, bne_iff_ne, bne_iff_ne, not_and_or]

/-- A word decodes to a command exactly when it is that command's word (30_encoding.md R118). -/
theorem decode_eq_ok_iff (w : Word) (i : Instr) : decode w = .ok i ↔ encode i = w := by
  rw [encode_eq_iff, ← decodeFields_eq_ok_iff, decode]
  split
  case isTrue hr => exact iff_of_false nofun fun h => (reserved_or_eq_true_iff w).1 hr h.1
  case isFalse hr => exact (and_iff_right (not_not.1 (mt (reserved_or_eq_true_iff w).2 hr))).symm

@[simp] theorem decode_encode (i : Instr) : decode (encode i) = .ok i := (decode_eq_ok_iff _ i).2 rfl

theorem encode_injective : Function.Injective encode := fun i j h =>
  Except.ok.inj ((decode_encode i).symm.trans ((congrArg decode h).trans (decode_encode j)))

/-! ### The words that the decoder accepts

`legal` asks of the fields what each choice of the decoder asks. -/

theorem beq_zero_eq_toNat_beq_zero {n : Nat} (x : BitVec n) : (x == 0) = (x.toNat == 0) := by
  rw [Bool.eq_iff_iff, beq_iff_eq, beq_iff_eq]
  exact BitVec.toNat_inj.symm

/-- A form with a condition on a field that must be zero. -/
theorem isOk_ite_beq_zero {n : Nat} (x : BitVec n) (r : Except DecodeError Instr) (e : DecodeError) :
    (if x == 0 then r else .error e).isOk = (x.toNat == 0 && r.isOk) := by
  rw [← beq_zero_eq_toNat_beq_zero]
  cases x == 0 <;> rfl

theorem isOk_noTable (ts : BitVec 3) (r : Except DecodeError Instr) :
    (noTable ts r).isOk = (ts.toNat == 0 && r.isOk) := isOk_ite_beq_zero ..

theorem isOk_straightOnly (dir : BitVec 1) (i : Instr) : (straightOnly dir i).isOk = (dir.toNat == 0) :=
  (isOk_ite_beq_zero ..).trans (Bool.and_true _)

theorem isOk_byDir (dir : BitVec 1) (i0 i1 : Instr) : (byDir dir i0 i1).isOk = true := by
  unfold byDir
  split <;> rfl

theorem isOk_byCipher (ci : BitVec 2) (spn fei des : Except DecodeError Instr) :
    (byCipher ci spn fei des).isOk =
      (ci.toNat == 0 && spn.isOk || ci.toNat == 1 && fei.isOk || ci.toNat == 2 && des.isOk) := by
  unfold byCipher
  split
  case h_4 => simp_all [Except.isOk, Except.toBool]
  all_goals simp [*]

theorem isOk_byTable : ∀ ts : BitVec 3, (byTable ts).isOk =
    (ts.toNat == 0 || ts.toNat == 1 || ts.toNat == 2 || ts.toNat == 3 || ts.toNat == 4 || ts.toNat == 5) := by
  decide

/-- The decoder accepts exactly the legal words (30_encoding.md R117). -/
theorem isOk_decode (w : Word) : (decode w).isOk = legal w := by
  unfold decode legal
  split
  case isTrue => rfl
  unfold decodeFields
  split
  case h_8 => simp_all [Except.isOk, Except.toBool]
  all_goals
    simp only [*, isOk_noTable, isOk_byCipher, isOk_byDir, isOk_straightOnly, isOk_ite_beq_zero, isOk_byTable]
    simp [Bool.and_or_distrib_right, Bool.and_assoc, Bool.and_comm]

/-- The legal words are the command words (30_encoding.md R117). -/
theorem legal_iff_exists_encode (w : Word) : legal w = true ↔ ∃ i, encode i = w := by
  rw [← isOk_decode]
  cases h : decode w with
  | ok i => exact iff_of_true rfl ⟨i, (decode_eq_ok_iff w i).1 h⟩
  | error e =>
    refine iff_of_false nofun ?_
    rintro ⟨i, rfl⟩
    exact nomatch h.symm.trans (decode_encode i)

/-- The words that the decoder refuses are the words that are not legal (30_encoding.md R118). -/
theorem exists_decode_eq_error_iff (w : Word) : (∃ e, decode w = .error e) ↔ legal w = false := by
  rw [← isOk_decode]
  cases decode w with
  | ok i => exact iff_of_false nofun nofun
  | error e => exact iff_of_true ⟨e, rfl⟩ rfl

end Sys2Proof

namespace Sys2Proof.Machine

/-! ### A CMD write of an illegal word -/

/-- The engine does not see which illegal word it was, nor why it is illegal (30_encoding.md R118). -/
theorem cmdWrite_of_illegal {w : Word} (hw : legal w = false) (s : State) :
    cmdWrite w s =
      if s.status.fault then .next s else if s.busy then .next s.overrun
      else .next (s.clearOutcome.raise .illegalCmd) := by
  obtain ⟨e, he⟩ := (exists_decode_eq_error_iff w).2 hw
  rw [cmdWrite, he]

/-- The outcome of an accept that fails is `raisedStatus`, and nothing else changes (60_exceptions.md R363, R364). -/
theorem raise_clearOutcome (s : State) (code : ErrCode) :
    s.clearOutcome.raise code = { s with status := raisedStatus code s } := rfl

/-- Every command stands in the list of the opcode map (30_encoding.md R119). -/
theorem mem_allCommands (i : Instr) : i ∈ allCommands := by
  cases i <;> decide

theorem allCommands_nodup : allCommands.Nodup := by decide

/-! ### The obligations of 30_encoding.md -/

/-- Settles O3: `decode` answers i exactly on `encode i`, refuses exactly the words that are not legal, and a CMD write
of an illegal word does not depend on the word. -/
theorem eachWordIsOneCommandOrIllegal : Obligations.EachWordIsOneCommandOrIllegal := by
  unfold Obligations.EachWordIsOneCommandOrIllegal
  refine ⟨decode_encode, fun w i => (decode_eq_ok_iff w i).1, exists_decode_eq_error_iff, fun w w' s hw hw' => ?_⟩
  rw [regWrite_cmd, regWrite_cmd, cmdWrite_of_illegal hw, cmdWrite_of_illegal hw']

/-- Settles O2: the legal words are those that `encode` reaches, `encode` is injective on the 42 commands, and at IDLE
with FAULT 0 an illegal word is an accept that fails with ILLEGAL_CMD. -/
theorem legalWordsAreTheCommandWords : Obligations.LegalWordsAreTheCommandWords := by
  unfold Obligations.LegalWordsAreTheCommandWords
  refine ⟨legal_iff_exists_encode, ⟨mem_allCommands, rfl, allCommands_nodup.map encode_injective⟩,
    fun w s hw hp hf => ?_⟩
  have hb : s.busy = false := (busy_eq_false_iff s).2 hp
  rw [regWrite_cmd, cmdWrite_of_illegal hw, hf, hb, ← raise_clearOutcome]
  rfl

end Sys2Proof.Machine

/-! PROOFS. The permutation and substitution functions (spec 40_primitives.md R140 to R145): each result as the sum of its
bits, nibbles or chunks, and the reverse tables. -/

namespace Sys2Proof.Machine

/-! ### Permutations -/

/-- DES bit j + 1 has the weight `2 ^ (n - (j + 1))`: a value as the sum of its DES bits, first bit first (00_scope.md
R11). -/
theorem sum_desBits {n : Nat} (x : BitVec n) :
    x.toNat = ∑ j ∈ Finset.range n, (desBit x (j + 1)).toNat * 2 ^ (n - (j + 1)) := by
  rw [sum_bits x, ← Finset.sum_range_reflect]
  refine Finset.sum_congr rfl fun j _ => ?_
  rw [desBit, show n - (j + 1) = n - 1 - j by omega]

/-- Settles O9: `getLsbD_permuteD` is the rule bit by bit, and a value is the sum of its bits. -/
theorem permutePullsEachBit : Obligations.PermutePullsEachBit := by
  unfold Obligations.PermutePullsEachBit
  intro w x T hT _
  have hbit : ∀ i, i < w → (permute x T).getLsbD i = x.getLsbD (T.getD i 0) := fun i hi => getLsbD_permuteD x hT hi
  refine ⟨hbit, (sum_bits _).trans (Finset.sum_congr rfl fun i hi => ?_)⟩
  rw [hbit i (Finset.mem_range.1 hi)]

/-- Settles O10: `permDes_bit` is the rule DES bit by DES bit, a value is the sum of its DES bits, and the entries of the
six tables are in range by evaluation. -/
theorem permuteDesFollowsTheDesNumbering : Obligations.PermuteDesFollowsTheDesNumbering := by
  unfold Obligations.PermuteDesFollowsTheDesNumbering
  refine ⟨fun m n x T _ hT => ⟨fun j h1 hn => ?_, ?_⟩, by decide⟩
  · have hbit := permDes_bit m n x T hT (j - 1) (by omega)
    rwa [show j - 1 + 1 = j by omega] at hbit
  · refine (sum_desBits _).trans (Finset.sum_congr rfl fun j hj => ?_)
    rw [permDes_bit m n x T hT j (Finset.mem_range.1 hj), desBit]

/-! ### Substitutions -/

/-- If all entries of a table are below 16, so is what it answers at any index, since the default is 0. -/
theorem getD_lt_sixteen {S : List Nat} (hS : ∀ v ∈ S, v < 16) (v : Nat) : S.getD v 0 < 16 := by
  rw [List.getD_eq_getElem?_getD]
  cases h : S[v]? with
  | none => decide
  | some e => exact hS e (List.mem_of_getElem? h)

/-- A value of 4n bits is the sum of its nibbles. -/
theorem toNat_eq_sum_extract_nibbles {n : Nat} (x : BitVec (4 * n)) :
    x.toNat = ∑ j ∈ Finset.range n, (x.extractLsb' (4 * j) 4).toNat * 2 ^ (4 * j) := by
  have hx : x.toNat < 16 ^ n := by have := x.isLt; rwa [Nat.pow_mul] at this
  simp only [extract_nibble]
  exact sum_nibbles n _ hx

/-- Settles O11: `subst_lane` is the rule nibble by nibble, a value is the sum of its nibbles, and `getD_table` reads the
tables of the configuration. -/
theorem substituteReplacesEachNibble : Obligations.SubstituteReplacesEachNibble := by
  unfold Obligations.SubstituteReplacesEachNibble
  refine ⟨fun n x S _ hS => ?_, fun c v => ⟨getD_table c.spnSbox v 0, getD_table c.feiSbox v 0⟩⟩
  have hlane : ∀ (y : BitVec (4 * n)) (j : Nat), j < n →
      ((substitute y S).extractLsb' (4 * j) 4).toNat = S.getD (y.extractLsb' (4 * j) 4).toNat 0 :=
    fun y j hj => subst_lane y (getD_lt_sixteen hS) hj
  refine ⟨?_, hlane x, fun y j hj hxy => ?_⟩
  · refine (toNat_eq_sum_extract_nibbles _).trans (Finset.sum_congr rfl fun j hj => ?_)
    rw [hlane x j (Finset.mem_range.1 hj)]
  · exact BitVec.eq_of_toNat_eq (by rw [hlane x j hj, hlane y j hj, hxy])

/-! ### Reverse tables -/

/-- The inverse of a table of the configuration sends entry i back to i (40_primitives.md R143). -/
theorem getD_inverseTable_get {n : Nat} {v : Vector (Fin n) n} (h : IsTable n (v.toList.map Fin.val)) (i : Fin n)
    (d : Nat) : (inverseTable (v.toList.map Fin.val)).getD (v.get i).val d = i := by
  rw [← getD_table v i 0]
  exact inv_table h i i.isLt d

/-- Settles O12: each of the four tables of a well-formed configuration is a bijection, so its inverse sends every entry
back to its index. -/
theorem reverseTablesAreInverses : Obligations.ReverseTablesAreInverses := by
  unfold Obligations.ReverseTablesAreInverses
  intro c
  exact ⟨fun i => getD_inverseTable_get (isTable_pStraight c) i 32, fun i => getD_inverseTable_get (isTable_pF c) i 16,
    fun v => getD_inverseTable_get (isTable_sStraight c) v 16, fun v => getD_inverseTable_get (isTable_sF c) v 16⟩

/-! ### The DES substitution -/

/-- Chunk k from the low end of x, looked up by its outer and inner bits in the positions of x (40_primitives.md R145). -/
theorem desBox_chunk {w : Nat} (S : List (List Nat)) (x : BitVec w) (k : Nat) :
    desBox S (x.toNat / 64 ^ k % 64) =
      (S.getD ((x.getLsbD (6 * k + 5)).toNat * 2 + (x.getLsbD (6 * k)).toNat) []).getD
        (x.extractLsb' (6 * k + 1) 4).toNat 0 := by
  have hbit : ∀ i, i < 6 → (x.toNat / 64 ^ k % 64).testBit i = x.getLsbD (6 * k + i) := fun i hi => by
    rw [show (64 : Nat) = 2 ^ 6 from rfl, ← Nat.pow_mul, Nat.testBit_mod_two_pow, Nat.testBit_div_two_pow]
    simp [hi, BitVec.getLsbD, Nat.add_comm]
  have hcol : x.toNat / 64 ^ k % 64 / 2 % 16 = (x.extractLsb' (6 * k + 1) 4).toNat := by
    rw [BitVec.extractLsb'_toNat, Nat.shiftRight_eq_div_pow, Nat.pow_succ, Nat.pow_mul, ← Nat.div_div_eq_div_mul,
      show 2 ^ 6 = 64 from rfl]
    omega
  rw [desBox, hbit 5 (by decide), hbit 0 (by decide), hcol]
  rfl

theorem substChunks_lt {L : List (List (List Nat))} (hL : ∀ S ∈ L, ∀ c < 64, desBox S c < 16) (x : Nat) :
    substChunks L x < 16 ^ L.length := by
  induction L generalizing x with
  | nil => simp [substChunks]
  | cons S L ih =>
    have hS : desBox S (x % 64) < 16 := hL S List.mem_cons_self _ (Nat.mod_lt _ (by decide))
    have hrest := ih (fun T hT => hL T (List.mem_cons_of_mem _ hT)) (x / 64)
    rw [substChunks, List.length_cons, Nat.pow_succ]
    omega

/-- The eight outputs fill the 32 bits and none overflows (40_primitives.md R145). -/
theorem toNat_substituteDes (x : BitVec 48) : (substituteDes x).toNat = substChunks desSboxes.reverse x.toNat := by
  have hlt := substChunks_lt (fun S hS => desBox_lt S (List.mem_reverse.1 hS)) x.toNat
  rw [substituteDes, BitVec.toNat_ofNat, Nat.mod_eq_of_lt (by simpa [desSboxes] using hlt)]

/-- The model counts the chunks from the low end, R145 from the high end: chunk k of R145 is the model's chunk 8 - k. -/
theorem toNat_substituteDes_eq_sum_desBox (x : BitVec 48) :
    (substituteDes x).toNat =
      ∑ k ∈ Finset.Icc 1 8, desBox (desSboxes.getD (k - 1) []) (x.toNat / 64 ^ (8 - k) % 64) * 16 ^ (8 - k) := by
  rw [toNat_substituteDes, substChunks_eq _ _ rfl]
  refine Finset.sum_nbij' (8 - ·) (8 - ·) ?_ ?_ ?_ ?_ fun i hi => ?_
  case refine_5 =>
    have hi8 : i < 8 := Finset.mem_range.1 hi
    rw [List.getD_reverse (l := desSboxes) i hi8, Nat.sub_sub_self hi8.le, Nat.sub_right_comm]
    rfl
  all_goals
    simp only [Finset.mem_range, Finset.mem_Icc]
    omega

/-- Settles O17: each chunk's box reads its row and column at the bits of x that R145 names, and SUBST.DES completes with
the value on DIN[47:0]. -/
theorem substDesLooksUpEachChunk : Obligations.SubstDesLooksUpEachChunk := by
  unfold Obligations.SubstDesLooksUpEachChunk
  refine ⟨fun x => ?_, fun s hs => ?_⟩
  · rw [toNat_substituteDes_eq_sum_desBox]
    refine Finset.sum_congr rfl fun k hk => ?_
    obtain ⟨-, hk8⟩ := Finset.mem_Icc.1 hk
    rw [desBox_chunk, show 6 * (8 - k) + 5 = 53 - 6 * k by omega, show 6 * (8 - k) = 48 - 6 * k by omega,
      show 48 - 6 * k + 1 = 49 - 6 * k by omega, show 32 - 4 * k = 4 * (8 - k) by omega, Nat.pow_mul]
  · rw [execSubstDes_done hs, dinLow_of_ge 16]

end Sys2Proof.Machine

/-! PROOFS. The word round keys (spec 41_key_schedule.md R170, R171), bit by bit and at index 0. -/

namespace Sys2Proof.Machine

/-- A word round key has the same form at both widths: bit k of the rotated key XOR bit k of the constant's multiple, which
the reduction to w bits keeps. -/
theorem getLsbD_ror_xor_ofNat {w : Nat} (x : BitVec w) (i n : Nat) {k : Nat} (hk : k < w) :
    (x.rotateRight (i % w) ^^^ BitVec.ofNat w n).getLsbD k = (x.getLsbD ((k + i) % w) ^^ n.testBit k) := by
  rw [BitVec.getLsbD_xor, getLsbD_ror x i k (Nat.zero_lt_of_lt hk) hk, BitVec.getLsbD_ofNat, decide_eq_true hk,
    Bool.true_and]

theorem getLsbD_rkSpn (K : BitVec 32) (i : Nat) {k : Nat} (hk : k < 32) :
    (rkSpn K i).getLsbD k = (K.getLsbD ((k + i) % 32) ^^ (i * keyConstant).testBit k) :=
  getLsbD_ror_xor_ofNat K i (i * keyConstant) hk

theorem getLsbD_rkFei (K : BitVec 16) (i : Nat) {k : Nat} (hk : k < 16) :
    (rkFei K i).getLsbD k = (K.getLsbD ((k + i) % 16) ^^ (i * keyConstant).testBit k) :=
  getLsbD_ror_xor_ofNat K i (i * keyConstant) hk

@[simp] theorem rkSpn_zero (K : BitVec 32) : rkSpn K 0 = K := by
  rw [rkSpn, Nat.zero_mod, Nat.zero_mul, ror_zero, BitVec.xor_zero]

@[simp] theorem rkFei_zero (K : BitVec 16) : rkFei K 0 = K := by
  rw [rkFei, Nat.zero_mod, Nat.zero_mul, ror_zero, BitVec.xor_zero]

/-- Settles O18: each command completes with `rkSpn` or `rkFei` of the operands, whose bits and whose value at index 0 are
given above; a bit of KEY[15:0] is that bit of KEY_LO. -/
theorem wordRoundKeyCommandResults : Obligations.WordRoundKeyCommandResults := by
  unfold Obligations.WordRoundKeyCommandResults
  refine fun s => ⟨fun hs => ⟨rkSpn s.opr.keyLo s.opr.dinLo.toNat, ?_, fun k hk => getLsbD_rkSpn _ _ hk, fun h0 => ?_⟩,
    fun hs => ⟨rkFei (s.opr.keyLo.setWidth 16) s.opr.dinLo.toNat, ?_, fun k hk => ?_, fun h0 => ?_⟩⟩
  · rw [execKsSpn_done hs, keySpn_eq, ksIndex_eq]
  · rw [h0, BitVec.ofNat_eq_ofNat, BitVec.toNat_zero, rkSpn_zero]
  · rw [execKsFei_done hs, keyFei_eq, ksIndex_eq]
  · have hlow : (k + s.opr.dinLo.toNat) % 16 < 16 := Nat.mod_lt _ (by decide)
    rw [getLsbD_rkFei _ _ hk, BitVec.getLsbD_setWidth, decide_eq_true hlow, Bool.true_and, keyConstant]
  · rw [h0, BitVec.ofNat_eq_ofNat, BitVec.toNat_zero, rkFei_zero]

end Sys2Proof.Machine

/-! PROOFS. SPN-32 (spec 42_spn32.md R190, R191): the recursions on the round count as folds over the rounds in order. -/

namespace Sys2Proof.Machine

/-- SPN-32 encryption runs the rounds 0 .. R-1: the recursion adds round R - 1 at the end, as the list does
(42_spn32.md R190). -/
theorem spnE_eq_foldl (c : Config) (b K : BitVec 32) (R : Nat) :
    spnE c b K R = (List.range R).foldl
      (fun x r => permute (substitute (x ^^^ rkSpn K r) (sStraight c)) (pStraight c)) b := by
  induction R with
  | zero => rfl
  | succ R ih => rw [spnE, ih, List.range_succ, List.foldl_concat]

/-- SPN-32 decryption runs the rounds R-1 downto 0: the recursion starts with round R - 1, as the reversed list does, so
the block is general in the induction (42_spn32.md R191). -/
theorem spnD_eq_foldl (c : Config) (b K : BitVec 32) (R : Nat) :
    spnD c b K R = (List.range R).reverse.foldl
      (fun x r => substitute (permute x (pReverse c)) (sReverse c) ^^^ rkSpn K r) b := by
  induction R generalizing b with
  | zero => rfl
  | succ R ih => rw [spnD, ih, List.range_succ, List.reverse_concat, List.foldl_cons]

/-- Settles O20: each command completes with its cipher function of DIN[31:0], KEY[31:0] and ROUNDS, which is the fold
over the rounds given above. -/
theorem blkSpnResults : Obligations.BlkSpnResults := by
  unfold Obligations.BlkSpnResults
  refine fun s => ⟨fun hs => ?_, fun hs => ?_⟩
  · rw [execBlkEncSpn_done hs, encBlock, din_setWidth_32, keySpn_eq, roundCount, spnE_eq_foldl]
  · rw [execBlkDecSpn_done hs, decBlock, din_setWidth_32, keySpn_eq, roundCount, spnD_eq_foldl]

end Sys2Proof.Machine

/-! PROOFS. Feistel networks (spec 43_feistel32.md R211, R212, 44_des64.md R231, R232) and Feistel-32: the recursions on the
round count as folds over the rounds in order. -/

namespace Sys2Proof.Machine

/-- A Feistel network forwards runs the rounds 0 .. R-1: the recursion adds round R - 1 at the end, as the list does
(43_feistel32.md R211). -/
theorem feistelUp_eq_foldl {h : Nat} (F : Nat → BitVec h → BitVec h) (R : Nat) (p : BitVec h × BitVec h) :
    feistelUp F R p = (List.range R).foldl (fun p r => (p.2, p.1 ^^^ F r p.2)) p := by
  induction R with
  | zero => rfl
  | succ R ih => rw [feistelUp, ih, List.range_succ, List.foldl_concat]

/-- A Feistel network backwards runs the rounds R-1 downto 0: the recursion starts with round R - 1, as the reversed list
does, so the halves are general in the induction (43_feistel32.md R212). -/
theorem feistelDown_eq_foldl {h : Nat} (F : Nat → BitVec h → BitVec h) (R : Nat) (p : BitVec h × BitVec h) :
    feistelDown F R p = (List.range R).reverse.foldl (fun p r => (p.2, p.1 ^^^ F r p.2)) p := by
  induction R generalizing p with
  | zero => rfl
  | succ R ih => rw [feistelDown, ih, List.range_succ, List.reverse_concat, List.foldl_cons]

/-- Settles O21: each command completes with its cipher function of DIN[31:0], KEY[15:0] and ROUNDS, whose network is the
fold over the rounds given above and whose join is the terminal swap; with no rounds both folds are the start. -/
theorem blkFeiResults : Obligations.BlkFeiResults := by
  unfold Obligations.BlkFeiResults
  intro s F round start up down
  refine ⟨fun hs => ?_, fun hs => ?_, fun h0 => ?_⟩
  · rw [execBlkEncFei_done hs, encBlock, din_setWidth_32, keyFei_eq, roundCount, feiE, feistelUp_eq_foldl]
    rfl
  · rw [execBlkDecFei_done hs, decBlock, din_setWidth_32, keyFei_eq, roundCount, feiD, feistelDown_eq_foldl]
    rfl
  · have hR : s.opr.rounds.toNat = 0 := by rw [h0]; rfl
    simp only [up, down, hR, List.range_zero, List.reverse_nil, List.foldl_nil, and_self]

end Sys2Proof.Machine

/-! PROOFS. DES-64 (spec 44_des64.md R230 to R232): its network with the rounds numbered from 1, as folds over the round
numbers in order. -/

namespace Sys2Proof.Machine

/-- A Feistel network forwards, its rounds numbered 1 .. R (44_des64.md R231). -/
theorem feistelUp_succ_eq_foldl {h : Nat} (F : Nat → BitVec h → BitVec h) (R : Nat) (p : BitVec h × BitVec h) :
    feistelUp (fun r => F (r + 1)) R p = (List.range' 1 R).foldl (fun p n => (p.2, p.1 ^^^ F n p.2)) p := by
  rw [feistelUp_eq_foldl, List.range'_eq_map_range, List.foldl_map]
  simp only [Nat.add_comm 1]

/-- A Feistel network backwards, its rounds numbered R downto 1 (44_des64.md R232). -/
theorem feistelDown_succ_eq_foldl {h : Nat} (F : Nat → BitVec h → BitVec h) (R : Nat) (p : BitVec h × BitVec h) :
    feistelDown (fun r => F (r + 1)) R p = (List.range' 1 R).reverse.foldl (fun p n => (p.2, p.1 ^^^ F n p.2)) p := by
  rw [feistelDown_eq_foldl, List.range'_eq_map_range, ← List.map_reverse, List.foldl_map]
  simp only [Nat.add_comm 1]

/-- DES-64 encryption is IP, the rounds 1 .. 16 in order, and the swap with FP (44_des64.md R231). -/
theorem desEncrypt_eq_foldl (b K : Block) :
    desEncrypt b K =
      desJoin ((List.range' 1 16).foldl (fun p n => (p.2, p.1 ^^^ desF p.2 (rkDes K n))) (desSplit b)) := by
  rw [desEncrypt, feistelUp_succ_eq_foldl fun n x => desF x (rkDes K n)]

/-- DES-64 decryption is the same with the rounds 16 downto 1 (44_des64.md R232). -/
theorem desDecrypt_eq_foldl (b K : Block) :
    desDecrypt b K =
      desJoin ((List.range' 1 16).reverse.foldl (fun p n => (p.2, p.1 ^^^ desF p.2 (rkDes K n))) (desSplit b)) := by
  rw [desDecrypt, feistelDown_succ_eq_foldl fun n x => desF x (rkDes K n)]

/-- Settles O22: each command completes with its cipher function of DIN and KEY, which is the fold over the round numbers
given above, in either order; `desF`, `desSplit` and `desJoin` are f, IP with the halves, and the half swap with FP. -/
theorem blkDesResults : Obligations.BlkDesResults := by
  unfold Obligations.BlkDesResults
  intro s f K round x start rounds up down
  have hrounds : rounds = List.range' 1 16 := rfl
  refine ⟨fun hs => ?_, fun hs => ?_⟩
  · rw [execBlkEncDes_done hs, encBlock, desEncrypt_eq_foldl, ← hrounds]
    rfl
  · rw [execBlkDecDes_done hs, decBlock, desDecrypt_eq_foldl, ← hrounds]
    rfl

end Sys2Proof.Machine

/-! PROOFS. The mode commands (spec 46_modes.md R301, R303, R306): the RD step, the command with nothing to do, and CFB's
use of the forward cipher alone. -/

namespace Sys2Proof.Machine

/-! ### The RD step -/

/-- The block that an RD step holds is the little-endian sum of its bytes (20_memory.md R84). -/
theorem toNat_inputBlock (c : Cipher) (s : State) (m : Memory) (j : Nat) :
    (inputBlock c s m j).toNat =
      ∑ k ∈ Finset.range c.blockBytes, (m.readByte (srcAddr c s j + k)).toNat * 2 ^ (8 * k) := by
  rw [inputBlock, readBytes_block, readBytes_sum]

/-- Input block j ends where block j + 1 begins (20_memory.md R82). -/
theorem srcAddr_add_blockBytes (c : Cipher) (s : State) (j : Nat) :
    srcAddr c s j + c.blockBytes = s.opr.src.toNat + (j + 1) * c.blockBytes := by
  rw [srcAddr, Nat.succ_mul, Nat.add_assoc]

/-- Settles O28: the RD step is `exec_read`, and the block it holds is the sum of `toNat_inputBlock`. -/
theorem modeReadStep : Obligations.ModeReadStep := by
  unfold Obligations.ModeReadStep
  intro i s j ch hm hp hj hr
  have hfits : srcAddr (cipherOf i) s j + (cipherOf i).blockBytes ≤ memSize s :=
    (srcAddr_add_blockBytes _ s j).trans_le hr
  exact ⟨inputBlock (cipherOf i) s s.mem j, exec_read hm hp hj hfits, toNat_inputBlock _ s s.mem j⟩

/-! ### COUNT = 0 -/

/-- A DES-64 mode command with illegal ROUNDS fails on them before its buffers are looked at (60_exceptions.md R362). -/
theorem acceptError_eq_desRounds {i : Instr} {s : State} (hm : isMode i = true) (hd : cipherOf i = .des)
    (hr : s.opr.rounds.toNat ≠ 16) : acceptError i s = some .desRounds := by
  have hrounds : desRoundsCheck .des s = some .desRounds := if_neg (mt (rounds_eq_iff s).1 hr)
  rw [← modeCheck_eq_acceptError hm, hd, modeCheck, hrounds]

/-- The first engine step after the accept of an empty mode command is the complete step: block 0 is not below COUNT, and
DONE alone is left of the command (46_modes.md R303). -/
theorem engineStep_accepted_of_empty {i : Instr} {s : State} (hm : isMode i = true) (hp : s.phase = .idle)
    (h0 : s.opr.count.toNat = 0) :
    engineStep { s with status := clearedStatus s, phase := runPhase i s } =
      .next { s with status := { clearedStatus s with done := true } } := by
  rw [runPhase_of_mode hm, engineStep_mode rfl, exec_modeDone hm rfl, modeDone, ← hp]
  exact h0.not_gt

/-- Settles O33: with COUNT = 0 the buffer checks find nothing, and the RD stage is at its end with block 0; the check of
ROUNDS comes before them. -/
theorem emptyBufferCompletesAtOnce : Obligations.EmptyBufferCompletesAtOnce := by
  unfold Obligations.EmptyBufferCompletesAtOnce
  intro i s hm h0 hp hf
  obtain ⟨hraise, haccept⟩ := command_eq (i := i) hf hp
  refine ⟨fun hr => ?accepted, fun hd hr => hraise _ (acceptError_eq_desRounds hm hd hr)⟩
  have hnone : acceptError i s = none :=
    (acceptError_eq_bufferCheck hm fun hd => hr.resolve_left (not_not_intro hd)).trans (bufferCheck_of_empty h0)
  refine ⟨_, haccept hnone, ?busy, ?completes⟩
  case busy => rw [runPhase_of_mode hm]; rfl
  case completes => exact engineStep_accepted_of_empty hm hp h0

/-! ### CFB -/

/-- A mode does the first block, and goes on from the chaining value it leaves (46_modes.md R300). -/
theorem modeOutputs_cons (m : Mode) (d : Dir) (enc dec : Block → Block) (chain x : Block) (xs : List Block) :
    modeOutputs m d enc dec chain (x :: xs) =
      (modeBlock m d enc dec x chain).1 :: modeOutputs m d enc dec (modeBlock m d enc dec x chain).2 xs := rfl

/-- One block of CFB does not depend on the second function, in either direction (46_modes.md R306). -/
theorem modeBlock_cfb_congr (d : Dir) (enc dec dec' : Block → Block) (x chain : Block) :
    modeBlock .cfb d enc dec x chain = modeBlock .cfb d enc dec' x chain := by
  cases d <;> rfl

/-- CFB does not depend on the second function, in either direction (46_modes.md R306). -/
theorem modeOutputs_cfb_congr (d : Dir) (enc dec dec' : Block → Block) (chain : Block) (xs : List Block) :
    modeOutputs .cfb d enc dec chain xs = modeOutputs .cfb d enc dec' chain xs := by
  induction xs generalizing chain with
  | nil => rfl
  | cons x xs ih => rw [modeOutputs_cons, modeOutputs_cons, modeBlock_cfb_congr d enc dec dec', ih]

/-- Decryption of one encrypted block of CFB gives the block, both masks being `enc chain`, and the chaining value of the
encryption, both being the encrypted block (46_modes.md R306). -/
theorem modeBlock_cfb_dec_enc (enc dec dec' : Block → Block) (x chain : Block) :
    modeBlock .cfb .dec enc dec (modeBlock .cfb .enc enc dec' x chain).1 chain =
      (x, (modeBlock .cfb .enc enc dec' x chain).2) := by
  simp only [modeBlock, BitVec.xor_assoc, BitVec.xor_self, BitVec.xor_zero]

/-- The CFB round trip; the chaining value changes from block to block, so it is general in the induction
(46_modes.md R306). -/
theorem modeOutputs_cfb_dec_enc (enc dec dec' : Block → Block) (chain : Block) (xs : List Block) :
    modeOutputs .cfb .dec enc dec chain (modeOutputs .cfb .enc enc dec' chain xs) = xs := by
  induction xs generalizing chain with
  | nil => rfl
  | cons x xs ih => rw [modeOutputs_cons, modeOutputs_cons, modeBlock_cfb_dec_enc, ih]

/-- Settles O38: the round trip is `modeOutputs_cfb_dec_enc`, the independence `modeOutputs_cfb_congr` for each direction. -/
theorem cfbRoundTripNeedsNoInverse : Obligations.CfbRoundTripNeedsNoInverse := by
  unfold Obligations.CfbRoundTripNeedsNoInverse
  intro enc dec dec' chain xs
  exact ⟨modeOutputs_cfb_dec_enc enc dec dec' chain xs, modeOutputs_cfb_congr .dec enc dec dec' chain xs,
    modeOutputs_cfb_congr .enc enc dec dec' chain xs⟩

end Sys2Proof.Machine

/-! PROOFS. The accept and its errors (spec 60_exceptions.md R360, R364, R365): which error a command raises, the fatal one
among them, and the engine that it leaves behind. -/

namespace Sys2Proof.Machine

/-! ### A CMD write -/

/-- An engine that is ready makes the accept of the command whose word is written (10_state.md R36). -/
theorem cmdWrite_encode {s : State} (hf : s.status.fault = false) (hp : s.phase = .idle) (i : Instr) :
    cmdWrite (encode i) s = exec i s := by
  have hb : s.busy = false := (busy_eq_false_iff s).2 hp
  simp only [cmdWrite, hf, hb, Bool.false_eq_true, if_false, decode_encode]

/-- A faulted engine takes no word, and sets no WOVR either (60_exceptions.md R365). -/
theorem cmdWrite_of_fault {s : State} (hf : s.status.fault = true) (w : Word) : cmdWrite w s = .next s := by
  rw [cmdWrite, if_pos hf]

/-- Settles O5: an illegal word is the third clause of O2, a command's word reaches `exec` by `cmdWrite_encode`, and
`command_eq` gives the outcome of each accept. -/
theorem acceptFollowsItsAlgorithm : Obligations.AcceptFollowsItsAlgorithm := by
  unfold Obligations.AcceptFollowsItsAlgorithm
  obtain ⟨_, _, hillegal⟩ := legalWordsAreTheCommandWords
  refine fun s w hf hp => ⟨fun hw => hillegal w s hw hp hf, ?_⟩
  rintro i rfl
  exact ⟨(regWrite_cmd _ s).trans (cmdWrite_encode hf hp i), command_eq hf hp⟩

/-! ### The checks of the DES-64 cipher commands -/

/-- No command is both a DES-64 cipher command and KS.DES, so BADARG is none of a cipher command's errors
(60_exceptions.md R360). -/
theorem isKsDes_of_isDesCipher {i : Instr} (hd : isDesCipher i = true) : isKsDes i = false := by
  have hall : ∀ i ∈ allCommands, isDesCipher i = true → isKsDes i = false := by decide
  exact hall i (mem_allCommands i) hd

theorem cipherOf_of_isDesCipher {i : Instr} (hd : isDesCipher i = true) : cipherOf i = .des := by
  have hall : ∀ i ∈ allCommands, isDesCipher i = true → cipherOf i = .des := by decide
  exact hall i (mem_allCommands i) hd

/-- ROUNDS is checked before everything else, so COUNT and the buffers do not matter (60_exceptions.md R362). -/
theorem acceptError_of_illegalRounds {i : Instr} {s : State} (hd : isDesCipher i = true)
    (hr : s.opr.rounds.toNat ≠ 16) : acceptError i s = some .desRounds :=
  if_pos ⟨hd, hr⟩

/-- With legal ROUNDS a DES-64 cipher command passes the accept, a mode command when its buffers are empty or fit
(44_des64.md R233, 20_memory.md R85, R86). -/
theorem acceptError_of_legalRounds {i : Instr} {s : State} (hd : isDesCipher i = true) (hr : s.opr.rounds.toNat = 16)
    (hbuf : isMode i = true → s.opr.count.toNat = 0 ∨
      (buffersAligned .des s = true ∧ buffersInRange .des s = true)) : acceptError i s = none := by
  cases hm : isMode i with
  | false => simp [acceptError, hr, hm, isKsDes_of_isDesCipher hd]
  | true =>
    rw [acceptError_eq_bufferCheck hm fun _ => hr, cipherOf_of_isDesCipher hd]
    obtain hempty | ⟨haligned, hinRange⟩ := hbuf hm
    · exact bufferCheck_of_empty hempty
    · exact bufferCheck_of_fitting haligned hinRange

/-! ### FAULT is sticky -/

/-- No step but reset clears FAULT (60_exceptions.md R364). -/
theorem step_fault {s t : State} (hf : s.status.fault = true) (hn : s.schedule.head? ≠ some .platform)
    (h : step s = .next t) : t.status.fault = true := by
  cases step_cases h with
  | idle sched ht => rw [ht]; exact hf
  | reset sched hs ht => exact absurd (by rw [hs]; rfl) hn
  | host op rest sched hh hx => exact hostCase_fault (hostEvent_cases hx) hf
  | engine i sched hr hx => exact exec_fault hx hf

/-- Settles O6: the check of ROUNDS is the first of the accept, its error sets FAULT, with FAULT set a CMD write changes
nothing, and `step_fault` keeps it set. -/
theorem desRoundCountErrorIsFatal : Obligations.DesRoundCountErrorIsFatal := by
  unfold Obligations.DesRoundCountErrorIsFatal
  refine ⟨fun _ _ => step_fault, fun i hi s hp hf => ?_⟩
  have hd : isDesCipher i = true := by
    revert i
    decide
  obtain ⟨hraise, haccept⟩ := command_eq (i := i) hf hp
  refine ⟨fun hr => ?fatal, fun hr hbuf => haccept (acceptError_of_legalRounds hd hr fun hm => ?buffers)⟩
  case fatal =>
    have hstatus : raisedStatus .desRounds s = ⟨false, true, true, s.status.wovr, .desRounds⟩ := by
      rw [raisedStatus, hf]; rfl
    refine ⟨_, hraise _ (acceptError_of_illegalRounds hd hr), by rw [hstatus],
      ⟨rfl, (busy_eq_false_iff _).2 hp, rfl⟩, fun w => ?_⟩
    rw [regWrite_cmd, cmdWrite_of_fault (by rw [hstatus])]
  case buffers =>
    refine (hbuf hm).imp_right fun ⟨hsrc, hdst, hsrcEnd, hdstEnd⟩ => ?_
    exact ⟨(buffersAligned_iff .des s).2 ⟨hsrc, hdst⟩, (buffersInRange_iff .des s).2 ⟨hsrcEnd, hdstEnd⟩⟩

/-! ### The faulted engine -/

/-- The state with FAULT set to `b`, to compare a faulted engine with the same engine without the fault. -/
def State.withFault (s : State) (b : Bool) : State := { s with status := { s.status with fault := b } }

@[simp] theorem State.withFault_opr (s : State) (b : Bool) : (s.withFault b).opr = s.opr := rfl

/-- A register write that is no CMD write neither reads nor writes FAULT (60_exceptions.md R365). -/
theorem writeReg_withFault (off : BitVec 8) (v : Word) (s : State) (b : Bool) :
    writeReg off v (s.withFault b) = (writeReg off v s).withFault b := by
  have hoperand : ∀ o, (s.withFault b).writeOperand o = (s.writeOperand o).withFault b := fun o => by
    cases hb : s.busy with
    | false => rw [writeOperand_of_not_busy hb, writeOperand_of_not_busy (s := s.withFault b) hb]; rfl
    | true => rw [writeOperand_of_busy hb, writeOperand_of_busy (s := s.withFault b) hb]; rfl
  unfold writeReg
  split
  · rfl
  · rfl
  · rw [State.withFault_opr]
    cases s.opr.write off v with
    | none => rfl
    | some o => exact hoperand o

/-- FAULT shows in no register but STATUS (60_exceptions.md R365). -/
theorem readReg_withFault {off : BitVec 8} (hoff : off ≠ 0x04) (s : State) (b : Bool) :
    readReg off (s.withFault b) = readReg off s := by
  have hne : off.toNat ≠ 0x04 := fun h => hoff (BitVec.eq_of_toNat_eq h)
  unfold readReg
  split
  · contradiction
  all_goals rfl

/-- An aligned register write at another offset than CMD's is `writeReg` (10_state.md R32). -/
theorem regWrite_of_aligned {off : BitVec 8} (h0 : off ≠ 0x00) (ha : off.toNat % 4 = 0) (v : Word) (s : State) :
    regWrite off v s = .next (writeReg off v s) := by
  have hwf : registerAccessWf off 4 = true := by simp [registerAccessWf, ha]
  rw [regWrite, if_pos hwf, if_neg h0]

/-- A faulted engine is the same engine without the fault, and FAULT. -/
theorem withFault_false_true {s : State} (hf : s.status.fault = true) : (s.withFault false).withFault true = s := by
  change s.withFault true = s
  rw [State.withFault, ← hf]

theorem engineStep_idle {s : State} (hp : s.phase = .idle) : engineStep s = .next s := by
  rw [engineStep, hp]

/-- With FAULT set no host event starts a command (60_exceptions.md R365). -/
theorem hostCase_phase_of_fault {s t : State} (hf : s.status.fault = true) (h : HostCase s t) : t.phase = s.phase := by
  cases h with
  | command i hi hf' => exact absurd (hf.symm.trans hf') nofun
  | illegal hi hf' => exact absurd (hf.symm.trans hf') nofun
  | _ => simp_all

/-- No step but reset moves a faulted engine (60_exceptions.md R365). -/
theorem step_idle_of_fault {s t : State} (hf : s.status.fault = true) (hp : s.phase = .idle)
    (hn : s.schedule.head? ≠ some .platform) (h : step s = .next t) : t.phase = .idle := by
  cases step_cases h with
  | idle sched ht => rw [ht]; exact hp
  | reset sched hs ht => exact absurd (by rw [hs]; rfl) hn
  | host op rest sched hh hx =>
    have hf' : ((s.withSchedule sched).withHost rest).status.fault = true := hf
    exact (hostCase_phase_of_fault hf' (hostEvent_cases hx)).trans hp
  | engine i sched hr hx =>
    have hb : s.busy = true := busy_of_running hr
    rw [(busy_eq_false_iff s).2 hp] at hb
    exact absurd hb nofun

/-- Settles O7: a CMD write is ignored, the other writes commute with FAULT and the reads do not see it, and every step but
reset keeps FAULT and IDLE. -/
theorem faultedEngineIgnoresCommands : Obligations.FaultedEngineIgnoresCommands := by
  unfold Obligations.FaultedEngineIgnoresCommands
  refine fun s hf hp => ⟨fun w => (regWrite_cmd w s).trans (cmdWrite_of_fault hf w), fun off v h0 ha => ?writes,
    fun off _ h4 => (readReg_withFault h4 s false).symm, (statusWord_bit s (by decide)).trans hf, engineStep_idle hp,
    fun t hn h => ⟨step_fault hf hn h, step_idle_of_fault hf hp hn h⟩⟩
  case writes =>
    refine ⟨writeReg off v (s.withFault false), regWrite_of_aligned h0 ha v _, ?_⟩
    calc regWrite off v s
      _ = .next (writeReg off v ((s.withFault false).withFault true)) := by
        rw [withFault_false_true hf, regWrite_of_aligned h0 ha]
      _ = .next ((writeReg off v (s.withFault false)).withFault true) := by rw [writeReg_withFault]

end Sys2Proof.Machine

/-! PROOFS. The invariant of a safe machine (spec 10_state.md R47, R48, 20_memory.md R86, 60_exceptions.md R363 to
R366): what each update of the state needs to keep it, and that every event of every agent keeps it. -/

namespace Sys2Proof.Machine

/-! ### Updates of the state -/

section
variable {s : State}

/-- The invariant reads the configuration, STATUS, the operands, the phase and memory alone. -/
theorem State.Inv.congr {t : State} (h : s.Inv) (hc : t.cfg = s.cfg) (hs : t.status = s.status) (ho : t.opr = s.opr)
    (hp : t.phase = s.phase) (hm : t.mem = s.mem) : t.Inv := by
  have hb : t.busy = s.busy := busy_congr hp
  have hsize : memSize t = memSize s := by rw [memSize, memSize, hc]
  obtain ⟨hwf, hbelow, hfault, hone, hcode, hquiet, hok⟩ := h
  constructor
  case phaseOk => exact phaseOk_congr hp ho hc hok
  all_goals simpa only [hs, hm, hb, hsize]

theorem State.Inv.withSchedule (h : s.Inv) (sched : List Agent) : (s.withSchedule sched).Inv :=
  h.congr rfl rfl rfl rfl rfl

theorem State.Inv.withHost (h : s.Inv) (l : List HostOp) : (s.withHost l).Inv := h.congr rfl rfl rfl rfl rfl

theorem State.Inv.withStatus {x : Status} (h : s.Inv) (hfault : x.fault = true → s.busy = false)
    (hone : ¬(x.done = true ∧ x.err = true)) (hcode : x.errCode = .none ↔ x.err = false)
    (hquiet : s.busy = true → x.done = false ∧ x.err = false) : (s.withStatus x).Inv :=
  ⟨h.memWf, h.memBelow, hfault, hone, hcode, hquiet, h.phaseOk⟩

theorem State.Inv.withMem {m : Memory} (h : s.Inv) (hwf : m.wf = true) (hbelow : m.below (memSize s) = true) :
    (s.withMem m).Inv :=
  ⟨hwf, hbelow, h.faultIdle, h.oneOutcome, h.codeIffErr, h.busyQuiet, h.phaseOk⟩

/-- A command that runs may go on to any legal phase, since FAULT, DONE and ERR are 0. -/
theorem State.Inv.withPhase_of_busy {p : Phase} (h : s.Inv) (hb : s.busy = true) (hok : Phase.ok (s.withPhase p)) :
    (s.withPhase p).Inv where
  memWf := h.memWf
  memBelow := h.memBelow
  faultIdle hf := absurd ((h.faultIdle hf).symm.trans hb) nofun
  oneOutcome := h.oneOutcome
  codeIffErr := h.codeIffErr
  busyQuiet _ := h.busyQuiet hb
  phaseOk := hok

theorem State.Inv.overrun (h : s.Inv) : s.overrun.Inv :=
  h.withStatus h.faultIdle h.oneOutcome h.codeIffErr h.busyQuiet

/-- W1C clears flags, and ERRCODE together with ERR (10_state.md R34). -/
theorem State.Inv.writeStatus (h : s.Inv) (v : Word) : (s.writeStatus v).Inv := by
  refine h.withStatus h.faultIdle (fun hboth => h.oneOutcome ?one) ?code fun hb => ?quiet
  case one => simp only [Bool.and_eq_true] at hboth; exact ⟨hboth.1.1, hboth.2.1⟩
  case code =>
    have hcode := h.codeIffErr
    cases v.getLsbD 2 <;> simp [hcode]
  case quiet =>
    obtain ⟨hdone, herr⟩ := h.busyQuiet hb
    simp [hdone, herr]

/-- Operands are written in IDLE, where no running command needs them (10_state.md R44). -/
theorem State.Inv.withOpr (h : s.Inv) (hi : s.busy = false) (o : Operands) : (s.withOpr o).Inv where
  memWf := h.memWf
  memBelow := h.memBelow
  faultIdle := h.faultIdle
  oneOutcome := h.oneOutcome
  codeIffErr := h.codeIffErr
  busyQuiet := h.busyQuiet
  phaseOk := by
    have hp : (s.withOpr o).phase = .idle := (busy_eq_false_iff s).1 hi
    rw [Phase.ok, hp]
    trivial

/-- An accept that fails leaves an IDLE engine with ERR and a code (60_exceptions.md R363, R364). -/
theorem State.Inv.raise (h : s.Inv) (hi : s.busy = false) {code : ErrCode} (hc : code ≠ .none) :
    (s.clearOutcome.raise code).Inv :=
  h.withStatus (x := raisedStatus code s) (fun _ => hi) nofun (iff_of_false hc nofun)
    fun hb => absurd (hi.symm.trans hb) nofun

/-- The mode state at an accept without error is one of those the mode controller reaches (10_state.md R48). -/
theorem startMode_ok (i : Instr) (s : State) : (startMode (cipherOf i) s).ok i s :=
  ⟨Nat.zero_le _, trunc_fits _ _, trivial⟩

/-- An accept without error leads to RUN with a legal command (60_exceptions.md R360). -/
theorem State.Inv.accepted {i : Instr} (h : s.Inv) (hf : s.status.fault = false) (he : acceptError i s = none) :
    (s.clearOutcome.withPhase (runPhase i s)).Inv where
  memWf := h.memWf
  memBelow := h.memBelow
  faultIdle hf' := absurd (hf.symm.trans hf') nofun
  oneOutcome := nofun
  codeIffErr := iff_of_true rfl rfl
  busyQuiet _ := ⟨rfl, rfl⟩
  phaseOk := by
    cases hm : isMode i with
    | false => rw [runPhase_of_single hm]; exact ⟨hm, he⟩
    | true => rw [runPhase_of_mode hm]; exact ⟨hm, he, startMode_ok i s⟩

/-- The complete step of a running command sets DONE where ERR is 0 (40_primitives.md R147, 46_modes.md R302). -/
theorem State.Inv.complete (h : s.Inv) (hb : s.busy = true) : s.complete.Inv where
  memWf := h.memWf
  memBelow := h.memBelow
  faultIdle _ := rfl
  oneOutcome hboth := absurd ((h.busyQuiet hb).2.symm.trans hboth.2) nofun
  codeIffErr := h.codeIffErr
  busyQuiet := nofun
  phaseOk := trivial

/-- What the invariant says of a running mode command. -/
theorem State.Inv.mode {i : Instr} {ms : ModeState} (h : s.Inv) (hp : s.phase = .mode i ms) :
    isMode i = true ∧ acceptError i s = none ∧ ms.ok i s := by
  have hok := h.phaseOk
  rwa [Phase.ok, hp] at hok

theorem State.Inv.single {i : Instr} (h : s.Inv) (hp : s.phase = .single i) :
    isMode i = false ∧ acceptError i s = none := by
  have hok := h.phaseOk
  rwa [Phase.ok, hp] at hok

/-! ### Events -/

theorem busy_of_mode {i : Instr} {ms : ModeState} (hp : s.phase = .mode i ms) : s.busy = true := by
  rw [State.busy, hp]

theorem busy_of_single {i : Instr} (hp : s.phase = .single i) : s.busy = true := by
  rw [State.busy, hp]

/-- The RD step holds a block of the block width, to be written at an index below COUNT (46_modes.md R301). -/
theorem State.Inv.read {i : Instr} {ms : ModeState} (h : s.Inv) (hp : s.phase = .mode i ms) (hj : ms.j < blockCount s) :
    (s.withPhase (.mode i { ms with stage := .wr (inputBlock (cipherOf i) s s.mem ms.j) })).Inv := by
  obtain ⟨hm, he, hle, hchain, -⟩ := h.mode hp
  exact h.withPhase_of_busy (busy_of_mode hp) ⟨hm, he, hle, hchain, hj, inputBlock_fits _ _ _ _⟩

/-- The WR step stores a block inside the memory and keeps the widths (46_modes.md R302). -/
theorem State.Inv.written {i : Instr} {ms : ModeState} {inblk : Block} {m : Mode} (h : s.Inv)
    (hp : s.phase = .mode i ms) (hs : ms.stage = .wr inblk)
    (hr : inMemory s (dstAddr (cipherOf i) s ms.j) (cipherOf i).blockBytes = true) :
    ((s.withMem (s.mem.writeBytes (dstAddr (cipherOf i) s ms.j) (cipherOf i).blockBytes
        (modeBlock m (dirOf i) (encBlock (cipherOf i) s) (decBlock (cipherOf i) s) inblk ms.chain).1.toNat)).withPhase
      (.mode i ⟨ms.j + 1, .rd,
        (modeBlock m (dirOf i) (encBlock (cipherOf i) s) (decBlock (cipherOf i) s) inblk ms.chain).2⟩)).Inv := by
  obtain ⟨hm, he, -, hchain, hstage⟩ := h.mode hp
  rw [hs] at hstage
  obtain ⟨hj, hinblk⟩ := hstage
  have hend : dstAddr (cipherOf i) s ms.j + (cipherOf i).blockBytes ≤ memSize s := of_decide_eq_true hr
  refine State.Inv.withPhase_of_busy (h.withMem ?wf ?below) (busy_of_mode (s := s) hp)
    ⟨hm, he, hj, (modeBlock_fits m (dirOf i) (cipherOf i) s hinblk hchain).2, trivial⟩
  case wf => exact Memory.wf_writeBytes h.memWf _ _ _
  case below => exact Memory.below_writeBytes h.memBelow hend _

end

/-- Every event of a command keeps the invariant. -/
theorem exec_inv {i : Instr} {s t : State} (h : s.Inv) (hx : exec i s = .next t) : t.Inv := by
  cases exec_cases hx with
  | faulted hi hf ht => rw [ht]; exact h
  | raised code hi hf he ht => rw [ht]; exact h.raise ((busy_eq_false_iff s).2 hi) (acceptError_ne he)
  | accepted hi hf he ht => rw [ht]; exact h.accepted hf he
  | completedSingle v hi hm ht =>
    rw [ht]; exact (h.congr (t := s.withDout v) rfl rfl rfl rfl rfl).complete (busy_of_single (s := s) hi)
  | read ms hi hm hs hj hr ht => rw [ht]; exact h.read hi hj
  | written ms inblk m hi hm hs hr ht => rw [ht]; exact h.written hi hs hr
  | completedMode ms hi hm hs hj ht => rw [ht]; exact h.complete (busy_of_mode hi)
  | overran hb ht => rw [ht]; exact h.overrun

/-- Every event of the host keeps the invariant. -/
theorem hostCase_inv {s t : State} (h : s.Inv) (hx : HostCase s t) : t.Inv := by
  cases hx with
  | nothing ht => rw [ht]; exact h
  | overran hb ht => rw [ht]; exact h.overrun
  | illegal hi hf ht => rw [ht]; exact h.raise hi nofun
  | command i hi hf hx => exact exec_inv h hx
  | status v ht => rw [ht]; exact h.writeStatus v
  | operand o hi ht => rw [ht]; exact h.withOpr hi o
  | irqen v ht | read v ht | waiting v ht => rw [ht]; exact h.congr rfl rfl rfl rfl rfl
  | memory a bytes hr ht =>
    rw [ht]
    exact h.withMem (Memory.wf_writeList h.memWf _ _) (Memory.below_writeList h.memBelow (of_decide_eq_true hr))

/-- A machine right after reset meets the invariant when its memory is canonical and inside MEM_SIZE. -/
theorem initial_inv {c : WfConfig} {m : Memory} (hwf : m.wf = true) (hbelow : m.below c.val.memSize = true) :
    (State.initial c m).Inv :=
  ⟨hwf, hbelow, nofun, nofun, iff_of_true rfl rfl, nofun, trivial⟩

/-- Settles O53: an agent's turn uses up schedule and host entries that the invariant does not read, and then makes an
event that keeps it. -/
theorem stepKeepsTheInvariant : Obligations.StepKeepsTheInvariant := by
  unfold Obligations.StepKeepsTheInvariant
  intro s t h hx
  cases step_cases hx with
  | idle sched ht => rw [ht]; exact h.withSchedule sched
  | reset sched hs ht => rw [ht]; exact (initial_inv h.memWf h.memBelow).congr rfl rfl rfl rfl rfl
  | host op rest sched hh hx => exact hostCase_inv ((h.withSchedule sched).withHost rest) (hostEvent_cases hx)
  | engine i sched hr hx => exact exec_inv (h.withSchedule sched) hx

/-- Settles O52: both are `State.initial`, whose registers are those of reset. -/
theorem resetStateIsSafe : Obligations.ResetStateIsSafe := by
  unfold Obligations.ResetStateIsSafe
  exact ⟨initial_inv rfl rfl, fun _ _ => initial_inv⟩

end Sys2Proof.Machine

/-! PROOFS. A command at each event it makes (spec 60_exceptions.md R360 to R366, 40_primitives.md R147, 46_modes.md
R301 to R303): the result of a single operation as a function of its operands, the write while another command runs,
and the engine's own steps, of which none stops in a safe state. -/

namespace Sys2Proof.Machine

/-! ### The result of a single operation -/

/-- The function `f_op` of each single-operation command (40_primitives.md R147); a mode command has none. -/
def singleResult (i : Instr) (s : State) : Block :=
  match i with
  | .blkEncSpn => encBlock .spn s (din s)
  | .blkDecSpn => decBlock .spn s (din s)
  | .blkEncFei => encBlock .fei s (din s)
  | .blkDecFei => decBlock .fei s (din s)
  | .blkEncDes => encBlock .des s (din s)
  | .blkDecDes => decBlock .des s (din s)
  | .permSpn => (permute (dinLow 32 s) (pStraight s.cfg.val)).setWidth 64
  | .permSpnRev => (permute (dinLow 32 s) (pReverse s.cfg.val)).setWidth 64
  | .permFei => (permute (dinLow 16 s) (pF s.cfg.val)).setWidth 64
  | .permFeiRev => (permute (dinLow 16 s) (pFRev s.cfg.val)).setWidth 64
  | .permDesIp => (permuteDes 64 (dinLow 64 s) desIp).setWidth 64
  | .permDesFp => (permuteDes 64 (dinLow 64 s) desFp).setWidth 64
  | .permDesE => (permuteDes 48 (dinLow 32 s) desE).setWidth 64
  | .permDesP => (permuteDes 32 (dinLow 32 s) desP).setWidth 64
  | .permDesPc1 => (permuteDes 56 (dinLow 64 s) desPc1).setWidth 64
  | .permDesPc2 => (permuteDes 48 (dinLow 56 s) desPc2).setWidth 64
  | .substSpn => (substitute (dinLow 32 s) (sStraight s.cfg.val)).setWidth 64
  | .substSpnRev => (substitute (dinLow 32 s) (sReverse s.cfg.val)).setWidth 64
  | .substFei => (substitute (dinLow 16 s) (sF s.cfg.val)).setWidth 64
  | .substFeiRev => (substitute (dinLow 16 s) (sFRev s.cfg.val)).setWidth 64
  | .substDes => (substituteDes (dinLow 48 s)).setWidth 64
  | .ksSpn => (rkSpn (keySpn s) (ksIndex s)).setWidth 64
  | .ksFei => (rkFei (keyFei s) (ksIndex s)).setWidth 64
  | .ksDes => (rkDes (key s) (ksIndex s + 1)).setWidth 64
  | _ => 0

theorem exec_eq_singleCommand {i : Instr} (hm : isMode i = false) :
    ∃ check, ∀ s, exec i s = singleCommand i check (singleResult i) s := by
  cases i with
  | ecbEncSpn | ecbDecSpn | ecbEncFei | ecbDecFei | ecbEncDes | ecbDecDes
  | cbcEncSpn | cbcDecSpn | cbcEncFei | cbcDecFei | cbcEncDes | cbcDecDes
  | cfbEncSpn | cfbDecSpn | cfbEncFei | cfbDecFei | cfbEncDes | cfbDecDes =>
    exact absurd hm (by decide)
  | _ => exact ⟨_, fun _ => rfl⟩

/-- The complete step of a single-operation command stores its `singleResult` (40_primitives.md R147). -/
theorem exec_single_done {i : Instr} {s : State} (hm : isMode i = false) (hp : s.phase = .single i) :
    exec i s = .next (singleDone (singleResult i s) s) := by
  obtain ⟨check, hx⟩ := exec_eq_singleCommand hm
  rw [hx, singleCommand_done hp]

/-! ### The write of a word while another command runs -/

theorem exec_of_busy_single {i : Instr} {s : State} (hm : isMode i = false) (hb : s.phase ≠ .idle)
    (hne : s.phase ≠ .single i) : exec i s = .next s.overrun := by
  obtain ⟨result, hx⟩ := exec_of_single hm
  rw [hx, singleCommand]
  cases hp : s.phase with
  | idle => exact absurd hp hb
  | single op => exact congrArg _ (if_neg fun h => hne (hp.trans (congrArg _ h)))
  | mode op ms => rfl

theorem exec_of_busy_mode {i : Instr} {s : State} (hm : isMode i = true) (hb : s.phase ≠ .idle)
    (hne : ∀ ms, s.phase ≠ .mode i ms) : exec i s = .next s.overrun := by
  obtain ⟨m, hmo⟩ := (isMode_iff_modeOf i).1 hm
  rw [exec_of_mode hmo, modeCommand]
  cases hp : s.phase with
  | idle => exact absurd hp hb
  | single op => rfl
  | mode op ms => exact if_neg fun h => hne ms (by rw [hp, h])

/-! ### The engine steps of a safe machine -/

theorem engineStep_running {i : Instr} {s : State} (hr : runningCommand s = some i) : engineStep s = exec i s := by
  unfold runningCommand at hr
  unfold engineStep
  split at hr <;> simp_all

/-- A running mode command never stops in a safe state: its blocks lie in the memory (20_memory.md R86). -/
theorem exec_mode_next {i : Instr} {ms : ModeState} {s : State} (h : s.Inv) (hp : s.phase = .mode i ms) :
    ∃ t, exec i s = .next t := by
  obtain ⟨hm, he, -, -, hstage⟩ := h.mode hp
  obtain ⟨m, hmo⟩ := (isMode_iff_modeOf i).1 hm
  obtain ⟨j, stage, chain⟩ := ms
  cases stage with
  | rd =>
    by_cases hj : j < blockCount s
    · exact ⟨_, exec_read hm hp hj (blocks_inMemory hm he hj).1⟩
    · exact ⟨_, exec_modeDone hm hp hj⟩
  | wr b => exact ⟨_, exec_write hmo hp (blocks_inMemory hm he hstage.1).2⟩

/-- In a safe state every command answers a next state, whatever event it makes. -/
theorem exec_next {s : State} (h : s.Inv) (i : Instr) : ∃ t, exec i s = .next t := by
  by_cases hidle : s.phase = .idle
  · exact ⟨_, exec_idle hidle⟩
  cases hm : isMode i with
  | false =>
    by_cases hp : s.phase = .single i
    · exact ⟨_, exec_single_done hm hp⟩
    · exact ⟨_, exec_of_busy_single hm hidle hp⟩
  | true =>
    by_cases hp : ∃ ms, s.phase = .mode i ms
    · obtain ⟨ms, hp⟩ := hp
      exact exec_mode_next h hp
    · exact ⟨_, exec_of_busy_mode hm hidle (not_exists.1 hp)⟩

/-- Settles O54: the engine's turn is that of the running command, and no command stops in a safe state. -/
theorem noRunTimeException : Obligations.NoRunTimeException := by
  unfold Obligations.NoRunTimeException
  refine fun s h => ⟨?_, exec_next h⟩
  unfold engineStep
  split
  · exact ⟨s, rfl⟩
  all_goals exact exec_next h _

/-- What the engine step of a running mode command can be (46_modes.md R301, R302). -/
inductive ModeStepCase (i : Instr) (s t : State) : Prop where
  | read (j : Nat) (chain : Block) (hp : s.phase = .mode i ⟨j, .rd, chain⟩) (hj : j < blockCount s)
      (hr : srcAddr (cipherOf i) s j + (cipherOf i).blockBytes ≤ memSize s)
      (ht : t = s.withPhase (.mode i ⟨j, .wr (inputBlock (cipherOf i) s s.mem j), chain⟩))
  | write (j : Nat) (b chain : Block) (m : Mode) (hmo : modeOf i = some m) (hp : s.phase = .mode i ⟨j, .wr b, chain⟩)
      (hr : dstAddr (cipherOf i) s j + (cipherOf i).blockBytes ≤ memSize s)
      (ht : t = (s.withMem (s.mem.writeBytes (dstAddr (cipherOf i) s j) (cipherOf i).blockBytes
          (modeBlock m (dirOf i) (encBlock (cipherOf i) s) (decBlock (cipherOf i) s) b chain).1.toNat)).withPhase
        (.mode i ⟨j + 1, .rd,
          (modeBlock m (dirOf i) (encBlock (cipherOf i) s) (decBlock (cipherOf i) s) b chain).2⟩))
  | done (j : Nat) (chain : Block) (hp : s.phase = .mode i ⟨j, .rd, chain⟩) (hj : ¬j < blockCount s)
      (ht : t = modeDone s)

theorem exec_mode_cases {i : Instr} {ms : ModeState} {s t : State} (hm : isMode i = true) (hp : s.phase = .mode i ms)
    (hx : exec i s = .next t) : ModeStepCase i s t := by
  obtain ⟨m, hmo⟩ := (isMode_iff_modeOf i).1 hm
  have hcmd := hx
  rw [exec_of_mode hmo, modeCommand, hp] at hcmd
  obtain ⟨j, stage, chain⟩ := ms
  cases stage with
  | rd =>
    by_cases hj : j < blockCount s
    · by_cases hr : inMemory s (srcAddr (cipherOf i) s j) (cipherOf i).blockBytes = true
      · have hend := of_decide_eq_true hr
        exact .read j chain hp hj hend (Host.Outcome.next.inj (hx.symm.trans (exec_read hm hp hj hend)))
      · simp [modeStep, hj, rdStep, readBlock, hr] at hcmd
    · exact .done j chain hp hj (Host.Outcome.next.inj (hx.symm.trans (exec_modeDone hm hp hj)))
  | wr b =>
    by_cases hr : inMemory s (dstAddr (cipherOf i) s j) (cipherOf i).blockBytes = true
    · have hend := of_decide_eq_true hr
      exact .write j b chain m hmo hp hend (Host.Outcome.next.inj (hx.symm.trans (exec_write hmo hp hend)))
    · simp [modeStep, wrStep, writeBlock, hr] at hcmd

end Sys2Proof.Machine

/-! PROOFS. What a command reads (spec 10_state.md R37 to R41, R45, 30_encoding.md R116): the part of the operands on
which its checks and its result depend, and that no flag is among what an engine step reads. -/

namespace Sys2Proof.Machine

/-! ### The key -/

theorem keysAgree_refl (c : Cipher) (k : Block) : keysAgree c k k := by
  cases c with
  | spn | fei => exact fun _ _ => rfl
  | des => exact fun _ _ _ => rfl

theorem keySpn_congr {s t : State} (h : keysAgree .spn (key s) (key t)) : keySpn t = keySpn s :=
  BitVec.eq_of_getLsbD_eq fun b hb => by
    rw [keySpn, keySpn, BitVec.getLsbD_setWidth, BitVec.getLsbD_setWidth, h b hb]

theorem keyFei_congr {s t : State} (h : keysAgree .fei (key s) (key t)) : keyFei t = keyFei s :=
  BitVec.eq_of_getLsbD_eq fun b hb => by
    rw [keyFei, keyFei, BitVec.getLsbD_setWidth, BitVec.getLsbD_setWidth, h b hb]

/-- PC-1 takes no parity bit (41_key_schedule.md R174). -/
theorem permuteDes_pc1_congr {K K' : Block} (h : keysAgree .des K K') :
    permuteDes 56 K' desPc1 = permuteDes 56 K desPc1 := by
  have hrange : ∀ j, j < 56 → 1 ≤ desPc1.getD j 0 ∧ desPc1.getD j 0 ≤ 64 := by decide
  have hparity : ∀ j, j < 56 → (64 - desPc1.getD j 0) % 8 ≠ 0 := by decide
  refine desBit_ext fun j hj => ?_
  obtain ⟨hlow, -⟩ := hrange j hj
  rw [permDes_bit' 64 56 K' desPc1 rfl hrange j hj, permDes_bit' 64 56 K desPc1 rfl hrange j hj]
  exact (h _ (by omega) (hparity j hj)).symm

/-- So no DES round key depends on a parity bit (41_key_schedule.md R174 to R176). -/
theorem rkDes_congr {K K' : Block} (h : keysAgree .des K K') (n : Nat) : rkDes K' n = rkDes K n := by
  have hhalves : desC K' n = desC K n ∧ desD K' n = desD K n := by
    induction n with
    | zero => simp only [desC, desD, permuteDes_pc1_congr h, and_self]
    | succ n ih => simp only [desC, desD, ih, and_self]
  rw [rkDes, rkDes, hhalves.1, hhalves.2]

theorem desEncrypt_congr {K K' : Block} (h : keysAgree .des K K') (b : Block) : desEncrypt b K' = desEncrypt b K := by
  simp only [desEncrypt, rkDes_congr h]

theorem desDecrypt_congr {K K' : Block} (h : keysAgree .des K K') (b : Block) : desDecrypt b K' = desDecrypt b K := by
  simp only [desDecrypt, rkDes_congr h]

/-- The forward cipher reads the configuration, the key bits of its class, and ROUNDS (46_modes.md R299). -/
theorem encBlock_congr {c : Cipher} {s t : State} (hc : t.cfg = s.cfg) (hk : keysAgree c (key s) (key t))
    (hr : roundCount t = roundCount s) : encBlock c t = encBlock c s := by
  funext b
  cases c with
  | spn => rw [encBlock, encBlock, hc, hr, keySpn_congr hk]
  | fei => rw [encBlock, encBlock, hc, hr, keyFei_congr hk]
  | des => exact desEncrypt_congr hk b

/-- And so does the inverse cipher (46_modes.md R299). -/
theorem decBlock_congr {c : Cipher} {s t : State} (hc : t.cfg = s.cfg) (hk : keysAgree c (key s) (key t))
    (hr : roundCount t = roundCount s) : decBlock c t = decBlock c s := by
  funext b
  cases c with
  | spn => rw [decBlock, decBlock, hc, hr, keySpn_congr hk]
  | fei => rw [decBlock, decBlock, hc, hr, keyFei_congr hk]
  | des => exact desDecrypt_congr hk b

/-! ### The result of a single operation -/

/-- The result depends on the configuration, the key bits of the command's class unless it reads no key, ROUNDS unless
it ignores them, and the low bits of DIN that it reads (30_encoding.md R116). -/
theorem singleResult_congr {i : Instr} {s t : State} (hc : t.cfg = s.cfg)
    (hk : keysAgree (cipherOf i) (key s) (key t) ∨ ignoresKey i = true)
    (hr : ignoresRounds i = true ∨ roundCount t = roundCount s)
    (hd : ∀ b, b < dinWidth i → (din t).getLsbD b = (din s).getLsbD b) : singleResult i t = singleResult i s := by
  have hdin : ∀ w, w ≤ dinWidth i → dinLow w t = dinLow w s := fun w hw => BitVec.eq_of_getLsbD_eq fun b hb => by
    rw [dinLow, dinLow, BitVec.getLsbD_setWidth, BitVec.getLsbD_setWidth, hd b (hb.trans_le hw)]
  have hkey : ignoresKey i = false → keysAgree (cipherOf i) (key s) (key t) := fun h =>
    hk.resolve_right (by rw [h]; nofun)
  have hrounds : ignoresRounds i = false → roundCount t = roundCount s := fun h =>
    hr.resolve_left (by rw [h]; nofun)
  cases i with
  | blkEncSpn | blkDecSpn =>
    have hx : (din t).setWidth 32 = (din s).setWidth 32 := hdin 32 le_rfl
    simp only [singleResult, encBlock, decBlock, hc, hx, keySpn_congr (hkey rfl), hrounds rfl]
  | blkEncFei | blkDecFei =>
    have hx : (din t).setWidth 32 = (din s).setWidth 32 := hdin 32 le_rfl
    simp only [singleResult, encBlock, decBlock, hc, hx, keyFei_congr (hkey rfl), hrounds rfl]
  | blkEncDes | blkDecDes =>
    have hx : din t = din s := BitVec.eq_of_getLsbD_eq hd
    simp only [singleResult, encBlock, decBlock, hx, desEncrypt_congr (hkey rfl), desDecrypt_congr (hkey rfl)]
  | ksSpn => simp only [singleResult, ksIndex, hdin 32 le_rfl, keySpn_congr (hkey rfl)]
  | ksFei => simp only [singleResult, ksIndex, hdin 32 le_rfl, keyFei_congr (hkey rfl)]
  | ksDes => simp only [singleResult, ksIndex, hdin 32 le_rfl, rkDes_congr (hkey rfl)]
  | permSpn | permSpnRev | permDesE | permDesP | substSpn | substSpnRev => simp only [singleResult, hdin 32 le_rfl, hc]
  | permFei | permFeiRev | substFei | substFeiRev => simp only [singleResult, hdin 16 le_rfl, hc]
  | permDesIp | permDesFp | permDesPc1 => simp only [singleResult, hdin 64 le_rfl]
  | permDesPc2 => simp only [singleResult, hdin 56 le_rfl]
  | substDes => simp only [singleResult, hdin 48 le_rfl]
  | _ => rfl

/-! ### Classes of commands -/

theorem ignoresKey_of_isMode {i : Instr} (h : isMode i = true) : ¬ignoresKey i = true := by
  have hall : ∀ i ∈ allCommands, isMode i = true → ¬ignoresKey i = true := by decide
  exact hall i (mem_allCommands i) h

theorem dinWidth_of_isKsDes {i : Instr} (h : isKsDes i = true) : dinWidth i = 32 := by
  have hall : ∀ i ∈ allCommands, isKsDes i = true → dinWidth i = 32 := by decide
  exact hall i (mem_allCommands i) h

/-- The commands that ignore ROUNDS are neither DES-64 cipher commands nor mode commands (10_state.md R40). -/
theorem isDesCipher_isMode_of_ignoresRounds {i : Instr} (h : ignoresRounds i = true) :
    isDesCipher i = false ∧ isMode i = false := by
  have hall : ∀ i ∈ allCommands, ignoresRounds i = true → isDesCipher i = false ∧ isMode i = false := by decide
  exact hall i (mem_allCommands i) h

/-! ### The accept -/

/-- The checks read ROUNDS for the DES-64 ciphers, DIN_LO for KS.DES, and the buffers for the modes (60_exceptions.md
R360). -/
theorem acceptError_congr_read {i : Instr} {s t : State} (hc : t.cfg = s.cfg)
    (hr : isDesCipher i = true → t.opr.rounds = s.opr.rounds) (hd : isKsDes i = true → t.opr.dinLo = s.opr.dinLo)
    (hb : isMode i = true → t.opr.src = s.opr.src ∧ t.opr.dst = s.opr.dst ∧ t.opr.count = s.opr.count) :
    acceptError i t = acceptError i s := by
  have hdes : (isDesCipher i = true ∧ t.opr.rounds.toNat ≠ 16) ↔ (isDesCipher i = true ∧ s.opr.rounds.toNat ≠ 16) :=
    and_congr_right fun h => by rw [hr h]
  have hks : (isKsDes i = true ∧ t.opr.dinLo.toNat > 15) ↔ (isKsDes i = true ∧ s.opr.dinLo.toNat > 15) :=
    and_congr_right fun h => by rw [hd h]
  simp only [acceptError, hdes, hks]
  by_cases hm : isMode i = true
  · obtain ⟨hsrc, hdst, hcount⟩ := hb hm
    rw [hsrc, hdst, hcount, hc]
  · simp only [hm, Bool.false_eq_true, false_and, if_false]

theorem command_withOpr (s : State) (o : Operands) (check : Option ErrCode) (start : Phase) :
    (s.withOpr o).command check start = (s.command check start).withOpr o := by
  unfold State.command
  rw [State.withOpr_status]
  cases s.status.fault <;> cases check <;> rfl

/-! ### Events under other operands -/

/-- The command `i` cannot tell the operands `o` from those of `s`: its checks, its start and what its steps read are
the same. -/
structure ReadsAlike (i : Instr) (s : State) (o : Operands) : Prop where
  check : acceptError i (s.withOpr o) = acceptError i s
  start : runPhase i (s.withOpr o) = runPhase i s
  result : singleResult i (s.withOpr o) = singleResult i s
  enc : isMode i = true → encBlock (cipherOf i) (s.withOpr o) = encBlock (cipherOf i) s
  dec : isMode i = true → decBlock (cipherOf i) (s.withOpr o) = decBlock (cipherOf i) s
  buffers : isMode i = true → o.src = s.opr.src ∧ o.dst = s.opr.dst ∧ o.count = s.opr.count

/-- A command does the same under operands that it cannot tell apart, whatever event it makes. -/
theorem exec_withOpr {i : Instr} {s t : State} {o : Operands} (h : ReadsAlike i s o) (hx : exec i s = .next t) :
    exec i (s.withOpr o) = .next (t.withOpr o) := by
  by_cases hidle : s.phase = .idle
  · rw [exec_idle hidle] at hx
    rw [exec_idle (s := s.withOpr o) hidle, h.check, h.start, command_withOpr, Host.Outcome.next.inj hx]
  cases hm : isMode i with
  | false =>
    by_cases hp : s.phase = .single i
    · rw [exec_single_done hm hp] at hx
      rw [exec_single_done (s := s.withOpr o) hm hp, h.result, ← Host.Outcome.next.inj hx]
      rfl
    · rw [exec_of_busy_single hm hidle hp] at hx
      rw [exec_of_busy_single (s := s.withOpr o) hm hidle hp, ← Host.Outcome.next.inj hx]
      rfl
  | true =>
    by_cases hp : ∃ ms, s.phase = .mode i ms
    · obtain ⟨ms, hp⟩ := hp
      obtain ⟨hsrc, hdst, hcount⟩ := h.buffers hm
      have hsrcAddr : ∀ c j, srcAddr c (s.withOpr o) j = srcAddr c s j := fun c j => by
        rw [srcAddr, srcAddr, State.withOpr_opr, hsrc]
      have hdstAddr : ∀ c j, dstAddr c (s.withOpr o) j = dstAddr c s j := fun c j => by
        rw [dstAddr, dstAddr, State.withOpr_opr, hdst]
      have hblocks : blockCount (s.withOpr o) = blockCount s := by
        rw [blockCount, blockCount, State.withOpr_opr, hcount]
      cases exec_mode_cases hm hp hx with
      | read j chain hp hj hr ht =>
        rw [exec_read (s := s.withOpr o) hm hp (hblocks ▸ hj) (by rw [hsrcAddr]; exact hr), ht, inputBlock, hsrcAddr]
        rfl
      | write j b chain m hmo hp hr ht =>
        rw [exec_write (s := s.withOpr o) hmo hp (by rw [hdstAddr]; exact hr), h.enc hm, h.dec hm, hdstAddr, ht]
        rfl
      | done j chain hp hj ht =>
        rw [exec_modeDone (s := s.withOpr o) hm hp (hblocks ▸ hj), ht]
        rfl
    · rw [exec_of_busy_mode hm hidle (not_exists.1 hp)] at hx
      rw [exec_of_busy_mode (s := s.withOpr o) hm hidle (not_exists.1 hp), ← Host.Outcome.next.inj hx]
      rfl

/-- Settles O26: another key leaves checks and buffers alone, and results, ciphers and all else depend on the bits
that the command's class consumes. -/
theorem unusedKeyBitsHaveNoEffect : Obligations.UnusedKeyBitsHaveNoEffect := by
  unfold Obligations.UnusedKeyBitsHaveNoEffect
  intro i s t hi lo hk hx
  have hcipher : isMode i = true → keysAgree (cipherOf i) (key s) (hi ++ lo) := fun hm =>
    hk.resolve_right (ignoresKey_of_isMode hm)
  have halike : ReadsAlike i s { s.opr with keyHi := hi, keyLo := lo } :=
    { check := rfl
      start := rfl
      result := singleResult_congr rfl hk (.inr rfl) fun _ _ => rfl
      enc := fun hm => encBlock_congr rfl (hcipher hm) rfl
      dec := fun hm => decBlock_congr rfl (hcipher hm) rfl
      buffers := fun _ => ⟨rfl, rfl, rfl⟩ }
  rw [withKey, withKey, exec_opr hx]
  exact exec_withOpr halike hx

/-- Settles O27: the checks read DIN for KS.DES alone, ROUNDS for the DES-64 ciphers alone and the buffers for the modes
alone, and a result reads the low bits of DIN. -/
theorem unreadOperandsHaveNoEffect : Obligations.UnreadOperandsHaveNoEffect := by
  unfold Obligations.UnreadOperandsHaveNoEffect
  refine fun i s t hx => ⟨fun hi lo hd => ?din, fun r hign => ?rounds, fun ivHi ivLo src dst count hm => ?buffers⟩
  case din =>
    have hlow : isKsDes i = true → lo = s.opr.dinLo := fun hks => by
      refine BitVec.eq_of_getLsbD_eq fun b hb => ?_
      have hbit := hd b (dinWidth_of_isKsDes hks ▸ hb)
      rwa [BitVec.getLsbD_append, BitVec.getLsbD_append, if_pos hb, if_pos hb] at hbit
    have halike : ReadsAlike i s { s.opr with dinHi := hi, dinLo := lo } :=
      { check := acceptError_congr_read rfl (fun _ => rfl) hlow fun _ => ⟨rfl, rfl, rfl⟩
        start := rfl
        result := singleResult_congr rfl (.inl (keysAgree_refl _ _)) (.inr rfl) hd
        enc := fun _ => encBlock_congr rfl (keysAgree_refl _ _) rfl
        dec := fun _ => decBlock_congr rfl (keysAgree_refl _ _) rfl
        buffers := fun _ => ⟨rfl, rfl, rfl⟩ }
    rw [withDin, withDin, exec_opr hx]
    exact exec_withOpr halike hx
  case rounds =>
    obtain ⟨hdes, hm⟩ := isDesCipher_isMode_of_ignoresRounds hign
    have halike : ReadsAlike i s { s.opr with rounds := r } :=
      { check := acceptError_congr_read rfl (fun h => absurd (hdes.symm.trans h) nofun) (fun _ => rfl)
          fun _ => ⟨rfl, rfl, rfl⟩
        start := rfl
        result := singleResult_congr rfl (.inl (keysAgree_refl _ _)) (.inl hign) fun _ _ => rfl
        enc := fun h => absurd (hm.symm.trans h) nofun
        dec := fun h => absurd (hm.symm.trans h) nofun
        buffers := fun _ => ⟨rfl, rfl, rfl⟩ }
    rw [withRounds, withRounds, exec_opr hx]
    exact exec_withOpr halike hx
  case buffers =>
    have halike : ReadsAlike i s
        { s.opr with ivHi := ivHi, ivLo := ivLo, src := src, dst := dst, count := count } :=
      { check := acceptError_congr_read rfl (fun _ => rfl) (fun _ => rfl) fun h => absurd (hm.symm.trans h) nofun
        start := by rw [runPhase_of_single hm, runPhase_of_single hm]
        result := singleResult_congr rfl (.inl (keysAgree_refl _ _)) (.inr rfl) fun _ _ => rfl
        enc := fun h => absurd (hm.symm.trans h) nofun
        dec := fun h => absurd (hm.symm.trans h) nofun
        buffers := fun h => absurd (hm.symm.trans h) nofun }
    rw [withBuffers, withBuffers, exec_opr hx]
    exact exec_withOpr halike hx

/-! ### Flags -/

/-- The engine step of a running single operation under other flags. -/
theorem exec_single_withFlags {i : Instr} {s t : State} (st : Status) (ie : IrqEnable) (hm : isMode i = false)
    (hp : s.phase = .single i) (hx : exec i s = .next t) :
    exec i ((s.withStatus st).withIrqen ie) = .next ((t.withStatus { st with done := true }).withIrqen ie) ∧
      t.busy = false := by
  rw [exec_single_done hm hp] at hx
  rw [exec_single_done (s := (s.withStatus st).withIrqen ie) hm hp, ← Host.Outcome.next.inj hx,
    singleResult_congr (s := s) (t := (s.withStatus st).withIrqen ie) rfl (.inl (keysAgree_refl _ _)) (.inr rfl)
      fun _ _ => rfl]
  exact ⟨rfl, rfl⟩

/-- The engine step of a running mode command under other flags. -/
theorem exec_mode_withFlags {i : Instr} {ms : ModeState} {s t : State} (st : Status) (ie : IrqEnable)
    (hm : isMode i = true) (hp : s.phase = .mode i ms) (hx : exec i s = .next t) :
    exec i ((s.withStatus st).withIrqen ie) =
      .next ((t.withStatus (if t.busy = true then st else { st with done := true })).withIrqen ie) := by
  have henc : encBlock (cipherOf i) ((s.withStatus st).withIrqen ie) = encBlock (cipherOf i) s :=
    encBlock_congr rfl (keysAgree_refl _ _) rfl
  have hdec : decBlock (cipherOf i) ((s.withStatus st).withIrqen ie) = decBlock (cipherOf i) s :=
    decBlock_congr rfl (keysAgree_refl _ _) rfl
  cases exec_mode_cases hm hp hx with
  | read j chain hp hj hr ht =>
    rw [exec_read (s := (s.withStatus st).withIrqen ie) hm hp hj hr, ht]
    rfl
  | write j b chain m hmo hp hr ht =>
    rw [exec_write (s := (s.withStatus st).withIrqen ie) hmo hp hr, henc, hdec, ht]
    rfl
  | done j chain hp hj ht =>
    rw [exec_modeDone (s := (s.withStatus st).withIrqen ie) hm hp hj, ht]
    rfl

/-- Settles O56: each engine step finds its phase, operands and memory as they were, and writes no flag but DONE, when
the command completes. -/
theorem engineStepsReadNoFlag : Obligations.EngineStepsReadNoFlag := by
  unfold Obligations.EngineStepsReadNoFlag
  intro s t st ie h hb hx
  change engineStep ((s.withStatus st).withIrqen ie) =
    .next ((t.withStatus (if t.busy = true then st else { st with done := true })).withIrqen ie)
  cases hp : s.phase with
  | idle => exact absurd (((busy_eq_false_iff s).2 hp).symm.trans hb) nofun
  | single i =>
    obtain ⟨hm, -⟩ := h.single hp
    obtain ⟨hx', hidle⟩ := exec_single_withFlags st ie hm hp ((engineStep_single hp).symm.trans hx)
    rw [engineStep_single (s := (s.withStatus st).withIrqen ie) hp, hx', hidle]
    rfl
  | mode i ms =>
    obtain ⟨hm, -⟩ := h.mode hp
    rw [engineStep_mode (s := (s.withStatus st).withIrqen ie) hp]
    exact exec_mode_withFlags st ie hm hp ((engineStep_mode hp).symm.trans hx)

end Sys2Proof.Machine

/-! PROOFS. The frames of the commands (spec 40_primitives.md R147, 46_modes.md R301, R302, 60_exceptions.md R360),
and how many engine steps a command takes (70_reset_and_hazards.md R404). -/

namespace Sys2Proof.Machine

/-! ### What every event of a command keeps -/

/-- No command changes the data of the other agents, or the two enables. -/
theorem exec_agents {i : Instr} {s t : State} (h : exec i s = .next t) :
    t.host = s.host ∧ t.trace = s.trace ∧ t.schedule = s.schedule ∧ t.irqen = s.irqen := by
  cases exec_cases h <;> simp_all [completeSingle]

/-- The fatal error is raised for an illegal ROUNDS of a DES-64 cipher command alone (60_exceptions.md R360). -/
theorem illegalRounds_of_acceptError {i : Instr} {s : State} (h : acceptError i s = some .desRounds) :
    isDesCipher i = true ∧ s.opr.rounds.toNat ≠ 16 := by
  by_contra hnot
  unfold acceptError at h
  rw [if_neg hnot] at h
  repeat' split at h
  all_goals cases h

/-- The accept changes STATUS and the phase alone, and of STATUS keeps WOVR, and FAULT but for the fatal error
(60_exceptions.md R360, R364). -/
theorem exec_accept_frame {i : Instr} {s t : State} (hi : s.phase = .idle) (h : exec i s = .next t) :
    t.mem = s.mem ∧ t.status.wovr = s.status.wovr ∧
      (t.status.fault ≠ s.status.fault → isDesCipher i = true ∧ s.opr.rounds.toNat ≠ 16) ∧
      (t.phase = .idle ∨ t.phase = runPhase i s) := by
  have hb : s.busy = false := (busy_eq_false_iff s).2 hi
  cases exec_cases h with
  | faulted _ _ ht => rw [ht]; exact ⟨rfl, rfl, fun h => absurd rfl h, .inl hi⟩
  | raised code _ _ he ht =>
    rw [ht]
    refine ⟨rfl, rfl, fun hne => illegalRounds_of_acceptError ?_, .inl hi⟩
    cases code with
    | desRounds => exact he
    | _ => exact absurd (Bool.or_false _) hne
  | accepted _ _ _ ht => rw [ht]; exact ⟨rfl, rfl, fun h => absurd rfl h, .inr rfl⟩
  | completedSingle v hi' => exact absurd (hi.symm.trans hi') nofun
  | read ms hi' | written ms b m hi' | completedMode ms hi' => exact absurd (hi.symm.trans hi') nofun
  | overran hb' => exact absurd (hb.symm.trans hb') nofun

/-- Only the complete step of a single operation changes DOUT (40_primitives.md R147). -/
theorem exec_dout {i : Instr} {s t : State} (h : exec i s = .next t) :
    (t.doutLo = s.doutLo ∧ t.doutHi = s.doutHi) ∨
      (∃ v, s.phase = .single i ∧ isMode i = false ∧ t = singleDone v s) := by
  cases exec_cases h with
  | completedSingle v hi hm ht => exact .inr ⟨v, hi, hm, ht⟩
  | _ => exact .inl (by simp_all)

/-- Only a WR step changes memory, and only the block that it stores (46_modes.md R302). -/
theorem exec_mem {i : Instr} {s t : State} (hw : s.mem.wf = true) (h : exec i s = .next t) :
    t.mem = s.mem ∨ ∃ (ms : ModeState) (b : Block), s.phase = .mode i ms ∧ ms.stage = .wr b ∧ isMode i = true ∧
      ∀ a, a < dstAddr (cipherOf i) s ms.j ∨ dstAddr (cipherOf i) s ms.j + (cipherOf i).blockBytes ≤ a →
        t.mem.readByte a = s.mem.readByte a := by
  cases exec_cases h with
  | written ms b m hi hmo hs hr ht =>
    refine .inr ⟨ms, b, hi, hs, (isMode_iff_modeOf i).2 ⟨m, hmo⟩, fun a ha => ?_⟩
    rw [ht]
    exact Memory.readByte_writeBytes_outside hw _ ha
  | _ => exact .inl (by simp_all [completeSingle])

/-! ### The frames -/

/-- Settles O40: event by event; the four events are the command's own complete step, the accept, the ignored write, and
what all of them keep. -/
theorem singleCommandFrame : Obligations.SingleCommandFrame := by
  unfold Obligations.SingleCommandFrame
  intro i s t hm hx
  obtain ⟨hhost, htrace, hsched, hirqen⟩ := exec_agents hx
  refine ⟨?mem, exec_opr hx, hirqen, exec_cfg hx, ⟨hhost, htrace, hsched⟩, fun hp => ?done, fun hp => ?dout,
    fun hp => ?accept, fun hi hp => ?overrun⟩
  case mem =>
    cases exec_cases hx with
    | written ms b m hi hmo => exact absurd (hm.symm.trans ((isMode_iff_modeOf i).2 ⟨m, hmo⟩)) nofun
    | _ => simp_all [completeSingle]
  case done =>
    rw [exec_single_done hm hp] at hx
    rw [← Host.Outcome.next.inj hx]
    exact ⟨rfl, rfl⟩
  case dout =>
    obtain hsame | ⟨v, hp', -, -⟩ := exec_dout hx
    · exact hsame
    · exact absurd hp' hp
  case accept =>
    obtain ⟨-, hwovr, hfault, hphase⟩ := exec_accept_frame hp hx
    exact ⟨hwovr, hfault, runPhase_of_single hm s ▸ hphase⟩
  case overrun =>
    rw [exec_of_busy_single hm hi hp] at hx
    exact (Host.Outcome.next.inj hx).symm

/-- Settles O41: event by event; the four events are the command's own engine step, the accept, the ignored write, and
what all of them keep. -/
theorem modeCommandFrame : Obligations.ModeCommandFrame := by
  unfold Obligations.ModeCommandFrame
  intro i s t hm hw hx
  obtain ⟨hhost, htrace, hsched, hirqen⟩ := exec_agents hx
  have hdout : t.doutLo = s.doutLo ∧ t.doutHi = s.doutHi := (exec_dout hx).resolve_right fun ⟨_, _, hm', _⟩ =>
    absurd (hm'.symm.trans hm) nofun
  refine ⟨hdout.1, hdout.2, exec_opr hx, hirqen, exec_cfg hx, ⟨hhost, htrace, hsched⟩, fun ms hp => ?step,
    fun a ha => ?mem, fun hp => ?accept, fun hi hp => ?overrun⟩
  case step =>
    cases exec_mode_cases hm hp hx with
    | read j chain hp hj hr ht | write j b chain m hmo hp hr ht => exact .inl (by rw [ht]; rfl)
    | done j chain hp hj ht => exact .inr (by rw [ht]; exact ⟨rfl, rfl⟩)
  case mem =>
    obtain hsame | ⟨⟨j, stage, chain⟩, b, hp, hs, -, houtside⟩ := exec_mem hw hx
    · rw [hsame]
    · obtain rfl : stage = .wr b := hs
      exact houtside a (ha j b chain hp)
  case accept =>
    obtain ⟨hmem, hwovr, hfault, -⟩ := exec_accept_frame hp hx
    exact ⟨hmem, hwovr, hfault⟩
  case overrun =>
    rw [exec_of_busy_mode hm hi hp] at hx
    exact (Host.Outcome.next.inj hx).symm

/-! ### Counting engine steps -/

/-- Each engine step of a legal mode command uses up one of its 2*COUNT + 1 steps, and the last one is the complete
step. -/
theorem exec_mode_countdown {i : Instr} {ms : ModeState} {s t : State} (h : s.Inv) (hp : s.phase = .mode i ms)
    (hx : exec i s = .next t) :
    stepsLeft s = stepsLeft t + 1 ∧ (t.busy = false ↔ stepsLeft s = 1) ∧ (t.busy = false → t.status.done = true) := by
  obtain ⟨hm, -, hle, -, hstage⟩ := h.mode hp
  cases exec_mode_cases hm hp hx with
  | read j chain hp' hj hr ht =>
    have hs : stepsLeft s = 2 * (blockCount s - j) + 1 := by rw [stepsLeft, hp']
    have htb : t.busy = true := by rw [ht]; rfl
    have ht' : stepsLeft t = 2 * (blockCount s - j) := by rw [ht]; rfl
    refine ⟨by rw [hs, ht'], iff_of_false (by rw [htb]; nofun) (by omega), fun hb => absurd (htb.symm.trans hb) nofun⟩
  | write j b chain m hmo hp' hr ht =>
    obtain rfl : ms = ⟨j, .wr b, chain⟩ := by rw [hp] at hp'; exact (Phase.mode.inj hp').2
    have hj : j < blockCount s := hstage.1
    have hs : stepsLeft s = 2 * (blockCount s - j) := by rw [stepsLeft, hp']
    have htb : t.busy = true := by rw [ht]; rfl
    have ht' : stepsLeft t = 2 * (blockCount s - (j + 1)) + 1 := by rw [ht]; rfl
    refine ⟨by omega, iff_of_false (by rw [htb]; nofun) (by omega), fun hb => absurd (htb.symm.trans hb) nofun⟩
  | done j chain hp' hj ht =>
    have hs : stepsLeft s = 1 := by rw [stepsLeft, hp']; simp only [Nat.sub_eq_zero_of_le (not_lt.1 hj)]
    rw [ht]
    exact ⟨hs, iff_of_true rfl hs, fun _ => rfl⟩

theorem exec_single_countdown {i : Instr} {s t : State} (hm : isMode i = false) (hp : s.phase = .single i)
    (hx : exec i s = .next t) :
    stepsLeft s = stepsLeft t + 1 ∧ (t.busy = false ↔ stepsLeft s = 1) ∧ (t.busy = false → t.status.done = true) := by
  have hs : stepsLeft s = 1 := by rw [stepsLeft, hp]
  rw [exec_single_done hm hp] at hx
  rw [← Host.Outcome.next.inj hx]
  exact ⟨hs, iff_of_true rfl hs, fun _ => rfl⟩

/-- Settles O55: the accept leaves all steps of the command, and each engine step is a complete step or uses up one. -/
theorem engineStepsCountDown : Obligations.EngineStepsCountDown := by
  unfold Obligations.EngineStepsCountDown
  refine ⟨fun i s t hp hf he hx => ?accept, fun s t h hb hx => ?step⟩
  case accept =>
    rw [(command_eq hf hp).2 he] at hx
    rw [← Host.Outcome.next.inj hx, stepsLeft]
    cases hm : isMode i with
    | false => simp only [runPhase_of_single hm, Bool.false_eq_true, if_false]
    | true => simp only [runPhase_of_mode hm, if_true]; rfl
  case step =>
    cases hp : s.phase with
    | idle => exact absurd (((busy_eq_false_iff s).2 hp).symm.trans hb) nofun
    | single i => exact exec_single_countdown (h.single hp).1 hp ((engineStep_single hp).symm.trans hx)
    | mode i ms => exact exec_mode_countdown h hp ((engineStep_mode hp).symm.trans hx)

end Sys2Proof.Machine

/-! PROOFS. Rules of the whole machine (spec 10_state.md R43, R47, 20_memory.md R90, 70_reset_and_hazards.md R390 to
R393): reset, and which events change DOUT, memory and the phase. -/

namespace Sys2Proof.Machine

/-! ### Turns -/

/-- The agent at the head of the schedule moves (20_memory.md R90). -/
theorem step_of_schedule {s : State} {a : Agent} {sched : List Agent} (h : s.schedule = a :: sched) :
    step s = agentStep a (s.withSchedule sched) := by
  rw [step, h]

/-- With nothing scheduled the default agent moves (log 4). -/
theorem step_of_empty {s : State} (h : s.schedule = []) : step s = agentStep (defaultAgent s) s := by
  rw [step, h]

/-- The turn of an agent, scheduled or by default, in one form: `sched` is what is left of the schedule. -/
theorem step_of_turn {s : State} {a : Agent} {sched : List Agent}
    (h : s.schedule = a :: sched ∨ (s.schedule = [] ∧ sched = [])) (ha : s.schedule = [] → defaultAgent s = a) :
    step s = agentStep a (s.withSchedule sched) := by
  obtain hs | ⟨hs, rfl⟩ := h
  · exact step_of_schedule hs
  · have hself : s.withSchedule [] = s := by rw [← hs]; rfl
    rw [step_of_empty hs, ha hs, hself]

theorem defaultAgent_idle {s : State} (hp : s.phase = .idle) : defaultAgent s = .host := by
  rw [defaultAgent, (busy_eq_false_iff s).2 hp]; rfl

theorem defaultAgent_running {s : State} {i : Instr} (hr : runningCommand s = some i) : defaultAgent s = .engine := by
  rw [defaultAgent, busy_of_running hr]; rfl

/-! ### Reset -/

theorem statusWord_reset {s : State} (hs : s.status = .reset) (hp : s.phase = .idle) : statusWord s = 0 := by
  rw [statusWord, hs, (busy_eq_false_iff s).2 hp]
  decide

theorem irqenWord_reset {s : State} (h : s.irqen = .reset) : irqenWord s = 0 := by
  rw [irqenWord, h]
  decide

/-- Every register reads 0 when the engine's fields have their reset values (70_reset_and_hazards.md R390). -/
theorem regValue_reset {s : State} (hs : s.status = .reset) (hi : s.irqen = .reset) (ho : s.opr = .reset)
    (hlo : s.doutLo = 0) (hhi : s.doutHi = 0) (hp : s.phase = .idle) (r : Reg) : regValue r s = 0 := by
  cases r with
  | cmd => rfl
  | status => exact statusWord_reset hs hp
  | irqen => exact irqenWord_reset hi
  | doutLo => exact hlo
  | doutHi => exact hhi
  | _ => rw [regValue, ho]; rfl

/-- Settles O57: the platform's turn is the reset event, which gives the engine's fields their reset values. -/
theorem resetClearsTheEngine : Obligations.ResetClearsTheEngine := by
  unfold Obligations.ResetClearsTheEngine
  exact ⟨fun s sched hs => ⟨_, step_of_schedule hs, regValue_reset rfl rfl rfl rfl rfl rfl, rfl, rfl, rfl, rfl, rfl,
    rfl, rfl⟩, regValue_reset rfl rfl rfl rfl rfl rfl, rfl⟩

/-- Settles O47: `step_fault` says that no other step clears FAULT, and after reset the engine is ready, so that a CMD
write is the command's accept. -/
theorem faultIsClearedByResetAlone : Obligations.FaultIsClearedByResetAlone := by
  unfold Obligations.FaultIsClearedByResetAlone
  refine ⟨fun s t hx hf hf' => ?_, fun s sched hs => ⟨_, step_of_schedule hs, rfl, rfl, fun i he => ?_⟩⟩
  · by_contra hn
    exact absurd ((step_fault hf hn hx).symm.trans hf') nofun
  · rw [regWrite_cmd, cmdWrite_encode rfl rfl, (command_eq rfl rfl).2 he]

/-! ### DOUT and memory -/

/-- Settles O49: no host event changes DOUT, and a command's event only as `exec_dout` says. -/
theorem doutIsWrittenByCompletionAlone : Obligations.DoutIsWrittenByCompletionAlone := by
  unfold Obligations.DoutIsWrittenByCompletionAlone
  intro s t hx hne
  cases step_cases hx with
  | idle sched ht => exact absurd (by rw [ht]; rfl) hne
  | reset sched hs ht => exact .inl (by rw [hs]; rfl)
  | host op rest sched hh hx => exact absurd (hostCase_dout (hostEvent_cases hx)) hne
  | engine i sched hr hx =>
    obtain ⟨hlo, hhi⟩ | ⟨v, hp, hm, ht⟩ := exec_dout hx
    · exact absurd (Prod.ext hlo hhi) hne
    · exact .inr ⟨i, v, hp, hm, by rw [ht]; rfl, by rw [ht]; rfl, by rw [ht]; rfl⟩

/-- Settles O50: the host's event that changes memory is a memory write, and the engine's is the WR step of
`exec_mem`. -/
theorem memoryIsWrittenByTwoEventsAlone : Obligations.MemoryIsWrittenByTwoEventsAlone := by
  unfold Obligations.MemoryIsWrittenByTwoEventsAlone
  intro s t hw hx hne
  cases step_cases hx with
  | idle sched ht => exact absurd (by rw [ht]; rfl) hne
  | reset sched hs ht => exact absurd (by rw [ht]; rfl) hne
  | host op rest sched hh hx hturn =>
    obtain ⟨a, bytes, rfl, hr, ht⟩ := hostEvent_mem hx hne
    refine .inr ⟨a, bytes, rest, hturn, hh, of_decide_eq_true hr, by rw [ht]; rfl, fun k hk => ?_, fun x hout => ?_⟩
    · rw [ht, List.getElem?_eq_getElem hk]
      exact congrArg some (Memory.readByte_writeList_inside hw hk).symm
    · rw [ht]
      exact Memory.readByte_writeList_outside hw hout
  | engine i sched hr hx hturn =>
    obtain hsame | ⟨ms, b, hp, hs, hm, houtside⟩ := exec_mem (s := s.withSchedule sched) hw hx
    · exact absurd hsame hne
    · obtain ⟨-, -, hsched, -⟩ := exec_agents hx
      refine .inl ⟨i, ms, b, hturn, hp, hs, hm, ?_, houtside⟩
      rw [hsched]
      exact hx

/-! ### The phase -/

/-- An offset of the register block names its host address, modulo 2^32 (10_state.md R32; log 21). -/
theorem registerOffset_eq_some_iff (s : State) (addr : Word) (off : BitVec 8) :
    registerOffset s addr = some off ↔ addr = s.cfg.val.regBase + off.setWidth 32 := by
  rw [registerOffset]
  constructor
  · intro h
    split at h
    · obtain rfl := Option.some.inj h
      bv_omega
    · cases h
  · rintro rfl
    have hoff : s.cfg.val.regBase + off.setWidth 32 - s.cfg.val.regBase = off.setWidth 32 := by bv_omega
    rw [hoff, if_pos (by bv_omega)]
    exact congrArg some (by bv_omega)

theorem regRead_phase {off : BitVec 8} {s t : State} (h : regRead off s = .next t) : t.phase = s.phase := by
  unfold regRead at h
  split at h
  · rw [← Host.Outcome.next.inj h]; rfl
  · cases h

theorem busRead_phase {addr : Word} {n : Nat} {s t : State} (h : busRead addr n s = .next t) : t.phase = s.phase := by
  unfold busRead at h
  split at h
  · split at h
    · exact regRead_phase h
    · cases h
  · cases h

theorem hostMemWrite_phase {addr : Word} {bytes : List Byte} {s t : State} (h : hostMemWrite addr bytes s = .next t) :
    t.phase = s.phase := by
  unfold hostMemWrite at h
  split at h
  · rw [← Host.Outcome.next.inj h]; rfl
  · cases h

theorem hostMemRead_phase {addr : Word} {n : Nat} {s t : State} (h : hostMemRead addr n s = .next t) :
    t.phase = s.phase := by
  unfold hostMemRead at h
  split at h
  · rw [← Host.Outcome.next.inj h]; rfl
  · cases h

theorem waitTurn_phase {s t : State} (h : waitTurn s = .next t) : t.phase = s.phase := by
  unfold waitTurn at h
  split at h <;> (rw [← Host.Outcome.next.inj h]; rfl)

/-- A host event that starts a command is the write of its word to CMD, by the offset or at REG_BASE (10_state.md
R36). -/
theorem hostEvent_start {op : HostOp} {s t : State} (h : hostEvent op s = .next t) (hi : s.phase = .idle)
    (hn : t.phase ≠ .idle) :
    ∃ i, (op = .regWrite 0x00 (encode i) ∨ op = .busWrite s.cfg.val.regBase 4 (encode i)) ∧ exec i s = .next t := by
  cases op with
  | regWrite off v =>
    obtain ⟨rfl, i, hdec, hx⟩ := regWrite_start h hi hn
    obtain rfl := (decode_eq_ok_iff v i).1 hdec
    exact ⟨i, .inl rfl, hx⟩
  | busWrite addr bytes v =>
    simp only [hostEvent, busWrite] at h
    split at h
    case h_2 => cases h
    case h_1 off hoff =>
      split at h
      case isFalse => cases h
      case isTrue hwf =>
        obtain ⟨rfl, i, hdec, hx⟩ := regWrite_start h hi hn
        obtain rfl := (decode_eq_ok_iff v i).1 hdec
        obtain rfl : bytes = 4 := by simpa [registerAccessWf] using hwf
        obtain rfl : addr = s.cfg.val.regBase :=
          ((registerOffset_eq_some_iff s addr 0).1 hoff).trans (BitVec.add_zero _)
        exact ⟨i, .inr rfl, hx⟩
  | regRead off => exact absurd ((regRead_phase h).trans hi) hn
  | busRead addr bytes => exact absurd ((busRead_phase h).trans hi) hn
  | memWrite addr bytes => exact absurd ((hostMemWrite_phase h).trans hi) hn
  | memRead addr n => exact absurd ((hostMemRead_phase h).trans hi) hn
  | wait => exact absurd ((waitTurn_phase h).trans hi) hn

/-- A command that enters RUN was accepted without error (60_exceptions.md R360). -/
theorem exec_start {i : Instr} {s t : State} (h : exec i s = .next t) (hi : s.phase = .idle) (hn : t.phase ≠ .idle) :
    s.status.fault = false ∧ acceptError i s = none ∧
      t = { s with status := clearedStatus s, phase := runPhase i s } := by
  have hb : s.busy = false := (busy_eq_false_iff s).2 hi
  cases exec_cases h with
  | accepted _ hf he ht => exact ⟨hf, he, ht⟩
  | faulted _ _ ht | raised _ _ _ _ ht => exact absurd (by rw [ht]; exact hi) hn
  | completedSingle _ hi' | read _ hi' | written _ _ _ hi' | completedMode _ hi' =>
    exact absurd (hi.symm.trans hi') nofun
  | overran hb' => exact absurd (hb.symm.trans hb') nofun

theorem statusWord_busy (s : State) : (statusWord s).getLsbD 0 = s.busy := statusWord_bit s (by decide)

theorem busy_iff (s : State) : s.busy = true ↔ s.phase ≠ .idle := by
  rw [Ne, ← busy_eq_false_iff, Bool.not_eq_false]

theorem runningCommand_congr {s t : State} (h : t.phase = s.phase) : runningCommand t = runningCommand s := by
  rw [runningCommand, runningCommand, h]

/-- A step that enters RUN is the host's, a CMD write that is accepted (10_state.md R47). -/
theorem step_start {s t : State} (h : step s = .next t) (hi : s.phase = .idle) (hn : t.phase ≠ .idle) :
    ∃ (i : Instr) (op : HostOp) (rest : List HostOp), turnOf s = .host ∧ s.host = op :: rest ∧
      (op = .regWrite 0x00 (encode i) ∨ op = .busWrite s.cfg.val.regBase 4 (encode i)) ∧
      acceptError i s = none ∧ s.status.fault = false ∧
      t = { s with status := clearedStatus s, phase := runPhase i s, host := rest, schedule := t.schedule } := by
  cases step_cases h with
  | idle sched ht => exact absurd (by rw [ht]; exact hi) hn
  | reset sched hs ht => exact absurd (by rw [ht]; rfl) hn
  | host op rest sched hh hx hturn =>
    obtain ⟨i, hop, hx⟩ := hostEvent_start hx hi hn
    obtain ⟨hf, he, ht⟩ := exec_start hx hi hn
    exact ⟨i, op, rest, hturn, hh, hop, he, hf, by rw [ht]; rfl⟩
  | engine i sched hr =>
    exact absurd ((busy_iff s).1 (busy_of_running hr)) (not_not_intro hi)

/-- A step of a running command keeps it, or ends it, by its complete step or by reset (10_state.md R47). -/
theorem step_running {s t : State} {i : Instr} (h : step s = .next t) (hr : runningCommand s = some i) :
    runningCommand t = some i ∨
      (t.phase = .idle ∧ (t.status = { s.status with done := true } ∨ s.schedule.head? = some .platform)) := by
  cases step_cases h with
  | idle sched ht => exact .inl (by rw [ht]; exact hr)
  | reset sched hs ht => exact .inr ⟨by rw [ht]; rfl, .inr (by rw [hs]; rfl)⟩
  | host op rest sched hh hx =>
    have hb : ((s.withSchedule sched).withHost rest).busy = true := busy_of_running (s := s) hr
    have hp : t.phase = ((s.withSchedule sched).withHost rest).phase := hostCase_phase (hostEvent_cases hx) hb
    exact .inl ((runningCommand_congr hp).trans hr)
  | engine k sched hk hx =>
    obtain rfl : k = i := Option.some.inj (hk.symm.trans hr)
    exact (exec_not_overrun (s := s.withSchedule sched) hr hx).imp_right fun ⟨hp, hs⟩ => ⟨hp, .inl hs⟩

/-- Settles O51: BUSY is the phase, an engine in IDLE makes no step, RUN is entered as `step_start` says and left as
`step_running` says. -/
theorem commandLifeCycle : Obligations.CommandLifeCycle := by
  unfold Obligations.CommandLifeCycle
  refine ⟨fun s => by rw [statusWord_busy]; exact busy_iff s, fun s hi => ⟨engineStep_idle hi, fun sched hs => ?_⟩,
    fun s t hx => ⟨step_start hx, fun i => step_running hx⟩⟩
  rw [step_of_schedule hs]
  exact engineStep_idle (s := s.withSchedule sched) hi

/-- Settles O4: a step is the turn of its agent; the host's turn at a CMD write is the command's event, and so is the
engine's turn while it runs. -/
theorem stepRunsTheDecodedCommand : Obligations.StepRunsTheDecodedCommand := by
  unfold Obligations.StepRunsTheDecodedCommand
  have hwrite : ∀ (s : State) (w : Word) (i : Instr) (rest : List HostOp), decode w = .ok i →
      s.host = .regWrite 0x00 w :: rest → s.phase = .idle → s.status.fault = false →
      agentStep .host s = exec i (s.withHost rest) := fun s w i rest hdec hh hp hf => by
    obtain rfl := (decode_eq_ok_iff w i).1 hdec
    rw [agentStep, hostStep, hh]
    exact cmdWrite_encode (s := s.withHost rest) hf hp i
  refine ⟨fun s w i rest sched hdec hh hp hf hs => ?host, fun s i sched hr hs => ?engine, fun s w i hdec => ?fetch⟩
  case host =>
    rw [step_of_turn hs fun _ => defaultAgent_idle hp]
    exact hwrite (s.withSchedule sched) w i rest hdec hh hp hf
  case engine =>
    rw [step_of_turn hs fun _ => defaultAgent_running hr]
    exact engineStep_running (s := s.withSchedule sched) hr
  case fetch =>
    have hw : BitVec.ofNat 32 (w.toNat % 2 ^ 32) = w := by
      rw [Nat.mod_eq_of_lt w.isLt, BitVec.ofNat_toNat, BitVec.setWidth_eq]
    rw [step_of_schedule (s := s.withFetchWord 32 w.toNat) rfl]
    exact hwrite _ w i s.host hdec (congrArg (HostOp.regWrite 0x00 · :: s.host) hw) rfl rfl

end Sys2Proof.Machine

/-! PROOFS. The register map at the edges (spec 10_state.md R32 to R34): STATUS and its write, reserved offsets, and
the forms of access; and the sample words of 30_encoding.md R119. -/

namespace Sys2Proof.Machine

/-! ### STATUS -/

/-- Settles O42: STATUS is read bit by bit by `statusWord_bit`, and its write is `State.writeStatus`, field by field. -/
theorem statusReadsAndClears : Obligations.StatusReadsAndClears := by
  unfold Obligations.StatusReadsAndClears
  refine ⟨⟨rfl, rfl, rfl, rfl, rfl, rfl⟩, fun s v => ⟨fun k hk => statusWord_bit s hk, busy_iff s, _,
    regWrite_status v s, ?done, ?err, rfl, ?wovr, rfl⟩⟩
  case done => cases v.getLsbD 1 <;> simp
  case err => cases v.getLsbD 2 <;> simp
  case wovr => cases v.getLsbD 4 <;> simp

/-! ### Offsets -/

/-- An operand register stands at a named offset of the register map (10_state.md R33). -/
theorem exists_reg_of_write {o o' : Operands} {off : BitVec 8} {v : Word} (h : o.write off v = some o') :
    ∃ r, off = regOffset r := by
  unfold Operands.write at h
  split at h
  case h_11 => cases h
  case h_1 => exact ⟨.keyLo, BitVec.eq_of_toNat_eq ‹_›⟩
  case h_2 => exact ⟨.keyHi, BitVec.eq_of_toNat_eq ‹_›⟩
  case h_3 => exact ⟨.ivLo, BitVec.eq_of_toNat_eq ‹_›⟩
  case h_4 => exact ⟨.ivHi, BitVec.eq_of_toNat_eq ‹_›⟩
  case h_5 => exact ⟨.rounds, BitVec.eq_of_toNat_eq ‹_›⟩
  case h_6 => exact ⟨.src, BitVec.eq_of_toNat_eq ‹_›⟩
  case h_7 => exact ⟨.dst, BitVec.eq_of_toNat_eq ‹_›⟩
  case h_8 => exact ⟨.count, BitVec.eq_of_toNat_eq ‹_›⟩
  case h_9 => exact ⟨.dinLo, BitVec.eq_of_toNat_eq ‹_›⟩
  case h_10 => exact ⟨.dinHi, BitVec.eq_of_toNat_eq ‹_›⟩

/-- A read finds an operand register exactly where a write does. -/
theorem isSome_read_eq_isSome_write (o : Operands) (off : BitVec 8) (v : Word) :
    (o.read off).isSome = (o.write off v).isSome := by
  unfold Operands.read Operands.write
  split <;> rfl

/-- An offset without a name ignores writes (10_state.md R32). -/
theorem writeReg_unnamed {off : BitVec 8} (h : ∀ r, off ≠ regOffset r) (v : Word) (s : State) :
    writeReg off v s = s := by
  unfold writeReg
  split
  case h_1 => exact absurd (BitVec.eq_of_toNat_eq ‹_›) (h .status)
  case h_2 => exact absurd (BitVec.eq_of_toNat_eq ‹_›) (h .irqen)
  case h_3 =>
    split
    case h_1 o hw =>
      obtain ⟨r, hr⟩ := exists_reg_of_write hw
      exact absurd hr (h r)
    case h_2 => rfl

/-- An offset without a name reads 0 (10_state.md R32). -/
theorem readReg_unnamed {off : BitVec 8} (h : ∀ r, off ≠ regOffset r) (s : State) : readReg off s = 0 := by
  unfold readReg
  split
  case h_1 => exact absurd (BitVec.eq_of_toNat_eq ‹_›) (h .status)
  case h_2 => exact absurd (BitVec.eq_of_toNat_eq ‹_›) (h .irqen)
  case h_3 => exact absurd (BitVec.eq_of_toNat_eq ‹_›) (h .doutLo)
  case h_4 => exact absurd (BitVec.eq_of_toNat_eq ‹_›) (h .doutHi)
  case h_5 =>
    split
    case h_1 v hv =>
      have hsome : (s.opr.write off 0).isSome = true := by rw [← isSome_read_eq_isSome_write, hv]; rfl
      obtain ⟨o, ho⟩ := Option.isSome_iff_exists.1 hsome
      obtain ⟨r, hr⟩ := exists_reg_of_write ho
      exact absurd hr (h r)
    case h_2 => rfl

/-! ### Forms of access -/

theorem registerAccessWf_iff (off : BitVec 8) (bytes : Nat) :
    registerAccessWf off bytes = true ↔ off.toNat % 4 = 0 ∧ bytes = 4 := by
  rw [registerAccessWf, Bool.and_eq_true, beq_iff_eq, beq_iff_eq]

theorem regWrite_refused {off : BitVec 8} (h : off.toNat % 4 ≠ 0) (v : Word) (s : State) :
    regWrite off v s = .refused .registerAccessForm :=
  if_neg fun hwf => h ((registerAccessWf_iff off 4).1 hwf).1

theorem regRead_refused {off : BitVec 8} (h : off.toNat % 4 ≠ 0) (s : State) :
    regRead off s = .refused .registerAccessForm :=
  if_neg fun hwf => h ((registerAccessWf_iff off 4).1 hwf).1

/-- A bus access of 4 bytes is the access at its offset, whether that is aligned or refused; of another width it is
refused (10_state.md R32; log 13). -/
theorem busWrite_regBase (s : State) (off : BitVec 8) (n : Nat) (v : Word) :
    busWrite (s.cfg.val.regBase + off.setWidth 32) n v s =
      if n = 4 then regWrite off v s else .refused .registerAccessForm := by
  rw [busWrite, (registerOffset_eq_some_iff s _ off).2 rfl]
  by_cases hn : n = 4
  · subst hn
    by_cases ha : off.toNat % 4 = 0
    · simp [registerAccessWf_iff, ha]
    · simp [registerAccessWf_iff, ha, regWrite_refused]
  · simp [registerAccessWf_iff, hn]

theorem busRead_regBase (s : State) (off : BitVec 8) (n : Nat) :
    busRead (s.cfg.val.regBase + off.setWidth 32) n s =
      if n = 4 then regRead off s else .refused .registerAccessForm := by
  rw [busRead, (registerOffset_eq_some_iff s _ off).2 rfl]
  by_cases hn : n = 4
  · subst hn
    by_cases ha : off.toNat % 4 = 0
    · simp [registerAccessWf_iff, ha]
    · simp [registerAccessWf_iff, ha, regRead_refused]
  · simp [registerAccessWf_iff, hn]

/-- Settles O45: offsets without a name are those where neither a read nor a write finds a register; a bus access goes
through the offset that its address names. -/
theorem reservedOffsetsAndAccessForms : Obligations.ReservedOffsetsAndAccessForms := by
  unfold Obligations.ReservedOffsetsAndAccessForms
  refine ⟨fun s off v ha hoff => ⟨?write, ?read⟩, fun s v => ⟨rfl, rfl⟩,
    fun s off v ha => ⟨regWrite_refused ha v s, regRead_refused ha s⟩, fun s off n v => ?bus⟩
  case write => rw [regWrite_of_aligned (hoff .cmd) ha, writeReg_unnamed hoff]
  case read =>
    rw [regRead, if_pos ((registerAccessWf_iff off 4).2 ⟨ha, rfl⟩), readReg_unnamed hoff]
    rfl
  case bus =>
    intro addr
    rw [busWrite_regBase, busRead_regBase, if_pos rfl, if_pos rfl]
    exact ⟨rfl, rfl, fun hn => ⟨by rw [busWrite_regBase, if_neg hn], by rw [busRead_regBase, if_neg hn]⟩⟩

/-! ### Words -/

/-- Settles O1: the commands are those of `decode_encode`, and the decoder is evaluated on the other five words. -/
theorem sampleWordsDecode : Obligations.SampleWordsDecode := by
  unfold Obligations.SampleWordsDecode
  exact ⟨decode_encode .blkEncSpn, decode_encode .blkDecDes, decode_encode .ecbDecFei, decode_encode .cbcEncDes,
    decode_encode .cfbDecSpn, decode_encode .permSpnRev, decode_encode .permDesPc2, decode_encode .substDes,
    decode_encode .ksFei, rfl, rfl, rfl, rfl, rfl⟩

end Sys2Proof.Machine

/-! PROOFS. The data memory (spec 20_memory.md R84, R88, R90). -/

namespace Sys2Proof.Machine

open Memory

/-- Byte k of a value, as a number (20_memory.md R84). -/
theorem toNat_readByte_writeBytes {m : Memory} (h : m.wf = true) {a n k : Nat} (v : Nat) (hk : k < n) :
    ((m.writeBytes a n v).readByte (a + k)).toNat = v / 2 ^ (8 * k) % 256 := by
  rw [readByte_writeBytes_inside h v hk, BitVec.toNat_ofNat, Nat.pow_mul]

/-- Settles O58: the laws of `Memory` for the engine's accesses, and those of the host's lists of bytes. -/
theorem memoryIsLittleEndian : Obligations.MemoryIsLittleEndian := by
  unfold Obligations.MemoryIsLittleEndian
  refine ⟨fun m a n v h => ⟨readBytes_sum m a n, fun k hk => toNat_readByte_writeBytes h v hk,
    fun x hx => readByte_writeBytes_outside h v hx, ?same, wf_writeBytes h a n v⟩,
    fun s a bytes h ha => ⟨_, hostMemWrite_of_le ha, wf_writeList h _ _, fun k hk => ?host,
      fun x hx => readByte_writeList_outside h hx⟩,
    fun s a n ha => ⟨_, hostMemRead_of_le ha, readList_length _ _ _, fun k hk => readList_getElem? _ hk⟩⟩
  case same => rw [readBytes_writeBytes_same h, Nat.pow_mul]
  case host => rw [readByte_writeList_inside h hk, List.getElem?_eq_getElem hk]

end Sys2Proof.Machine

/-! PROOFS. The transforms (spec 40_primitives.md R140 to R146): the straight and reverse ones undo each other, and
the results of the PERM, SUBST and KS.DES commands bit by bit (R150 to R163, 41_key_schedule.md R174 to R176). -/

namespace Sys2Proof.Machine

/-! ### The laws of R146 -/

/-- Two permutations undo each other when their tables do: the second asks bit `U[i]` of the first, which asks
`T[U[i]]`. -/
theorem permute_permute {w : Nat} {T U : List Nat} (hT : T.length = w) (hU : U.length = w)
    (hlt : ∀ i, i < w → U.getD i 0 < w) (h : ∀ i, i < w → T.getD (U.getD i 0) 0 = i) (x : BitVec w) :
    permute (permute x T) U = x :=
  BitVec.eq_of_getLsbD_eq fun i hi => by
    rw [getLsbD_permuteD _ hU hi, getLsbD_permuteD x hT (hlt i hi), h i hi]

theorem IsTable.permute_inverse {w : Nat} {T : List Nat} (h : IsTable w T) (x : BitVec w) :
    permute (permute x T) (inverseTable T) = x ∧ permute (permute x (inverseTable T)) T = x :=
  ⟨permute_permute h.length h.inverse.length (fun _ => h.inverse.getD_lt') (fun i hi => table_inv h i hi 0) x,
    permute_permute h.inverse.length h.length (fun _ => h.getD_lt') (fun i hi => inv_table h i hi 0) x⟩

/-- Two substitutions undo each other when their tables do, nibble by nibble. -/
theorem substitute_substitute {n : Nat} {S U : List Nat} (hS : ∀ v, S.getD v 0 < 16) (hU : ∀ v, U.getD v 0 < 16)
    (h : ∀ v, v < 16 → U.getD (S.getD v 0) 0 = v) (x : BitVec (4 * n)) : substitute (substitute x S) U = x :=
  eq_of_nibbles fun j hj => by rw [subst_lane _ hU hj, subst_lane x hS hj, h _ (nibble_lt x j)]

theorem IsTable.substitute_inverse {n : Nat} {S : List Nat} (h : IsTable 16 S) (x : BitVec (4 * n)) :
    substitute (substitute x S) (inverseTable S) = x ∧ substitute (substitute x (inverseTable S)) S = x :=
  ⟨substitute_substitute h.getD_lt h.inverse.getD_lt (fun v hv => inv_table h v hv 0) x,
    substitute_substitute h.inverse.getD_lt h.getD_lt (fun v hv => table_inv h v hv 0) x⟩

/-- Two DES permutations of m bits undo each other when their tables do. -/
theorem permuteDes_permuteDes {m : Nat} {T U : List Nat} (hm : 0 < m) (hT : T.length = m) (hU : U.length = m)
    (h : ∀ j, j < m → (T.getD ((U.getD j 0 - 1) % m) 0 - 1) % m = j) (x : BitVec m) :
    permuteDes m (permuteDes m x T) U = x :=
  desBit_ext fun j hj => by
    rw [permDes_bit m m _ U hU j hj, permDes_bit m m x T hT _ (Nat.mod_lt _ hm), h j hj]

theorem permuteDes_ip_fp (x : Block) : permuteDes 64 (permuteDes 64 x desIp) desFp = x :=
  permuteDes_permuteDes (T := desIp) (U := desFp) (by decide) rfl rfl desIpFp.1 x

theorem permuteDes_fp_ip (x : Block) : permuteDes 64 (permuteDes 64 x desFp) desIp = x :=
  permuteDes_permuteDes (T := desFp) (U := desIp) (by decide) rfl rfl desIpFp.2 x

/-- Settles O13: the four tables of a well-formed configuration are bijections, and IP and FP are inverse by
evaluation. -/
theorem transformsUndoEachOther : Obligations.TransformsUndoEachOther := by
  unfold Obligations.TransformsUndoEachOther
  exact fun c x y z => ⟨(isTable_pStraight c).permute_inverse x, (isTable_pF c).permute_inverse y,
    (isTable_sStraight c).substitute_inverse (n := 8) x, (isTable_sF c).substitute_inverse (n := 4) y,
    permuteDes_ip_fp z, permuteDes_fp_ip z⟩

/-! ### PERM -/

/-- A table of the configuration pulls bit `T[k]` to bit k (40_primitives.md R140). -/
theorem getLsbD_permute_get {n : Nat} (v : Vector (Fin n) n) (x : BitVec n) (k : Fin n) :
    (permute x (v.toList.map Fin.val)).getLsbD k = x.getLsbD (v.get k) := by
  rw [getLsbD_permuteD x (by simp) k.isLt, getD_table]

/-- Its reverse brings bit k back to bit `T[k]` (40_primitives.md R143). -/
theorem getLsbD_permute_inverse_get {n : Nat} {v : Vector (Fin n) n} (h : IsTable n (v.toList.map Fin.val))
    (x : BitVec n) (k : Fin n) :
    (permute x (inverseTable (v.toList.map Fin.val))).getLsbD (v.get k) = x.getLsbD k := by
  rw [getLsbD_permuteD x h.inverse.length (v.get k).isLt, getD_inverseTable_get h]

theorem dinLow_32 (s : State) : dinLow 32 s = s.opr.dinLo := by
  rw [dinLow_of_le le_rfl, BitVec.setWidth_eq]

theorem dinLow_16 (s : State) : dinLow 16 s = s.opr.dinLo.setWidth 16 := dinLow_of_le (by decide) s

theorem getLsbD_setWidth_fin {n w : Nat} (x : BitVec w) (k : Fin n) : (x.setWidth n).getLsbD k = x.getLsbD k := by
  rw [BitVec.getLsbD_setWidth, decide_eq_true k.isLt, Bool.true_and]

/-- Settles O14: each command completes with `permute` of its operand, whose bits are those of the table. -/
theorem permTableCommandResults : Obligations.PermTableCommandResults := by
  unfold Obligations.PermTableCommandResults
  refine fun s => ⟨fun hs => ⟨permute s.opr.dinLo (pStraight s.cfg.val), ?_, fun k => getLsbD_permute_get _ _ k⟩,
    fun hs => ⟨permute s.opr.dinLo (pReverse s.cfg.val), ?_,
      fun k => getLsbD_permute_inverse_get (isTable_pStraight s.cfg) _ k⟩,
    fun hs => ⟨permute (s.opr.dinLo.setWidth 16) (pF s.cfg.val), ?_,
      fun k => (getLsbD_permute_get _ _ k).trans (getLsbD_setWidth_fin _ _)⟩,
    fun hs => ⟨permute (s.opr.dinLo.setWidth 16) (pFRev s.cfg.val), ?_,
      fun k => (getLsbD_permute_inverse_get (isTable_pF s.cfg) _ k).trans (getLsbD_setWidth_fin _ _)⟩⟩
  · rw [execPermSpn_done hs, dinLow_32]
  · rw [execPermSpnRev_done hs, dinLow_32]
  · rw [execPermFei_done hs, dinLow_16]
  · rw [execPermFeiRev_done hs, dinLow_16]

/-- Settles O15: each command completes with `permuteDes` of its operand, whose entries are DES bits of the operand. -/
theorem permDesCommandResults : Obligations.PermDesCommandResults := by
  unfold Obligations.PermDesCommandResults
  refine fun s => ⟨
    fun hs => ⟨permuteDes 64 (s.opr.dinHi ++ s.opr.dinLo) desIp, ?_, permDes_bit' 64 64 _ _ rfl (by decide)⟩,
    fun hs => ⟨permuteDes 64 (s.opr.dinHi ++ s.opr.dinLo) desFp, ?_, permDes_bit' 64 64 _ _ rfl (by decide)⟩,
    fun hs => ⟨permuteDes 48 s.opr.dinLo desE, ?_, permDes_bit' 32 48 _ _ rfl (by decide)⟩,
    fun hs => ⟨permuteDes 32 s.opr.dinLo desP, ?_, permDes_bit' 32 32 _ _ rfl (by decide)⟩,
    fun hs => ⟨permuteDes 56 (s.opr.dinHi ++ s.opr.dinLo) desPc1, ?_, permDes_bit' 64 56 _ _ rfl (by decide)⟩,
    fun hs => ⟨permuteDes 48 (s.opr.dinHi.setWidth 24 ++ s.opr.dinLo) desPc2, ?_,
      permDes_bit' 56 48 _ _ rfl (by decide)⟩⟩
  · rw [execPermDesIp_done hs, dinLow_64, BitVec.setWidth_eq]
  · rw [execPermDesFp_done hs, dinLow_64, BitVec.setWidth_eq]
  · rw [execPermDesE_done hs, dinLow_32]
  · rw [execPermDesP_done hs, dinLow_32]
  · rw [execPermDesPc1_done hs, dinLow_64]
  · rw [execPermDesPc2_done hs, dinLow_of_ge 24]

/-! ### SUBST -/

/-- A table of the configuration sends each nibble to its entry (40_primitives.md R142). -/
theorem substitute_get {n : Nat} {v : Vector (Fin 16) 16} (h : IsTable 16 (v.toList.map Fin.val)) (x : BitVec (4 * n))
    {j : Nat} (hj : j < n) :
    ((substitute x (v.toList.map Fin.val)).extractLsb' (4 * j) 4).toNat =
      (v.get (x.extractLsb' (4 * j) 4).toFin).val := by
  rw [subst_lane x h.getD_lt hj, sbox_get]

/-- Its reverse sends each nibble to the one whose entry it is (40_primitives.md R143). -/
theorem get_substitute_inverse {n : Nat} {v : Vector (Fin 16) 16} (h : IsTable 16 (v.toList.map Fin.val))
    (x : BitVec (4 * n)) {j : Nat} (hj : j < n) :
    (v.get ((substitute x (inverseTable (v.toList.map Fin.val))).extractLsb' (4 * j) 4).toFin).val =
      (x.extractLsb' (4 * j) 4).toNat := by
  rw [sbox_get, subst_lane x h.inverse.getD_lt hj, table_inv h _ (nibble_lt x j)]

/-- A nibble of DIN[15:0] is that nibble of DIN_LO. -/
theorem extract_setWidth_16 (x : Word) {j : Nat} (hj : j < 4) :
    (x.setWidth 16).extractLsb' (4 * j) 4 = x.extractLsb' (4 * j) 4 :=
  BitVec.eq_of_getLsbD_eq fun i hi => by
    have hlow : 4 * j + i < 16 := by omega
    rw [BitVec.getLsbD_extractLsb', BitVec.getLsbD_extractLsb', BitVec.getLsbD_setWidth, decide_eq_true hlow,
      Bool.true_and]

/-- Settles O16: each command completes with `substitute` of its operand, whose nibbles are those of the table. -/
theorem substTableCommandResults : Obligations.SubstTableCommandResults := by
  unfold Obligations.SubstTableCommandResults
  refine fun s => ⟨fun hs => ⟨substitute s.opr.dinLo (sStraight s.cfg.val), ?_,
      fun j hj => substitute_get (n := 8) (isTable_sStraight s.cfg) _ hj⟩,
    fun hs => ⟨substitute s.opr.dinLo (sReverse s.cfg.val), ?_,
      fun j hj => get_substitute_inverse (n := 8) (isTable_sStraight s.cfg) _ hj⟩,
    fun hs => ⟨substitute (s.opr.dinLo.setWidth 16) (sF s.cfg.val), ?_, fun j hj => ?_⟩,
    fun hs => ⟨substitute (s.opr.dinLo.setWidth 16) (sFRev s.cfg.val), ?_, fun j hj => ?_⟩⟩
  · rw [execSubstSpn_done hs, dinLow_32]
  · rw [execSubstSpnRev_done hs, dinLow_32]
  · rw [execSubstFei_done hs, dinLow_16]
  · rw [← extract_setWidth_16 _ hj]
    exact substitute_get (n := 4) (isTable_sF s.cfg) _ hj
  · rw [execSubstFeiRev_done hs, dinLow_16]
  · rw [← extract_setWidth_16 _ hj]
    exact get_substitute_inverse (n := 4) (isTable_sF s.cfg) _ hj

/-! ### KS.DES -/

/-- The places that the halves have moved, as the sum of the shifts of the rounds 1 .. n (41_key_schedule.md R175). -/
theorem shiftSum_eq_sum (n : Nat) : shiftSum n = ((List.range n).map fun r => desShift (r + 1)).sum := by
  induction n with
  | zero => rfl
  | succ n ih => rw [shiftSum, ih, List.range_succ, List.map_append, List.sum_append]; rfl

/-- DES bit p of C_n ++ D_n is the bit of PC-1 at its place before the rotations of its half (41_key_schedule.md R174,
R175). -/
theorem desBit_halves (K : Block) (n : Nat) {p : Nat} (h1 : 1 ≤ p) (h56 : p ≤ 56) :
    desBit (desC K n ++ desD K n : BitVec 56) p =
      desBit K (desPc1.getD (if p ≤ 28 then (p - 1 + shiftSum n) % 28 else 28 + (p - 29 + shiftSum n) % 28) 0) := by
  have hmod : ∀ k, k % 28 < 28 := fun k => Nat.mod_lt k (by decide)
  by_cases hp : p ≤ 28
  · have hbit := desBit_append_hi (desC K n) (desD K n) (p - 1) (by omega)
    rw [Nat.sub_add_cancel h1] at hbit
    rw [if_pos hp, hbit, ← Nat.sub_add_cancel h1, desC_bit K n (p - 1) (by omega), desC0_bit K _ (hmod _),
      Nat.sub_add_cancel h1]
  · have hbit := desBit_append_lo (desC K n) (desD K n) (p - 29) (by omega)
    rw [show 28 + (p - 29) + 1 = p by omega] at hbit
    rw [if_neg hp, hbit, desD_bit K n (p - 29) (by omega), desD0_bit K _ (hmod _)]

/-- DES bit j + 1 of the round key of round n (41_key_schedule.md R176). -/
theorem desBit_rkDes (K : Block) (n : Nat) {j : Nat} (hj : j < 48) :
    desBit (rkDes K n) (j + 1) =
      desBit K (desPc1.getD (if desPc2.getD j 0 ≤ 28 then (desPc2.getD j 0 - 1 + shiftSum n) % 28
        else 28 + (desPc2.getD j 0 - 29 + shiftSum n) % 28) 0) := by
  have hrange : ∀ j, j < 48 → 1 ≤ desPc2.getD j 0 ∧ desPc2.getD j 0 ≤ 56 := by decide
  obtain ⟨h1, h56⟩ := hrange j hj
  rw [rkDes, permDes_bit' 56 48 _ desPc2 rfl hrange j hj, desBit_halves K n h1 h56]

theorem acceptError_ksDes (s : State) :
    acceptError .ksDes s = if s.opr.dinLo.toNat > 15 then some .badArg else none := by
  have hdes : isDesCipher .ksDes = false := rfl
  have hks : isKsDes .ksDes = true := rfl
  have hm : isMode .ksDes = false := rfl
  simp [acceptError, hdes, hks, hm]

/-- Settles O19: KS.DES completes with `rkDes` of round i + 1, whose bits are given above, and its check is that of the
index. -/
theorem desRoundKeyCommandResult : Obligations.DesRoundKeyCommandResult := by
  unfold Obligations.DesRoundKeyCommandResult
  refine fun s => ⟨fun hs _ => ⟨rkDes (key s) (s.opr.dinLo.toNat + 1), ?done, fun j hj => ?bit⟩,
    fun hp hf hi => ?accepted, fun hp hf hi => ?raised⟩
  case done => rw [execKsDes_done hs, ksIndex_eq]
  case bit =>
    intro p sh q
    have hsh : shiftSum (s.opr.dinLo.toNat + 1) = sh := shiftSum_eq_sum _
    rw [desBit_rkDes _ _ hj, hsh]
    rfl
  case accepted =>
    refine (command_eq hf hp).2 ?_
    rw [acceptError_ksDes, if_neg (Nat.not_lt.2 hi)]
  case raised =>
    refine (command_eq hf hp).1 _ ?_
    rw [acceptError_ksDes, if_pos hi]

end Sys2Proof.Machine

/-! PROOFS. Decryption and encryption undo each other, for the three ciphers (spec 42_spn32.md R192, R193,
43_feistel32.md R213, 44_des64.md R235). -/

namespace Sys2Proof.Machine

/-! ### SPN-32 -/

section
variable (c : WfConfig)

/-- The round of decryption undoes that of encryption, layer by layer (42_spn32.md R191). -/
theorem spnRound_undo (x k : BitVec 32) :
    substitute (permute (permute (substitute (x ^^^ k) (sStraight c.val)) (pStraight c.val)) (pReverse c.val))
      (sReverse c.val) ^^^ k = x := by
  rw [pReverse, ((isTable_pStraight c).permute_inverse _).1, sReverse,
    ((isTable_sStraight c).substitute_inverse (n := 8) (x ^^^ k)).1, BitVec.xor_assoc, BitVec.xor_self, BitVec.xor_zero]

/-- And the round of encryption that of decryption. -/
theorem spnRound_redo (x k : BitVec 32) :
    permute (substitute (substitute (permute x (pReverse c.val)) (sReverse c.val) ^^^ k ^^^ k) (sStraight c.val))
      (pStraight c.val) = x := by
  rw [BitVec.xor_assoc, BitVec.xor_self, BitVec.xor_zero, sReverse,
    ((isTable_sStraight c).substitute_inverse (n := 8) (permute x (pReverse c.val))).2, pReverse,
    ((isTable_pStraight c).permute_inverse x).2]

theorem spnD_spnE (b K : BitVec 32) (R : Nat) : spnD c.val (spnE c.val b K R) K R = b := by
  induction R with
  | zero => rfl
  | succ R ih => rw [spnD, spnE, spnRound_undo, ih]

theorem spnE_spnD (b K : BitVec 32) (R : Nat) : spnE c.val (spnD c.val b K R) K R = b := by
  induction R generalizing b with
  | zero => rfl
  | succ R ih => rw [spnD, spnE, ih, spnRound_redo]

end

/-- Settles O23: the last round of encryption is the first that decryption undoes, and the other way round; with no
rounds nothing is done. -/
theorem spnEncryptAndDecryptUndoEachOther : Obligations.SpnEncryptAndDecryptUndoEachOther := by
  unfold Obligations.SpnEncryptAndDecryptUndoEachOther
  exact fun c b K R => ⟨spnD_spnE c b K R, spnE_spnD c b K R, rfl, rfl⟩

/-! ### Feistel networks -/

section
variable {h : Nat} (F : Nat → BitVec h → BitVec h)

/-- A round on exchanged halves undoes the round: XOR with the same value twice (43_feistel32.md R213). -/
theorem feistelDown_feistelUp_swap (R : Nat) (p : BitVec h × BitVec h) :
    feistelDown F R (feistelUp F R p).swap = p.swap := by
  induction R with
  | zero => rfl
  | succ R ih =>
    rw [feistelUp]
    generalize feistelUp F R p = q at ih ⊢
    obtain ⟨l, x⟩ := q
    simp only [Prod.swap_prod_mk, feistelDown, BitVec.xor_assoc, BitVec.xor_self, BitVec.xor_zero]
    exact ih

/-- The same with the rounds in the other order. -/
theorem feistelUp_feistelDown_swap (R : Nat) (p : BitVec h × BitVec h) :
    feistelUp F R (feistelDown F R p).swap = p.swap := by
  induction R generalizing p with
  | zero => rfl
  | succ R ih =>
    obtain ⟨l, x⟩ := p
    rw [feistelDown, feistelUp, ih]
    simp only [Prod.swap_prod_mk, BitVec.xor_assoc, BitVec.xor_self, BitVec.xor_zero]

end

/-- The terminal swap lets the network of one direction undo that of the other on whole blocks (43_feistel32.md R213,
R214). -/
theorem fei_down_up (F : Nat → BitVec 16 → BitVec 16) (R : Nat) (b : BitVec 32) :
    feiJoin (feistelDown F R (feiSplit (feiJoin (feistelUp F R (feiSplit b))))) = b := by
  rw [feiSplit_join, feistelDown_feistelUp_swap, feiJoin_split]

theorem fei_up_down (F : Nat → BitVec 16 → BitVec 16) (R : Nat) (b : BitVec 32) :
    feiJoin (feistelUp F R (feiSplit (feiJoin (feistelDown F R (feiSplit b))))) = b := by
  rw [feiSplit_join, feistelUp_feistelDown_swap, feiJoin_split]

theorem feiD_feiE (c : Config) (b : BitVec 32) (K : BitVec 16) (R : Nat) : feiD c (feiE c b K R) K R = b :=
  fei_down_up _ R b

theorem feiE_feiD (c : Config) (b : BitVec 32) (K : BitVec 16) (R : Nat) : feiE c (feiD c b K R) K R = b :=
  fei_up_down _ R b

/-- Settles O24: both directions are the network with F_fei, and the network is undone for any round functions. -/
theorem feistelDecryptUndoesEncrypt : Obligations.FeistelDecryptUndoesEncrypt := by
  unfold Obligations.FeistelDecryptUndoesEncrypt
  exact ⟨fun c b K R => ⟨feiD_feiE c b K R, feiE_feiD c b K R⟩, fei_down_up⟩

/-! ### DES-64 -/

/-- Joining swaps the halves, and IP undoes FP (44_des64.md R234). -/
theorem desSplit_join (p : BitVec 32 × BitVec 32) : desSplit (desJoin p) = p.swap := by
  obtain ⟨l, x⟩ := p
  have hhi : (x ++ l : Block).extractLsb' 32 32 = x := BitVec.eq_of_getLsbD_eq fun i hi => by
    rw [BitVec.getLsbD_extractLsb', decide_eq_true hi, Bool.true_and]
    exact (BitVec.getLsbD_append ..).trans (by rw [if_neg (by omega), Nat.add_sub_cancel_left])
  have hlo : (x ++ l : Block).extractLsb' 0 32 = l := BitVec.eq_of_getLsbD_eq fun i hi => by
    rw [BitVec.getLsbD_extractLsb', decide_eq_true hi, Bool.true_and, Nat.zero_add]
    exact (BitVec.getLsbD_append ..).trans (if_pos hi)
  rw [desSplit, desJoin, permuteDes_fp_ip]
  exact Prod.ext hhi hlo

/-- FP undoes IP, and a block is its two halves. -/
theorem desJoin_split (b : Block) : desJoin (desSplit b).swap = b := by
  rw [desJoin, desSplit]
  exact (congrArg (permuteDes 64 · desFp) (join32 _)).trans (permuteDes_ip_fp b)

theorem desDecrypt_desEncrypt (b K : Block) : desDecrypt (desEncrypt b K) K = b := by
  rw [desDecrypt, desEncrypt, desSplit_join, feistelDown_feistelUp_swap, desJoin_split]

theorem desEncrypt_desDecrypt (b K : Block) : desEncrypt (desDecrypt b K) K = b := by
  rw [desDecrypt, desEncrypt, desSplit_join, feistelUp_feistelDown_swap, desJoin_split]

/-- Settles O25: DES is IP, the network, the swap and FP, and each undoes its counterpart. -/
theorem desDecryptUndoesEncrypt : Obligations.DesDecryptUndoesEncrypt := by
  unfold Obligations.DesDecryptUndoesEncrypt
  exact fun b K => ⟨desDecrypt_desEncrypt b K, desEncrypt_desDecrypt b K⟩

end Sys2Proof.Machine

/-! PROOFS. The WR and complete steps of the mode commands, whole runs of them, and their functional meaning in memory
(spec 46_modes.md R300 to R303, 20_memory.md R92). -/

namespace Sys2Proof.Machine

open Memory

/-! ### The WR and the complete step -/

/-- The WR step of any mode command: the output block stands little-endian at DST + j*bb and every other byte stays. -/
theorem exec_write_bytes {i : Instr} {m : Mode} {s : State} {j : Nat} {b chain out next : Block}
    (hmo : modeOf i = some m) (hp : s.phase = .mode i ⟨j, .wr b, chain⟩) (hw : s.mem.wf = true)
    (hr : dstAddr (cipherOf i) s j + (cipherOf i).blockBytes ≤ memSize s)
    (hblock : modeBlock m (dirOf i) (encBlock (cipherOf i) s) (decBlock (cipherOf i) s) b chain = (out, next)) :
    ∃ mem : Memory, exec i s = .next { s with mem := mem, phase := .mode i ⟨j + 1, .rd, next⟩ } ∧
      (∀ k, k < (cipherOf i).blockBytes →
        mem.readByte (dstAddr (cipherOf i) s j + k) = out.extractLsb' (8 * k) 8) ∧
      ∀ a, a < dstAddr (cipherOf i) s j ∨ dstAddr (cipherOf i) s j + (cipherOf i).blockBytes ≤ a →
        mem.readByte a = s.mem.readByte a := by
  have hx := exec_write hmo hp hr
  rw [hblock] at hx
  exact ⟨_, hx, write_bytes hw _ _ _⟩

/-- Settles O29: the ECB block does not touch the chain. -/
theorem ecbWriteStep : Obligations.EcbWriteStep := by
  unfold Obligations.EcbWriteStep
  intro i s j b ch hmo hp hw hr
  cases hd : dirOf i with
  | enc =>
    obtain ⟨mem, hx, hbytes⟩ := exec_write_bytes hmo hp hw hr (by rw [hd, modeBlock])
    exact ⟨_, mem, hx, rfl, hbytes⟩
  | dec =>
    obtain ⟨mem, hx, hbytes⟩ := exec_write_bytes hmo hp hw hr (by rw [hd, modeBlock])
    exact ⟨_, mem, hx, rfl, hbytes⟩

/-- Settles O30: the CBC block by its direction. -/
theorem cbcWriteStep : Obligations.CbcWriteStep := by
  unfold Obligations.CbcWriteStep
  intro i s j b ch hmo hp hw hr
  cases hd : dirOf i with
  | enc =>
    obtain ⟨mem, hx, hbytes⟩ := exec_write_bytes hmo hp hw hr (by rw [hd, modeBlock])
    exact ⟨_, _, mem, hx, fun _ => ⟨rfl, rfl⟩, nofun, hbytes⟩
  | dec =>
    obtain ⟨mem, hx, hbytes⟩ := exec_write_bytes hmo hp hw hr (by rw [hd, modeBlock])
    exact ⟨_, _, mem, hx, nofun, fun _ => ⟨rfl, rfl⟩, hbytes⟩

/-- Settles O31: the CFB block by its direction; both use the forward cipher. -/
theorem cfbWriteStep : Obligations.CfbWriteStep := by
  unfold Obligations.CfbWriteStep
  intro i s j b ch hmo hp hw hr
  cases hd : dirOf i with
  | enc =>
    obtain ⟨mem, hx, hbytes⟩ := exec_write_bytes hmo hp hw hr (by rw [hd, modeBlock])
    exact ⟨_, _, mem, hx, rfl, fun _ => rfl, nofun, hbytes⟩
  | dec =>
    obtain ⟨mem, hx, hbytes⟩ := exec_write_bytes hmo hp hw hr (by rw [hd, modeBlock])
    exact ⟨_, _, mem, hx, rfl, nofun, fun _ => rfl, hbytes⟩

/-- Settles O32: with j = COUNT no block is left, and the complete step leaves IDLE with DONE. -/
theorem modeCompleteStep : Obligations.ModeCompleteStep := by
  unfold Obligations.ModeCompleteStep
  intro i s j ch hm hp hj
  exact ⟨exec_modeDone hm hp (Nat.not_lt.2 hj.ge), statusWord_busy _, statusWord_bit _ (by decide)⟩

/-! ### A whole run -/

/-- The state after a mode command that was accepted in `s` and has run to its end. -/
def afterRun (i : Instr) (m : Mode) (s : State) : State :=
  { s with
    mem := (afterBlocks m (dirOf i) (cipherOf i) s (blockCount s)).1
    status := { clearedStatus s with done := true } }

theorem engineSteps_one {s t : State} (h : engineStep s = .next t) : engineSteps 1 s = .next t := by
  rw [engineSteps, h]
  rfl

section
variable {i : Instr} {m : Mode} {s : State}

/-- The accept leads to the state before the first block. -/
theorem exec_accept_mode (hmo : modeOf i = some m) (hp : s.phase = .idle) (hf : s.status.fault = false)
    (he : acceptError i s = none) : exec i s = .next (afterState i m s 0) := by
  rw [(command_eq hf hp).2 he, accepted_eq_afterState hmo]

/-- A run ends with DONE and with the memory in which all blocks are done (46_modes.md R302). -/
theorem engineSteps_all (hmo : modeOf i = some m) (hp : s.phase = .idle) (he : acceptError i s = none) :
    engineSteps (2 * blockCount s + 1) (afterState i m s 0) = .next (afterRun i m s) := by
  have hm : isMode i = true := (isMode_iff_modeOf i).2 ⟨m, hmo⟩
  have hdone : modeDone (afterState i m s (blockCount s)) = afterRun i m s := by
    rw [modeDone, ← hp]
    rfl
  rw [engineSteps_add (engineSteps_afterState hmo he le_rfl)]
  refine engineSteps_one ?_
  rw [engineStep_mode (i := i) rfl, exec_modeDone (s := afterState i m s (blockCount s)) hm rfl (Nat.lt_irrefl _),
    hdone]

/-- Until all blocks are done the engine is BUSY: at the RD stage after an even number of steps, at the WR stage after
an odd one. -/
theorem engineSteps_busy (hmo : modeOf i = some m) (he : acceptError i s = none) {n : Nat} (hn : n ≤ 2 * blockCount s) :
    ∃ v, engineSteps n (afterState i m s 0) = .next v ∧ v.busy = true := by
  obtain ⟨k, rfl | rfl⟩ := Nat.even_or_odd' n
  · exact ⟨_, engineSteps_afterState hmo he (by omega), rfl⟩
  · have hk : k < blockCount s := by omega
    have hread := engineSteps_one (afterState_read hmo he hk)
    exact ⟨_, (engineSteps_add (engineSteps_afterState hmo he hk.le)).trans hread, rfl⟩

end

/-- Settles O34: the run by its blocks, two engine steps each, and the complete step. -/
theorem modeCommandRunsToCompletion : Obligations.ModeCommandRunsToCompletion := by
  unfold Obligations.ModeCommandRunsToCompletion
  intro i s h hm hp hf he
  obtain ⟨m, hmo⟩ := (isMode_iff_modeOf i).1 hm
  exact ⟨_, _, exec_accept_mode hmo hp hf he, fun n hn => engineSteps_busy hmo he hn, engineSteps_all hmo hp he, rfl,
    afterBlocks_outside _ _ _ _ h.memWf _⟩

/-! ### The functional meaning -/

/-- Output block k of a mode on a list of blocks, by its chaining value (46_modes.md R300). -/
def modeOutAt (m : Mode) (d : Dir) (E D : Block → Block) (chain : Block) (xs : List Block) (k : Nat) : Block :=
  (modeBlock m d E D (xs.getD k 0) (chainAt m d E D chain xs k)).1

/-- Where there is an input block, the output is `modeOutAt`. -/
theorem modeOutputs_getElem?_of_lt (m : Mode) (d : Dir) (E D : Block → Block) (chain : Block) {xs : List Block}
    {k : Nat} (hk : k < xs.length) : (modeOutputs m d E D chain xs)[k]? = some (modeOutAt m d E D chain xs k) := by
  rw [modeOutputs_getElem?, modeOutAt, List.getD_eq_getElem _ _ hk, List.getElem?_eq_getElem hk]
  rfl

theorem length_modeOutputs (m : Mode) (d : Dir) (E D : Block → Block) (chain : Block) (xs : List Block) :
    (modeOutputs m d E D chain xs).length = xs.length := by
  induction xs generalizing chain with
  | nil => rfl
  | cons x xs ih => rw [modeOutputs_cons, List.length_cons, ih, List.length_cons]

theorem length_inputBlocks (c : Cipher) (s : State) : (inputBlocks c s).length = blockCount s := by
  rw [inputBlocks, List.length_map, List.length_range]

theorem getElem?_inputBlocks (c : Cipher) (s : State) {j : Nat} (hj : j < blockCount s) :
    (inputBlocks c s)[j]? = some (inputBlock c s s.mem j) := by
  rw [inputBlocks, List.getElem?_map, List.getElem?_range hj]
  rfl

theorem getD_inputBlocks (c : Cipher) (s : State) {j : Nat} (hj : j < blockCount s) (d : Block) :
    (inputBlocks c s).getD j d = inputBlock c s s.mem j := by
  rw [List.getD_eq_getElem?_getD, getElem?_inputBlocks c s hj]
  rfl

/-- Different output blocks do not overlap (20_memory.md R82). -/
theorem dstAddr_disjoint (c : Cipher) (s : State) {j n : Nat} (h : j < n) :
    dstAddr c s j + c.blockBytes ≤ dstAddr c s n := by
  have hmul : (j + 1) * c.blockBytes ≤ n * c.blockBytes := Nat.mul_le_mul_right _ h
  rw [Nat.succ_mul] at hmul
  simp only [dstAddr]
  omega

section
variable {m : Mode} {d : Dir} {c : Cipher} {s : State}

theorem afterBlocks_chain_fits (n : Nat) : c.fits (afterBlocks m d c s n).2 := by
  induction n with
  | zero => exact trunc_fits c (iv s)
  | succ n ih => exact (modeBlock_fits m d c s (inputBlock_fits c s _ n) ih).2

/-- Input blocks that are still to be read are as they were at the accept (46_modes.md R300). -/
theorem inputBlock_afterBlocks (hw : s.mem.wf = true) (hno : noForwardOverlap c s) {n j : Nat} (hn : n ≤ j)
    (hj : j < blockCount s) : inputBlock c s (afterBlocks m d c s n).1 j = inputBlock c s s.mem j := by
  induction n with
  | zero => rfl
  | succ n ih =>
    rw [← ih (by omega)]
    exact congrArg (BitVec.ofNat 64) (readBytes_writeBytes_outside (afterBlocks_wf m d c s hw n) _
      (hno n j hn hj).symm)

/-- So the chaining value after n blocks is that of the functional definition. -/
theorem afterBlocks_chain (hw : s.mem.wf = true) (hno : noForwardOverlap c s) {n : Nat} (hn : n ≤ blockCount s) :
    (afterBlocks m d c s n).2 =
      chainAt m d (encBlock c s) (decBlock c s) (c.trunc (iv s)) (inputBlocks c s) n := by
  induction n with
  | zero => rfl
  | succ n ih =>
    rw [chainAt, getD_inputBlocks c s hn, ← ih (by omega), ← inputBlock_afterBlocks hw hno le_rfl hn]
    rfl

/-- And the output blocks that are done are those of the functional definition: block n is written to its own place, and
the later ones elsewhere. -/
theorem readBytes_afterBlocks (hw : s.mem.wf = true) (hno : noForwardOverlap c s) {n j : Nat} (hj : j < n)
    (hn : n ≤ blockCount s) :
    BitVec.ofNat 64 ((afterBlocks m d c s n).1.readBytes (dstAddr c s j) c.blockBytes) =
      modeOutAt m d (encBlock c s) (decBlock c s) (c.trunc (iv s)) (inputBlocks c s) j := by
  induction n with
  | zero => omega
  | succ n ih =>
    have hwf : (afterBlocks m d c s n).1.wf = true := afterBlocks_wf m d c s hw n
    obtain hlt | rfl := Nat.lt_succ_iff_lt_or_eq.1 hj
    · rw [← ih hlt (by omega)]
      exact congrArg (BitVec.ofNat 64) (readBytes_writeBytes_outside hwf _ (.inl (dstAddr_disjoint c s hlt)))
    · have hfits : c.fits (modeBlock m d (encBlock c s) (decBlock c s) (inputBlock c s (afterBlocks m d c s j).1 j)
          (afterBlocks m d c s j).2).1 :=
        (modeBlock_fits m d c s (inputBlock_fits c s _ j) (afterBlocks_chain_fits j)).1
      rw [modeOutAt, getD_inputBlocks c s hn, ← afterBlocks_chain hw hno (by omega),
        ← inputBlock_afterBlocks (m := m) (d := d) hw hno le_rfl hn]
      refine (congrArg (BitVec.ofNat 64) ((readBytes_writeBytes_same hwf _ _ _).trans
        (Nat.mod_eq_of_lt (toNat_lt_of_fits hfits)))).trans ?_
      rw [BitVec.ofNat_toNat, BitVec.setWidth_eq]

end

/-- Settles O35: the run ends in the memory of `afterBlocks`, whose output blocks are the functional definition's. -/
theorem modeResultIsTheFunctionalDefinition : Obligations.ModeResultIsTheFunctionalDefinition := by
  unfold Obligations.ModeResultIsTheFunctionalDefinition
  intro i m s h hmo hp hf he hno
  refine ⟨_, _, exec_accept_mode hmo hp hf he, engineSteps_all hmo hp he, (busy_eq_false_iff _).2 hp, fun j hj => ?_⟩
  rw [modeOutputs_getElem?_of_lt _ _ _ _ _ (by rw [length_inputBlocks]; exact hj)]
  exact congrArg some (readBytes_afterBlocks h.memWf hno hj le_rfl)

end Sys2Proof.Machine

/-! PROOFS. Laws of the modes (spec 46_modes.md R304, R305, R308, 20_memory.md R87): the round trip on lists of blocks
and in place in memory, and which output blocks a change of one input block reaches. -/

namespace Sys2Proof.Machine

open Memory

/-! ### The block ciphers on blocks of their width -/

/-- Decryption undoes encryption on a block of the cipher's width (46_modes.md R299). -/
theorem decBlock_encBlock {c : Cipher} (s : State) {x : Block} (hx : c.fits x) : decBlock c s (encBlock c s x) = x := by
  cases c with
  | spn => simp only [decBlock, encBlock, setWidth_64_32, spnD_spnE, setWidth_32_64 hx]
  | fei => simp only [decBlock, encBlock, setWidth_64_32, feiD_feiE, setWidth_32_64 hx]
  | des => exact desDecrypt_desEncrypt x (key s)

/-- And encryption undoes decryption. -/
theorem encBlock_decBlock {c : Cipher} (s : State) {x : Block} (hx : c.fits x) : encBlock c s (decBlock c s x) = x := by
  cases c with
  | spn => simp only [decBlock, encBlock, setWidth_64_32, spnE_spnD, setWidth_32_64 hx]
  | fei => simp only [decBlock, encBlock, setWidth_64_32, feiE_feiD, setWidth_32_64 hx]
  | des => exact desEncrypt_desDecrypt x (key s)

theorem encBlock_inj {c : Cipher} (s : State) {x y : Block} (hx : c.fits x) (hy : c.fits y)
    (h : encBlock c s x = encBlock c s y) : x = y := by
  rw [← decBlock_encBlock s hx, h, decBlock_encBlock s hy]

theorem decBlock_inj {c : Cipher} (s : State) {x y : Block} (hx : c.fits x) (hy : c.fits y)
    (h : decBlock c s x = decBlock c s y) : x = y := by
  rw [← encBlock_decBlock s hx, h, encBlock_decBlock s hy]

/-! ### The round trip -/

/-- Decryption of an encrypted block gives the block, and the chaining value of the encryption (46_modes.md R305). -/
theorem modeBlock_dec_enc (m : Mode) {c : Cipher} (s : State) {x chain : Block} (hx : c.fits x) (hc : c.fits chain) :
    modeBlock m .dec (encBlock c s) (decBlock c s) (modeBlock m .enc (encBlock c s) (decBlock c s) x chain).1 chain =
      (x, (modeBlock m .enc (encBlock c s) (decBlock c s) x chain).2) := by
  cases m with
  | ecb => simp only [modeBlock, decBlock_encBlock s hx]
  | cbc =>
    simp only [modeBlock, decBlock_encBlock s (fits_xor hx hc), BitVec.xor_assoc, BitVec.xor_self, BitVec.xor_zero]
  | cfb => exact modeBlock_cfb_dec_enc _ _ _ x chain

/-- Settles O36: block by block, the chaining value being general in the induction. -/
theorem modeDecryptUndoesEncrypt : Obligations.ModeDecryptUndoesEncrypt := by
  unfold Obligations.ModeDecryptUndoesEncrypt
  intro m c s chain xs hc hxs
  induction xs generalizing chain with
  | nil => rfl
  | cons x xs ih =>
    obtain ⟨hx, hxs⟩ := List.forall_mem_cons.1 hxs
    rw [modeOutputs_cons, modeOutputs_cons, modeBlock_dec_enc m s hx hc, ih _ (modeBlock_fits m .enc c s hx hc).2 hxs]

/-! ### In place -/

/-- In place no output block meets an input block that is read later, since different blocks do not overlap
(20_memory.md R87). -/
theorem noForwardOverlap_of_inPlace {s : State} (h : s.opr.src = s.opr.dst) (c : Cipher) : noForwardOverlap c s :=
  fun i j hij _ => .inl (by
    rw [srcAddr, h]
    exact dstAddr_disjoint c s hij)

/-- In place an input block is the block of the memory at the output address. -/
theorem inputBlock_of_inPlace {s : State} (h : s.opr.src = s.opr.dst) {c : Cipher} {mem : Memory} {j : Nat} :
    inputBlock c s mem j = BitVec.ofNat 64 (mem.readBytes (dstAddr c s j) c.blockBytes) := by
  rw [inputBlock, srcAddr, h, dstAddr]

/-- In place the blocks that the next command will read are the output blocks of this one. -/
theorem inputBlocks_afterRun {i : Instr} {m : Mode} {s : State} (hw : s.mem.wf = true) (hsd : s.opr.src = s.opr.dst) :
    inputBlocks (cipherOf i) (afterRun i m s) =
      modeOutputs m (dirOf i) (encBlock (cipherOf i) s) (decBlock (cipherOf i) s) ((cipherOf i).trunc (iv s))
        (inputBlocks (cipherOf i) s) := by
  refine List.ext_getElem? fun j => ?_
  by_cases hj : j < blockCount s
  · rw [modeOutputs_getElem?_of_lt _ _ _ _ _ (by rwa [length_inputBlocks]),
      getElem?_inputBlocks _ (afterRun i m s) hj,
      ← readBytes_afterBlocks hw (noForwardOverlap_of_inPlace hsd _) hj le_rfl,
      inputBlock_of_inPlace (s := afterRun i m s) hsd]
    rfl
  · rw [List.getElem?_eq_none (by rw [length_inputBlocks]; exact not_lt.1 hj),
      List.getElem?_eq_none (by rw [length_modeOutputs, length_inputBlocks]; exact not_lt.1 hj)]

/-- Two mode commands of one cipher pass the same checks in states with the same operands. -/
theorem acceptError_of_cipherOf_eq {e d : Instr} {s t : State} (he : isMode e = true) (hd : isMode d = true)
    (hcipher : cipherOf d = cipherOf e) (ho : t.opr = s.opr) (hc : t.cfg = s.cfg) :
    acceptError d t = acceptError e s := by
  rw [acceptError_congr d ho hc, ← modeCheck_eq_acceptError he, ← modeCheck_eq_acceptError hd, hcipher]

/-- A memory that agrees with that of `s` block by block in the output buffer and byte by byte outside is that memory.
-/
theorem mem_eq_of_blocks {c : Cipher} {s : State} {mem : Memory} (hwf : mem.wf = true) (hw : s.mem.wf = true)
    (hout : ∀ a, (∀ j, j < blockCount s → a < dstAddr c s j ∨ dstAddr c s j + c.blockBytes ≤ a) →
      mem.readByte a = s.mem.readByte a)
    (hin : ∀ j, j < blockCount s →
      mem.readBytes (dstAddr c s j) c.blockBytes = s.mem.readBytes (dstAddr c s j) c.blockBytes) : mem = s.mem := by
  refine mem_ext hwf hw fun a => ?_
  by_cases hb : ∃ j, j < blockCount s ∧ dstAddr c s j ≤ a ∧ a < dstAddr c s j + c.blockBytes
  · obtain ⟨j, hj, hlo, hhi⟩ := hb
    rw [← Nat.add_sub_of_le hlo]
    exact byte_of_readBytes (hin j hj) (by omega)
  · refine hout a fun j hj => ?_
    by_contra hnot
    exact hb ⟨j, hj, by omega, by omega⟩

/-- In place, encryption and decryption leave the memory as it was: the decryption reads what the encryption wrote, so
that its blocks are the first blocks. -/
theorem afterRun_dec_enc_mem {e d : Instr} {m : Mode} {s : State} (hw : s.mem.wf = true)
    (hcipher : cipherOf d = cipherOf e) (hde : dirOf e = .enc) (hdd : dirOf d = .dec) (hsd : s.opr.src = s.opr.dst) :
    (afterRun d m (afterRun e m s)).mem = s.mem := by
  have huw : (afterRun e m s).mem.wf = true := afterBlocks_wf _ _ _ _ hw _
  have hmem : (afterRun d m (afterRun e m s)).mem =
      (afterBlocks m .dec (cipherOf e) (afterRun e m s) (blockCount s)).1 := by
    rw [← hdd, ← hcipher]
    rfl
  have hblocks : modeOutputs m .dec (encBlock (cipherOf e) (afterRun e m s)) (decBlock (cipherOf e) (afterRun e m s))
      ((cipherOf e).trunc (iv (afterRun e m s))) (inputBlocks (cipherOf e) (afterRun e m s)) =
        inputBlocks (cipherOf e) s := by
    rw [inputBlocks_afterRun hw hsd, hde, encBlock_congr (s := s) rfl (keysAgree_refl _ _) rfl,
      decBlock_congr (s := s) rfl (keysAgree_refl _ _) rfl]
    refine modeDecryptUndoesEncrypt m _ s _ _ (trunc_fits _ _) fun x hx => ?_
    obtain ⟨j, -, rfl⟩ := List.mem_map.1 hx
    exact inputBlock_fits _ _ _ _
  rw [hmem]
  refine mem_eq_of_blocks (c := cipherOf e) (afterBlocks_wf _ _ _ _ huw _) hw (fun a ha => ?outside) fun j hj => ?inside
  case outside =>
    exact (afterBlocks_outside _ _ _ (afterRun e m s) huw _ _ ha).trans (afterBlocks_outside _ _ _ _ hw _ _ ha)
  case inside =>
    have hin : j < (inputBlocks (cipherOf e) (afterRun e m s)).length := by rwa [length_inputBlocks]
    have hblock := congrArg (·[j]?) hblocks
    rw [modeOutputs_getElem?_of_lt _ _ _ _ _ hin, getElem?_inputBlocks _ s hj, inputBlock_of_inPlace hsd,
      ← readBytes_afterBlocks (s := afterRun e m s) huw (noForwardOverlap_of_inPlace hsd _) hj le_rfl] at hblock
    rw [← readBytes_block (cipherOf e) s.mem, ← Option.some.inj hblock]
    exact (readBytes_block (cipherOf e) _ _).symm

/-- Settles O37: both runs end in `afterRun`, the second is accepted since the operands are those of the first, and the
memory is the first one's. -/
theorem inPlaceDecryptRestoresTheBuffer : Obligations.InPlaceDecryptRestoresTheBuffer := by
  unfold Obligations.InPlaceDecryptRestoresTheBuffer
  intro e d s h hme hmode hcipher hde hdd hp hf he hsd
  obtain ⟨m, hmo⟩ := (isMode_iff_modeOf e).1 hme
  have hmd : isMode d = true := (isMode_iff_modeOf d).2 ⟨m, hmode.trans hmo⟩
  have hd : acceptError d (afterRun e m s) = none := (acceptError_of_cipherOf_eq hme hmd hcipher rfl rfl).trans he
  have hmem := afterRun_dec_enc_mem (m := m) h.memWf hcipher hde hdd hsd
  have hend : afterRun d m (afterRun e m s) = { s with status := { clearedStatus s with done := true } } :=
    calc afterRun d m (afterRun e m s)
      _ = { s with mem := (afterRun d m (afterRun e m s)).mem, status := { clearedStatus s with done := true } } := rfl
      _ = { s with status := { clearedStatus s with done := true } } := by rw [hmem]
  refine ⟨_, afterRun e m s, _, _, exec_accept_mode hmo hp hf he, engineSteps_all hmo hp he,
    exec_accept_mode (s := afterRun e m s) (hmode.trans hmo) hp hf hd, ?_, rfl⟩
  rw [← hend]
  exact engineSteps_all (s := afterRun e m s) (hmode.trans hmo) hp hd

end Sys2Proof.Machine

/-! PROOFS. Error propagation (spec 46_modes.md R304, R308): an output block is one-to-one in the input block and, but
for ECB, in the chaining value, which holds the last input block on decryption and the last output block on
encryption. -/

namespace Sys2Proof.Machine

/-! ### One block -/

section
variable {c : Cipher} (s : State)

/-- Different input blocks under one chaining value give different output blocks. -/
theorem modeBlock_inj_block (m : Mode) (d : Dir) {x y chain : Block} (hx : c.fits x) (hy : c.fits y) (hc : c.fits chain)
    (h : (modeBlock m d (encBlock c s) (decBlock c s) x chain).1 =
      (modeBlock m d (encBlock c s) (decBlock c s) y chain).1) : x = y := by
  cases m with
  | ecb =>
    cases d with
    | enc => exact encBlock_inj s hx hy h
    | dec => exact decBlock_inj s hx hy h
  | cbc =>
    cases d with
    | enc => exact (BitVec.xor_left_inj chain).1 (encBlock_inj s (fits_xor hx hc) (fits_xor hy hc) h)
    | dec => exact decBlock_inj s hx hy ((BitVec.xor_left_inj chain).1 h)
  | cfb => cases d <;> exact (BitVec.xor_left_inj _).1 h

/-- But for ECB, different chaining values with one input block give different output blocks. -/
theorem modeBlock_inj_chain {m : Mode} (hm : m ≠ .ecb) (d : Dir) {x a b : Block} (hx : c.fits x) (ha : c.fits a)
    (hb : c.fits b)
    (h : (modeBlock m d (encBlock c s) (decBlock c s) x a).1 = (modeBlock m d (encBlock c s) (decBlock c s) x b).1) :
    a = b := by
  cases m with
  | ecb => exact absurd rfl hm
  | cbc =>
    cases d with
    | enc => exact (BitVec.xor_right_inj x).1 (encBlock_inj s (fits_xor hx ha) (fits_xor hx hb) h)
    | dec => exact (BitVec.xor_right_inj _).1 h
  | cfb => cases d <;> exact encBlock_inj s ha hb ((BitVec.xor_right_inj x).1 h)

end

/-! ### The chaining value -/

section
variable {m : Mode} {d : Dir} {E D : Block → Block} {chain : Block} {xs ys : List Block}

/-- The chaining value depends on the input blocks so far. -/
theorem chainAt_congr {k : Nat} (h : ∀ i, i < k → xs.getD i 0 = ys.getD i 0) :
    chainAt m d E D chain xs k = chainAt m d E D chain ys k := by
  induction k with
  | zero => rfl
  | succ k ih => rw [chainAt, chainAt, ih fun i hi => h i (by omega), h k (by omega)]

/-- On decryption it is the last input block. -/
theorem chainAt_dec_succ (hm : m ≠ .ecb) (k : Nat) : chainAt m .dec E D chain xs (k + 1) = xs.getD k 0 := by
  cases m with
  | ecb => exact absurd rfl hm
  | cbc | cfb => rfl

/-- On encryption it is the last output block. -/
theorem chainAt_enc_succ (hm : m ≠ .ecb) (k : Nat) :
    chainAt m .enc E D chain xs (k + 1) = modeOutAt m .enc E D chain xs k := by
  cases m with
  | ecb => exact absurd rfl hm
  | cbc | cfb => rfl

/-- In ECB an output block depends on its input block alone (46_modes.md R304). -/
theorem modeOutputs_ecb_getElem? (d : Dir) (E D : Block → Block) (chain : Block) (xs : List Block) (k : Nat) :
    (modeOutputs .ecb d E D chain xs)[k]? = xs[k]?.map fun x => (modeBlock .ecb d E D x 0).1 := by
  rw [modeOutputs_getElem?]
  cases d <;> rfl

/-- Where there is a block, the output blocks are compared by `modeOutAt`. -/
theorem modeOutputs_eq_iff (hlen : xs.length = ys.length) {k : Nat} (hk : k < xs.length) :
    (modeOutputs m d E D chain xs)[k]? = (modeOutputs m d E D chain ys)[k]? ↔
      modeOutAt m d E D chain xs k = modeOutAt m d E D chain ys k := by
  rw [modeOutputs_getElem?_of_lt _ _ _ _ _ hk, modeOutputs_getElem?_of_lt _ _ _ _ _ (hlen ▸ hk), Option.some_inj]

theorem modeOutputs_eq_of_le (hlen : xs.length = ys.length) {k : Nat} (hk : xs.length ≤ k) :
    (modeOutputs m d E D chain xs)[k]? = (modeOutputs m d E D chain ys)[k]? := by
  rw [List.getElem?_eq_none (by rwa [length_modeOutputs]),
    List.getElem?_eq_none (by rwa [length_modeOutputs, ← hlen])]

end

theorem fits_zero (c : Cipher) : c.fits 0 := Nat.two_pow_pos _

theorem fits_getD {c : Cipher} {xs : List Block} (h : ∀ x ∈ xs, c.fits x) (k : Nat) : c.fits (xs.getD k 0) := by
  rw [List.getD_eq_getElem?_getD]
  cases hk : xs[k]? with
  | none => exact fits_zero c
  | some x => exact h x (List.mem_of_getElem? hk)

theorem chainAt_fits (m : Mode) (d : Dir) {c : Cipher} (s : State) {chain : Block} {xs : List Block} (hc : c.fits chain)
    (hxs : ∀ x ∈ xs, c.fits x) (k : Nat) : c.fits (chainAt m d (encBlock c s) (decBlock c s) chain xs k) := by
  induction k with
  | zero => exact hc
  | succ k ih => exact (modeBlock_fits m d c s (fits_getD hxs k) ih).2

/-! ### Two inputs that differ in one block -/

section
variable {c : Cipher} {s : State} {chain : Block} {xs ys : List Block} {j : Nat} {m : Mode}
  (hxs : ∀ x ∈ xs, c.fits x) (hys : ∀ y ∈ ys, c.fits y) (hc : c.fits chain)
  (hdiff : xs.getD j 0 ≠ ys.getD j 0) (hsame : ∀ k, k ≠ j → xs.getD k 0 = ys.getD k 0)

include hsame in
/-- Output blocks before the change are the same, in every mode and direction. -/
theorem modeOutAt_eq_of_lt (d : Dir) {k : Nat} (hk : k < j) :
    modeOutAt m d (encBlock c s) (decBlock c s) chain xs k =
      modeOutAt m d (encBlock c s) (decBlock c s) chain ys k := by
  rw [modeOutAt, modeOutAt, chainAt_congr fun i hi => hsame i (by omega), hsame k hk.ne]

include hxs hys hc hdiff hsame in
/-- The output block at the change differs, in every mode and direction: the chaining value before it is the same. -/
theorem modeOutAt_ne_at (d : Dir) :
    modeOutAt m d (encBlock c s) (decBlock c s) chain xs j ≠
      modeOutAt m d (encBlock c s) (decBlock c s) chain ys j := by
  intro h
  rw [modeOutAt, modeOutAt, chainAt_congr fun i hi => hsame i hi.ne] at h
  exact hdiff (modeBlock_inj_block s m d (fits_getD hxs j) (fits_getD hys j) (chainAt_fits m d s hc hys j) h)

include hsame in
/-- On decryption the chaining value carries the change one block on and no further. -/
theorem modeOutAt_dec_eq (hm : m ≠ .ecb) {k : Nat} (hk : k ≠ j) (hk' : k ≠ j + 1) :
    modeOutAt m .dec (encBlock c s) (decBlock c s) chain xs k =
      modeOutAt m .dec (encBlock c s) (decBlock c s) chain ys k := by
  rw [modeOutAt, modeOutAt, hsame k hk]
  cases k with
  | zero => rfl
  | succ k => rw [chainAt_dec_succ hm, chainAt_dec_succ hm, hsame k (by omega)]

include hxs hys hdiff hsame in
/-- On decryption the block after the change differs: its input is the same and the chaining value is the changed
block. -/
theorem modeOutAt_dec_ne_succ (hm : m ≠ .ecb) :
    modeOutAt m .dec (encBlock c s) (decBlock c s) chain xs (j + 1) ≠
      modeOutAt m .dec (encBlock c s) (decBlock c s) chain ys (j + 1) := by
  intro h
  rw [modeOutAt, modeOutAt, chainAt_dec_succ hm, chainAt_dec_succ hm, hsame (j + 1) (by omega)] at h
  exact hdiff (modeBlock_inj_chain s hm .dec (fits_getD hys _) (fits_getD hxs j) (fits_getD hys j) h)

include hxs hys hc hdiff hsame in
/-- On encryption every block from the change on differs: its chaining value is the output block before it. -/
theorem modeOutAt_enc_ne (hm : m ≠ .ecb) {k : Nat} (hk : j ≤ k) :
    modeOutAt m .enc (encBlock c s) (decBlock c s) chain xs k ≠
      modeOutAt m .enc (encBlock c s) (decBlock c s) chain ys k := by
  induction k, hk using Nat.le_induction with
  | base => exact modeOutAt_ne_at hxs hys hc hdiff hsame .enc
  | succ k hk ih =>
    intro h
    rw [modeOutAt, modeOutAt, hsame (k + 1) (by omega)] at h
    have hchain := modeBlock_inj_chain s hm .enc (fits_getD hys _) (chainAt_fits m .enc s hc hxs _)
      (chainAt_fits m .enc s hc hys _) h
    rw [chainAt_enc_succ hm, chainAt_enc_succ hm] at hchain
    exact ih hchain

end

/-- Two inputs that differ in block j alone, in the form with a default. -/
theorem getD_of_getElem? {xs ys : List Block} {j : Nat} (hlen : xs.length = ys.length) (hj : j < xs.length)
    (hdiff : xs[j]? ≠ ys[j]?) (hsame : ∀ k, k ≠ j → xs[k]? = ys[k]?) :
    xs.getD j 0 ≠ ys.getD j 0 ∧ ∀ k, k ≠ j → xs.getD k 0 = ys.getD k 0 := by
  refine ⟨fun h => hdiff ?_, fun k hk => ?_⟩
  · rw [List.getD_eq_getElem _ _ hj, List.getD_eq_getElem _ _ (hlen ▸ hj)] at h
    rw [List.getElem?_eq_getElem hj, List.getElem?_eq_getElem (hlen ▸ hj), h]
  · rw [List.getD_eq_getElem?_getD, List.getD_eq_getElem?_getD, hsame k hk]

/-- Settles O39: ECB block by block, and CBC and CFB by what their chaining values carry on. -/
theorem errorPropagation : Obligations.ErrorPropagation := by
  unfold Obligations.ErrorPropagation
  intro c s chain xs ys j hxs hys hc hlen hj hne hrest run
  obtain ⟨hdiff, hsame⟩ := getD_of_getElem? hlen hj hne hrest
  refine ⟨fun d k k' hk => ?equal, fun d k => ⟨?ecbAt, fun hk => ?ecbElsewhere⟩, fun m hmem => ?chained⟩
  case equal =>
    simp only [run, modeOutputs_ecb_getElem?, hk]
  case ecbAt =>
    rintro h rfl
    exact modeOutAt_ne_at hxs hys hc hdiff hsame d ((modeOutputs_eq_iff hlen hj).1 h)
  case ecbElsewhere =>
    simp only [run, modeOutputs_ecb_getElem?, hrest k hk]
  case chained =>
    have hm : m ≠ .ecb := by
      revert hmem
      cases m <;> decide
    refine ⟨fun k hk hk' => ?decElsewhere,
      fun h => modeOutAt_ne_at hxs hys hc hdiff hsame .dec ((modeOutputs_eq_iff hlen hj).1 h),
      fun hj' h => modeOutAt_dec_ne_succ hxs hys hdiff hsame hm ((modeOutputs_eq_iff hlen hj').1 h), fun k hk => ?enc⟩
    case decElsewhere =>
      obtain hlt | hge := Nat.lt_or_ge k xs.length
      · exact (modeOutputs_eq_iff hlen hlt).2 (modeOutAt_dec_eq hsame hm hk hk')
      · exact modeOutputs_eq_of_le hlen hge
    case enc =>
      refine (modeOutputs_eq_iff hlen hk).trans ⟨fun h => ?_, modeOutAt_eq_of_lt hsame .enc⟩
      by_contra hjk
      exact modeOutAt_enc_ne hxs hys hc hdiff hsame hm (not_lt.1 hjk) h

end Sys2Proof.Machine

/-! PROOFS. Progress of the machine (spec 30_encoding.md R121, 70_reset_and_hazards.md R404, R406): the engine runs a
command to its end, and the host's `run` statement ends with it. -/

namespace Sys2Proof.Machine

/-- A run of the machine, step by step. -/
theorem run_succ {s t : State} (h : step s = .next t) (n : Nat) :
    Host.Core.run Sys2Proof.core (n + 1) s = Host.Core.run Sys2Proof.core n t := by
  have hcore : Sys2Proof.core.step s = .next t := h
  simp only [Host.Core.run, hcore]

/-- With nothing scheduled a BUSY engine moves (log 4). -/
theorem step_busy {s : State} (hb : s.busy = true) (hs : s.schedule = []) : step s = engineStep s := by
  rw [step_of_empty hs, defaultAgent, hb]
  rfl

/-- And when the engine is IDLE the host makes its next event. -/
theorem step_host {s : State} {op : HostOp} {rest : List HostOp} (hp : s.phase = .idle) (hs : s.schedule = [])
    (hh : s.host = op :: rest) : step s = hostEvent op (s.withHost rest) := by
  rw [step_of_empty hs, defaultAgent_idle hp, agentStep, hostStep, hh]

theorem engineStep_agents {s t : State} (h : engineStep s = .next t) : t.host = s.host ∧ t.schedule = s.schedule := by
  unfold engineStep at h
  split at h
  · rw [← Host.Outcome.next.inj h]
    exact ⟨rfl, rfl⟩
  all_goals exact exec_frame h

/-- The phase after an accept without error is RUN. -/
theorem busy_runPhase (i : Instr) (s : State) :
    State.busy { s with status := clearedStatus s, phase := runPhase i s } = true := by
  cases hm : isMode i with
  | false => rw [runPhase_of_single hm]; rfl
  | true => rw [runPhase_of_mode hm]; rfl

/-- A safe running engine reaches IDLE with DONE, the host's list and the schedule as they were: each step uses up one
of the steps that are left. -/
theorem exists_run_to_idle {s : State} (h : s.Inv) (hb : s.busy = true) (hs : s.schedule = []) :
    ∃ (n : Nat) (t : State), (∀ k, Host.Core.run Sys2Proof.core (k + n) s = Host.Core.run Sys2Proof.core k t) ∧
      t.phase = .idle ∧ t.host = s.host ∧ t.schedule = [] ∧ t.status.done = true ∧ t.status.err = false := by
  induction hn : stepsLeft s generalizing s with
  | zero =>
    obtain ⟨⟨t, hx⟩, -⟩ := noRunTimeException s h
    obtain ⟨hcount, -⟩ := engineStepsCountDown.2 s t h hb hx
    omega
  | succ n ih =>
    obtain ⟨⟨t, hx⟩, -⟩ := noRunTimeException s h
    obtain ⟨hcount, -, hdone⟩ := engineStepsCountDown.2 s t h hb hx
    obtain ⟨hhost, hsched⟩ := engineStep_agents hx
    have hstep : step s = .next t := (step_busy hb hs).trans hx
    have ht : t.Inv := stepKeepsTheInvariant s t h hstep
    cases htb : t.busy with
    | false =>
      have herr : t.status.err = false := Bool.eq_false_iff.2 fun herr => ht.oneOutcome ⟨hdone htb, herr⟩
      exact ⟨1, t, run_succ hstep, (busy_eq_false_iff t).1 htb, hhost, hsched.trans hs, hdone htb, herr⟩
    | true =>
      obtain ⟨l, u, hrun, hp, hu, hrest⟩ := ih ht htb (hsched.trans hs) (by omega)
      exact ⟨l + 1, u, fun k => (run_succ hstep (k + l)).trans (hrun k), hp, hu.trans hhost, hrest⟩

/-- A `wait` at an IDLE engine reads STATUS once and ends (30_encoding.md R121). -/
theorem run_wait {s : State} {rest : List HostOp} (hp : s.phase = .idle) (hs : s.schedule = [])
    (hh : s.host = .wait :: rest) :
    ∃ t, Host.Core.run Sys2Proof.core 1 s = .next t ∧ t.host = rest ∧ t.phase = .idle ∧ t.status = s.status ∧
      t.mem = s.mem := by
  have hbit : (statusWord (s.withHost rest)).getLsbD 0 = false :=
    (statusWord_busy (s.withHost rest)).trans ((busy_eq_false_iff (s.withHost rest)).2 hp)
  have hstep : step s = .next ((s.withHost rest).record (.reg 0x04 (statusWord (s.withHost rest)))) := by
    rw [step_host hp hs hh, hostEvent, waitTurn, hbit]
    rfl
  exact ⟨_, run_succ hstep 0, rfl, hp, rfl, rfl⟩

/-- Settles O59: the CMD write is ignored, raises an error, or starts a command that runs to its end; then the engine
is IDLE and `wait` ends. -/
theorem runStatementEnds : Obligations.RunStatementEnds := by
  unfold Obligations.RunStatementEnds
  intro s i rest h hp hs hh
  have hwrite : step s = cmdWrite (encode i) (s.withHost (.wait :: rest)) := step_host hp hs hh
  cases hf : s.status.fault with
  | true =>
    rw [cmdWrite_of_fault (s := s.withHost (.wait :: rest)) hf] at hwrite
    obtain ⟨t, hrun, hhost, hidle, hstatus, hmem⟩ := run_wait (s := s.withHost (.wait :: rest)) hp hs rfl
    exact ⟨2, t, (run_succ hwrite 1).trans hrun, hhost, hidle, nofun, fun _ => ⟨hstatus, hmem⟩⟩
  | false =>
    rw [cmdWrite_encode (s := s.withHost (.wait :: rest)) hf hp] at hwrite
    obtain ⟨hraise, haccept⟩ := command_eq (s := s.withHost (.wait :: rest)) (i := i) hf hp
    cases he : acceptError i (s.withHost (.wait :: rest)) with
    | some code =>
      obtain ⟨t, hrun, hhost, hidle, hstatus, -⟩ := run_wait
        (s := { s.withHost (.wait :: rest) with status := raisedStatus code (s.withHost (.wait :: rest)) }) hp hs rfl
      refine ⟨2, t, (run_succ (hwrite.trans (hraise code he)) 1).trans hrun, hhost, hidle, fun _ => ?_, nofun⟩
      rw [hstatus]
      exact iff_of_false nofun nofun
    | none =>
      have hstart := hwrite.trans (haccept he)
      have hb := busy_runPhase i (s.withHost (.wait :: rest))
      obtain ⟨n, u, hrun, hidle, hhost, hsched, hdone, herr⟩ :=
        exists_run_to_idle (stepKeepsTheInvariant s _ h hstart) hb hs
      obtain ⟨t, hwait, hhost', hidle', hstatus, -⟩ := run_wait hidle hsched hhost
      refine ⟨1 + n + 1, t, ((run_succ hstart _).trans (hrun 1)).trans hwait, hhost', hidle', fun _ => ?_, nofun⟩
      rw [hstatus]
      exact iff_of_true hdone herr

end Sys2Proof.Machine
